-- ==== Sys2Proof/Word.lean ====
section
/-! DEFINITION. Word types of the block (00_scope.md R10: every value is an unsigned integer) and the raw form in which
an operation reaches it (30_encoding.md R90, R92, R93). -/

namespace Sys2Proof

/-- A host data word, 32 bits (20_memory.md R60). -/
abbrev Word := BitVec 32

/-- A buffer, frame or character byte (20_memory.md R63). -/
abbrev Byte := BitVec 8

/-- A byte address of the register window, 12 bits (20_memory.md R60). -/
abbrev Addr := BitVec 12

/-- One operation as it reaches the block, before decoding. The kind tells the format (30_encoding.md R99): a bus
transaction is the 45-bit word of R92, an input event the 2-bit code of R93. -/
inductive Input where
  /-- a bus transaction {RW[44], ADDR[43:32], DATA[31:0]} (R92) -/
  | bus (word : BitVec 45)
  /-- an input event (R93) -/
  | event (code : BitVec 2)
deriving DecidableEq, Repr

end Sys2Proof
end

