-- ==== Sys2Proof/Syntax.lean ====
section
/-! DEFINITION. The block's operations, one constructor per row of spec/opcode_table.json. -/

namespace Sys2Proof

/-- The operations of the block (30_encoding.md R90, R95). A command carries no operand of its own: its operands come
from ARG and the configuration registers (R91, R94). -/
inductive Instr where
  /-- CRC_LOAD, OP 0x01 (40_crc16.md R124) -/
  | crcLoad
  /-- CRC_BYTE, OP 0x02 (R125) -/
  | crcByte
  /-- CRC_HDR, OP 0x03 (R126) -/
  | crcHdr
  /-- CRC_INFO, OP 0x04 (R127) -/
  | crcInfo
  /-- FCS_COMPUTE, OP 0x05 (R128) -/
  | fcsCompute
  /-- B91_TLM, OP 0x10 (41_base91.md R143) -/
  | b91Tlm
  /-- B91_LATLON, OP 0x11 (R144) -/
  | b91Latlon
  /-- AX25_RESET, OP 0x20 (42_ax25_frame.md R170) -/
  | ax25Reset
  /-- AX25_NEXT_BYTE, OP 0x21 (R171) -/
  | ax25NextByte
  /-- NRZI_NEXT_BIT, OP 0x22 (43_bitstuff_nrzi.md R199) -/
  | nrziNextBit
  /-- RTTY_INIT, OP 0x30 (44_rtty.md R223) -/
  | rttyInit
  /-- RTTY_NEXT_BIT, OP 0x31 (R230) -/
  | rttyNextBit
  /-- TX_START_APRS, OP 0x40 (45_scheduler.md R251) -/
  | txStartAprs
  /-- TX_START_RTTY, OP 0x41 (R252) -/
  | txStartRtty
  /-- BUS_WRITE(addr, data) (46_host_bus.md R280) -/
  | busWrite (addr : Addr) (data : Word)
  /-- BUS_READ(addr); the DATA field of its word is the returned value, not an operand (R92, R289) -/
  | busRead (addr : Addr)
  /-- TICK_SAMPLE, event 0 (45_scheduler.md R253) -/
  | tickSample
  /-- TICK_BAUD, event 1 (R256) -/
  | tickBaud
  /-- HW_RESET, event 2 (70_reset_and_hazards.md R330) -/
  | hwReset
deriving DecidableEq, Repr

end Sys2Proof
end

