-- ==== Sys2Proof/WellFormed.lean ====
section
/-! DEFINITION. Which operations are canonical: the words that mean a command are written as that command. -/

namespace Sys2Proof

/-- The fourteen command codes (30_encoding.md R95, R96). -/
def commandCodes : List Byte :=
  [0x01#8, 0x02#8, 0x03#8, 0x04#8, 0x05#8, 0x10#8, 0x11#8, 0x20#8, 0x21#8, 0x22#8, 0x30#8, 0x31#8, 0x40#8, 0x41#8]

/-- An operation is well formed when it is the canonical name of its word. A BUS_WRITE to offset 0x000 (address bits 1:0
ignored, 20_memory.md R61) whose OP is a listed code is a command (30_encoding.md R90, R99), so as a `busWrite` it is not
well formed; every other operation is. -/
def Instr.wellFormed : Instr → Bool
  | .busWrite addr data => !(addr.extractLsb' 2 10 == 0#10 && commandCodes.contains (data.extractLsb' 0 8))
  | .crcLoad | .crcByte | .crcHdr | .crcInfo | .fcsCompute | .b91Tlm | .b91Latlon | .ax25Reset | .ax25NextByte
  | .nrziNextBit | .rttyInit | .rttyNextBit | .txStartAprs | .txStartRtty | .busRead _ | .tickSample | .tickBaud
  | .hwReset => true

end Sys2Proof
end

