-- ==== Sys2Proof/Decode.lean ====
section
/-! DEFINITION. From the raw form of an operation to the operation, and back (30_encoding.md R90-R99). -/

namespace Sys2Proof

/-- Why the decoder refuses an input. -/
inductive DecodeError where
  /-- event code 3, "reserved", which "never occurs ... and a model refuses it" (R93) -/
  | reservedEvent
deriving DecidableEq, Repr

/-- The command table of R95: OP code and command. -/
def commandTable : List (Byte × Instr) :=
  [(0x01#8, .crcLoad), (0x02#8, .crcByte), (0x03#8, .crcHdr), (0x04#8, .crcInfo), (0x05#8, .fcsCompute),
   (0x10#8, .b91Tlm), (0x11#8, .b91Latlon), (0x20#8, .ax25Reset), (0x21#8, .ax25NextByte), (0x22#8, .nrziNextBit),
   (0x30#8, .rttyInit), (0x31#8, .rttyNextBit), (0x40#8, .txStartAprs), (0x41#8, .txStartRtty)]

/-- The command of an OP code; none for the 242 illegal codes (R96, R97). -/
def commandOfCode (op : Byte) : Option Instr := commandTable.lookup op

/-- The OP field of a CMD word, bits 7:0; bits 31:8 are ignored (R91). -/
def opField (word : Word) : Byte := word.extractLsb' 0 8

/-- Whether a bus address reaches CMD at offset 0x000; address bits 1:0 are ignored (20_memory.md R61). -/
def isCmdAddr (addr : Addr) : Bool := addr.extractLsb' 2 10 == 0#10

/-- The operation an operation's word means: a BUS_WRITE that carries a listed command is that command (R90, R99, R281),
and any other operation is itself. -/
def Instr.canon : Instr → Instr
  | .busWrite addr data =>
    if isCmdAddr addr then (commandOfCode (opField data)).getD (.busWrite addr data) else .busWrite addr data
  | i => i

/-- A bus word {RW[44], ADDR[43:32], DATA[31:0]} (R92). -/
def decodeBus (word : BitVec 45) : Instr :=
  let addr := word.extractLsb' 32 12
  if word.getLsbD 44 then (Instr.busWrite addr (word.extractLsb' 0 32)).canon else .busRead addr

/-- The decoder: total, and the reserved event code is refused by name (R93, R99). -/
def decode : Input → Except DecodeError Instr
  | .bus word => .ok (decodeBus word)
  | .event code =>
    if code = 0#2 then .ok .tickSample
    else if code = 1#2 then .ok .tickBaud
    else if code = 2#2 then .ok .hwReset
    else .error .reservedEvent

/-- A bus transaction word (R92). -/
def busWord (write : Bool) (addr : Addr) (data : Word) : BitVec 45 := BitVec.ofBool write ++ addr ++ data

/-- The bus transaction that delivers a CMD word: a BUS_WRITE of it to offset 0x000 (R90). -/
def cmdInput (word : Word) : Input := .bus (busWord true 0#12 word)

/-- The encoder: the word of each operation, with the ignored bits of a command word 0 (R102) and the DATA field of a
read 0. -/
def encode : Instr → Input
  | .crcLoad => cmdInput 0x01#32
  | .crcByte => cmdInput 0x02#32
  | .crcHdr => cmdInput 0x03#32
  | .crcInfo => cmdInput 0x04#32
  | .fcsCompute => cmdInput 0x05#32
  | .b91Tlm => cmdInput 0x10#32
  | .b91Latlon => cmdInput 0x11#32
  | .ax25Reset => cmdInput 0x20#32
  | .ax25NextByte => cmdInput 0x21#32
  | .nrziNextBit => cmdInput 0x22#32
  | .rttyInit => cmdInput 0x30#32
  | .rttyNextBit => cmdInput 0x31#32
  | .txStartAprs => cmdInput 0x40#32
  | .txStartRtty => cmdInput 0x41#32
  | .busWrite addr data => .bus (busWord true addr data)
  | .busRead addr => .bus (busWord false addr 0#32)
  | .tickSample => .event 0#2
  | .tickBaud => .event 1#2
  | .hwReset => .event 2#2

/-- The input that the first `nbits` bits `w` of a word of spec/opcode_table.json stand for, every higher bit being 0
(DESIGN CHOICE, log entry 6). A bus transaction has 45 bits, an event 2. The table fixes the eight OP bits of a CMD word and
leaves its bits 31:8 ignored (R91), so 8 to 32 bits are a CMD word, which arrives as the BUS_WRITE of it to offset 0x000
(R90). In whole bytes an event has 8 bits too: a byte is read as the first row of the table that it matches, and the CMD rows
stand before the EVENT rows, so of the events only code 0, which is no command's OP, is read from a whole byte; fewer than 8
bits are always an event. None where the word does not fit its format. -/
def Input.ofTableWord (nbits w : Nat) : Option Input :=
  if nbits < 8 ∨ (nbits = 8 ∧ w = 0) then if w < 4 then some (.event (BitVec.ofNat 2 w)) else none
  else if nbits ≤ 32 then if w < 2 ^ 32 then some (cmdInput (BitVec.ofNat 32 w)) else none
  else if w < 2 ^ 45 then some (.bus (BitVec.ofNat 45 w)) else none

/-- What the decoder reads from a word of the opcode table; none where it refuses. -/
def decodeTableWord (nbits w : Nat) : Option Instr :=
  match Input.ofTableWord nbits w with
  | some input => (decode input).toOption
  | none => none

end Sys2Proof
end

