-- ==== Sys2Proof/Config.lean ====
section
/-! DEFINITION. The block's parameters that are not registers (00_scope.md R8, 10_state.md R20), and WINDOW_BASE. -/

namespace Sys2Proof.Config

/-- Length of the AX.25 header buffer (R8). -/
def hdrLen : Nat := 23

/-- Length of the information-field buffer (R8). -/
def infoLen : Nat := 32

/-- RTTY_MSG_MAX, the length of the message buffer (R8). -/
def msgLen : Nat := 256

/-- SAMPLES_PER_BAUD: sample ticks per APRS line bit (R8, R253). -/
def samplesPerBaud : Nat := 22

/-- The flag byte (R8, R11). -/
def flagByte : Byte := 0x7E#8

/-- The CRC's feedback constant (R8, R121). -/
def crcPoly : BitVec 16 := 0x8408#16

/-- The CRC's initial state (R8). -/
def crcInit : BitVec 16 := 0xFFFF#16

/-- The radix of the base-91 codec (R8). -/
def b91Radix : Nat := 91

/-- The ASCII offset of a base-91 digit (R8, R140). -/
def b91Offset : Nat := 33

/-- 91², the telemetry modulus (R8). -/
def b91TlmModulus : Nat := 8281

/-- 91³, the weight of the first latitude or longitude digit (R142). -/
def b91Cube : Nat := 753571

/-- 91⁴, one above the largest latitude or longitude value (R8, R142). -/
def b91LatlonLimit : Nat := 68574961

/-- WINDOW_BASE: where the register window sits in the host's own address space. The platform decides it and no rule
of the block reads it (20_memory.md R74, D2), so it has no body. -/
opaque windowBase : Nat

end Sys2Proof.Config
end

