-- ==== Sys2Proof/Machine/State.lean ====
section
/-! DEFINITION. The block's state (10_state.md R20), its reset value (R50), and the reasons a step stops. -/

namespace Sys2Proof.Machine

/-- MODE: which encoder the scheduler runs (R25, 45_scheduler.md R250). Code 3 is never written. -/
inductive Mode where
  | idle
  | aprs
  | rtty
deriving DecidableEq, Repr

/-- AX_STATE (R36). Code 7 is never written. -/
inductive AxState where
  | init
  | startFlags
  | header
  | data
  | fcs1
  | fcs2
  | endFlags
deriving DecidableEq, Repr

/-- R_STATE (R38). Codes 5..7 are never written. -/
inductive RttyState where
  | idle
  | start
  | character
  | stop1
  | stop2
deriving DecidableEq, Repr

/-- ERR_CAUSE (60_exceptions.md R302). Codes 6..15 are never written. -/
inductive ErrCause where
  | none
  | illegalCmd
  | busy
  | latlonRange
  | rttyLen
  | rttyFinished
deriving DecidableEq, Repr

/-- The three byte buffers (R40). -/
inductive Buf where
  | hdr
  | info
  | msg
deriving DecidableEq, Repr

/-- The AX.25 frame FSM (R36). -/
structure FrameFsm where
  /-- AX_STATE -/
  state : AxState
  /-- AX_IDX -/
  idx : BitVec 8
  /-- FINISHED -/
  finished : Bool
deriving DecidableEq, Repr

/-- The bit encoder (R37). -/
structure BitEncoder where
  /-- SR, the unsent bits of the current byte, right-aligned -/
  sr : BitVec 8
  /-- BL, the bits remaining in the byte -/
  bl : BitVec 4
  /-- ONES, the consecutive-ones counter -/
  ones : BitVec 3
  /-- STUFF, the stuffing attribute of the byte in SR -/
  stuff : Bool
  /-- LEVEL, the last NRZI output level -/
  level : Bool
deriving DecidableEq, Repr

/-- The RTTY FSM (R38). -/
structure RttyFsm where
  /-- R_STATE -/
  state : RttyState
  /-- R_CIDX, the index into MSG -/
  cidx : BitVec 9
  /-- R_BIDX, the bit index within the character -/
  bidx : BitVec 3
  /-- R_IDLE, the idle-run down-counter -/
  idleLeft : BitVec 16
  /-- R_FIN, "message finished" -/
  fin : Bool
  /-- R_CH, the character being sent -/
  ch : BitVec 7
  /-- R_LEN, the latched message length -/
  len : BitVec 9
deriving DecidableEq, Repr

/-- The buffer bytes as (window offset, byte) pairs in rising order of offset, one pair for each byte the host has written
since reset. A byte that is not listed has its written bit clear (R40) and holds no value. -/
abbrev Memory := List Host.Cell

/-- The block's state (R20), and below it the two fields of the model's own. -/
structure State where
  /-- ARG (R21) -/
  arg : Word
  /-- RESULT (R22) -/
  result : Word
  /-- CRC (R29) -/
  crc : BitVec 16
  /-- FCS (R30) -/
  fcs : BitVec 16
  /-- CONFIG bits 2:0; bits 31:3 are hardwired to 0 (R31) -/
  config : BitVec 3
  /-- START_FLAGS (R32) -/
  startFlags : BitVec 8
  /-- END_FLAGS (R33) -/
  endFlags : BitVec 8
  /-- RTTY_IDLE (R34) -/
  rttyIdle : BitVec 16
  /-- RTTY_LEN (R35) -/
  rttyLen : BitVec 9
  /-- the AX.25 frame FSM (R36) -/
  ax : FrameFsm
  /-- the bit encoder (R37) -/
  enc : BitEncoder
  /-- the RTTY FSM (R38) -/
  rtty : RttyFsm
  /-- MODE (R25) -/
  mode : Mode
  /-- DIV (R39) -/
  div : BitVec 5
  /-- AUX (R39) -/
  aux : Bool
  /-- SYM (R39) -/
  sym : Bool
  /-- DONE (R26) -/
  done : Bool
  /-- ERR (R27) -/
  err : Bool
  /-- ERR_CAUSE (R27) -/
  errCause : ErrCause
  /-- FCS_STALE (R28) -/
  fcsStale : Bool
  /-- HDR, INFO and MSG with their written bits (R40) -/
  mem : Memory
  /-- MODEL: the operations the host and the platform apply next, in the total order of 00_scope.md R12. DESIGN CHOICE,
  log entry 1. -/
  inputs : List Input
  /-- MODEL: the DATA that the last BUS_READ returned (30_encoding.md R92). DESIGN CHOICE, log entry 2. -/
  readData : Word
deriving DecidableEq, Repr

/-- Why a step stops with a fault. -/
inductive Fault where
  /-- UNINIT (60_exceptions.md R312): the operation needs byte `i` of buffer `b`, which the host has not written since
  reset. Raised by the CRC commands, the frame and RTTY producers (alone or in a tick) and BUS_READ. Safe: the spec itself
  fixes no value for such a byte and defines no further step. -/
  | uninit (b : Buf) (i : Nat)
deriving DecidableEq, Repr

/-- Why a step has no meaning. -/
inductive Refusal where
  /-- an operation the model gives no meaning; no arm raises it. Safe. -/
  | notModelled (mnemonic : String)
  /-- event code 3, which "never occurs" and which "a model refuses" (30_encoding.md R93); raised by `step`. Safe. -/
  | reservedEvent
deriving DecidableEq, Repr

/-- What one operation answers. -/
abbrev Result := Host.Outcome State Fault Refusal

/-- The frame FSM after a reset (R50, 42_ax25_frame.md R170). -/
def FrameFsm.reset : FrameFsm := { state := .init, idx := 0#8, finished := false }

/-- The bit encoder after a reset to a given NRZI level (R50, R170). -/
def BitEncoder.reset (level : Bool) : BitEncoder :=
  { sr := 0#8, bl := 0#4, ones := 0#3, stuff := false, level := level }

/-- The RTTY FSM after a hardware reset: no message is loaded (R38, R50). -/
def RttyFsm.reset : RttyFsm :=
  { state := .idle, cidx := 0#9, bidx := 0#3, idleLeft := 0#16, fin := true, ch := 0#7, len := 0#9 }

/-- The machine right after a hardware reset: every value is in the table of R50, and no buffer byte is written. No
operation is pending and no read has been made (DESIGN CHOICE, log entries 1 and 2). -/
def State.reset : State where
  arg := 0#32
  result := 0#32
  crc := 0xFFFF#16
  fcs := 0x0000#16
  config := 0#3
  startFlags := 1#8
  endFlags := 2#8
  rttyIdle := 0#16
  rttyLen := 0#9
  ax := FrameFsm.reset
  enc := BitEncoder.reset false
  rtty := RttyFsm.reset
  mode := .idle
  div := 0#5
  aux := false
  sym := false
  done := false
  err := false
  errCause := .none
  fcsStale := true
  mem := []
  inputs := []
  readData := 0#32

end Sys2Proof.Machine
end

