-- ==== Sys2Proof/Machine/Ops.lean ====
section
/-! DEFINITION. The shared operations over memory and registers: buffer bytes, raising and clearing an error, the busy
rule, and taking the next operation from the host. -/

namespace Sys2Proof.Machine

/-- The byte listed at an offset; none where no byte is listed (10_state.md R40: its written bit is clear). -/
def Memory.read : Memory → Nat → Option Byte
  | [], _ => none
  | (b, w) :: m, a => if b = a then some w else Memory.read m a

/-- Store a byte, keeping the offsets in rising order. -/
def Memory.write : Memory → Nat → Byte → Memory
  | [], a, v => [(a, v)]
  | (b, w) :: m, a, v =>
    if a < b then (a, v) :: (b, w) :: m
    else if a = b then (a, v) :: m
    else (b, w) :: Memory.write m a v

/-- The number of bytes of a buffer (R40). -/
def Buf.size : Buf → Nat
  | .hdr => Config.hdrLen
  | .info => Config.infoLen
  | .msg => Config.msgLen

/-- The window offset of a buffer's byte 0 (20_memory.md R62). -/
def Buf.base : Buf → Nat
  | .hdr => 0x100
  | .info => 0x200
  | .msg => 0x400

/-- The window offset of byte i of a buffer: each byte stands alone in one 32-bit word (R62, R63). -/
def Buf.addr (b : Buf) (i : Nat) : Nat := b.base + 4 * i

/-- Whether an offset is one of a buffer's bytes (R62). -/
def Buf.covers (b : Buf) (a : Nat) : Bool :=
  decide (b.base ≤ a) && decide (a < b.base + 4 * b.size) && decide ((a - b.base) % 4 = 0)

/-- Whether an offset is a buffer byte at all. -/
def isBufAddr (a : Nat) : Bool := Buf.covers .hdr a || Buf.covers .info a || Buf.covers .msg a

/-- The offsets of a memory rise strictly. -/
def Memory.rising : Memory → Bool
  | [] => true
  | [_] => true
  | (a, _) :: (b, w) :: m => decide (a < b) && Memory.rising ((b, w) :: m)

/-- The canonical form: offsets rise strictly and each is a buffer byte. An unlisted byte reads as no value, so no listed
byte equals it. -/
def Memory.wf (m : Memory) : Bool := m.rising && m.all fun c => isBufAddr c.1

/-- Byte i of a buffer, if the host has written it since reset (R40). There is no byte at or beyond the buffer's size. -/
def State.readBuf (s : State) (b : Buf) (i : Nat) : Option Byte :=
  if i < b.size then s.mem.read (b.addr i) else none

/-- BufWrite(b, i, v): store a byte and set its written bit (00_scope.md R11, 46_host_bus.md R287). -/
def State.writeBuf (s : State) (b : Buf) (i : Nat) (v : Byte) : State :=
  { s with mem := s.mem.write (b.addr i) v }

/-- A byte an operation needs: the fault UNINIT where the host has not written it (60_exceptions.md R312). -/
def State.needByte (s : State) (b : Buf) (i : Nat) : Except Fault Byte :=
  match s.readBuf b i with
  | some v => .ok v
  | none => .error (.uninit b i)

/-- The bytes i, i+1, ..., i+n-1 of a buffer, in order. -/
def State.needBytes (s : State) (b : Buf) : Nat → Nat → Except Fault (List Byte)
  | _, 0 => .ok []
  | i, n + 1 =>
    match s.needByte b i with
    | .error f => .error f
    | .ok v =>
      match State.needBytes s b (i + 1) n with
      | .error f => .error f
      | .ok vs => .ok (v :: vs)

/-- All bytes of a buffer, byte 0 first (40_crc16.md R126, R127). -/
def State.needBuf (s : State) (b : Buf) : Except Fault (List Byte) := s.needBytes b 0 b.size

/-- CONFIG.NRZI_INIT (10_state.md R31). -/
def State.nrziInit (s : State) : Bool := s.config.getLsbD 0

/-- CONFIG.RTTY_IDLE_BIT (R31). -/
def State.rttyIdleBit (s : State) : Bool := s.config.getLsbD 1

/-- CONFIG.FCS_SWAP (R31). -/
def State.fcsSwap (s : State) : Bool := s.config.getLsbD 2

/-- The state in which an error is recorded: only ERR and ERR_CAUSE change, and the first error is kept
(60_exceptions.md R301). -/
def State.recordError (c : ErrCause) (s : State) : State :=
  { s with err := true, errCause := if s.err then s.errCause else c }

/-- `raise Error(code)`, the block's one way to report that an operation cannot be carried out (R300, R301). It ends the
operation; nothing transfers control and the next step runs normally (R309). -/
def raiseError (c : ErrCause) (s : State) : Result := .next (s.recordError c)

/-- ERR and ERR_CAUSE are cleared together (R310). There is no return from an error beside this (R311). -/
def State.clearError (s : State) : State := { s with err := false, errCause := .none }

/-- The busy rule: an operation that is not busy-allowed raises Error(BUSY) while MODE is not IDLE (R304), before anything
else it does (R301, R308). -/
def whenIdle (s : State) (act : State → Result) : Result :=
  if s.mode = .idle then act s else raiseError .busy s

/-- An operation that may need an unwritten byte: the fault, or the next state. -/
def orFault (r : Except Fault State) : Result :=
  match r with
  | .ok s => .next s
  | .error f => .fault f

/-- The next operation the host or the platform applies, and the state it is applied to (00_scope.md R12). None while no
operation is pending. -/
def State.fetch (s : State) : Option (Input × State) :=
  match s.inputs with
  | [] => none
  | input :: rest => some (input, { s with inputs := rest })

/-- The state with one operation placed first among the pending ones. -/
def State.withNext (s : State) (input : Input) : State := { s with inputs := input :: s.inputs }

end Sys2Proof.Machine
end

