-- ==== Sys2Proof/Machine/Flags.lean ====
section
/-! DEFINITION. The status flags (10_state.md R24, R46), their codes and views, the output pins (R41), and the end of a
transmission. -/

namespace Sys2Proof.Machine

/-- The 2-bit code of MODE (R25). -/
def Mode.code : Mode → BitVec 2
  | .idle => 0#2
  | .aprs => 1#2
  | .rtty => 2#2

/-- The 3-bit code of AX_STATE (R36). -/
def AxState.code : AxState → BitVec 3
  | .init => 0#3
  | .startFlags => 1#3
  | .header => 2#3
  | .data => 3#3
  | .fcs1 => 4#3
  | .fcs2 => 5#3
  | .endFlags => 6#3

/-- The 3-bit code of R_STATE (R38). -/
def RttyState.code : RttyState → BitVec 3
  | .idle => 0#3
  | .start => 1#3
  | .character => 2#3
  | .stop1 => 3#3
  | .stop2 => 4#3

/-- The 4-bit code of ERR_CAUSE (60_exceptions.md R302). -/
def ErrCause.code : ErrCause → BitVec 4
  | .none => 0#4
  | .illegalCmd => 1#4
  | .busy => 2#4
  | .latlonRange => 3#4
  | .rttyLen => 4#4
  | .rttyFinished => 5#4

/-- The output pin SYMBOL (R41). -/
def State.symbolPin (s : State) : Bool := s.sym

/-- The output pin AUX (R41). -/
def State.auxPin (s : State) : Bool := s.aux

/-- The output pin TX_ACTIVE, also STATUS bit 0 (R41, R24). -/
def State.txActive (s : State) : Bool := decide (s.mode ≠ .idle)

/-- The output pin IRQ (R41, 60_exceptions.md R313). -/
def State.irq (s : State) : Bool := s.done

/-- STATUS as a BUS_READ returns it (R24, 46_host_bus.md R290). -/
def State.statusWord (s : State) : Word :=
  0#20 ++ s.errCause.code ++ BitVec.ofBool s.err ++ BitVec.ofBool s.fcsStale ++ BitVec.ofBool s.rtty.fin ++
    BitVec.ofBool s.ax.finished ++ BitVec.ofBool s.done ++ s.mode.code ++ BitVec.ofBool s.txActive

/-- A write to STATUS: bit 3 clears DONE, bit 7 clears ERR and ERR_CAUSE, every other bit is ignored (R283). -/
def State.clearStatus (s : State) (data : Word) : State :=
  let s := if data.getLsbD 3 then { s with done := false } else s
  if data.getLsbD 7 then s.clearError else s

/-- Whether a stuffed bit is pending (43_bitstuff_nrzi.md R191). -/
def BitEncoder.stuffPending (e : BitEncoder) : Bool := e.stuff && e.ones == 5#3

/-- `aprs_end()`: the last closing flag is sent in full and no stuffed bit is pending (43_bitstuff_nrzi.md R198). -/
def State.aprsEnd (s : State) : Bool :=
  s.ax.finished && s.enc.bl == 0#4 && !s.enc.stuffPending

/-- The end of a transmission (45_scheduler.md R255). -/
def State.endTransmission (s : State) : State := { s with mode := .idle, done := true }

end Sys2Proof.Machine
end

