-- ==== Sys2Proof/Machine/Operands.lean ====
section
/-! DEFINITION. The operands of the operations: slices of ARG (30_encoding.md R94), RESULT's layouts, the FCS bytes on the
wire (40_crc16.md R129), and the locations of the register window with what each one reads (20_memory.md R62,
46_host_bus.md R290). -/

namespace Sys2Proof.Machine

/-- ARG[15:0], the operand of CRC_LOAD and B91_TLM (R94). -/
def State.arg16 (s : State) : BitVec 16 := s.arg.extractLsb' 0 16

/-- ARG[7:0], the operand of CRC_BYTE (R94). -/
def State.arg8 (s : State) : Byte := s.arg.extractLsb' 0 8

/-- RESULT of a two-character command: the first character in bits 7:0 (20_memory.md R67, 41_base91.md R143). -/
def packTwo (c0 c1 : Byte) : Word := 0#16 ++ c1 ++ c0

/-- RESULT of a four-character command (R67, 41_base91.md R144). -/
def packFour (c0 c1 c2 c3 : Byte) : Word := c3 ++ c2 ++ c1 ++ c0

/-- RESULT of AX25_NEXT_BYTE: {23'b0, st, b} (42_ax25_frame.md R171). -/
def packByte (b : Byte) (st : Bool) : Word := 0#23 ++ BitVec.ofBool st ++ b

/-- RESULT of NRZI_NEXT_BIT: {29'b0, stuffed, lb, level} (43_bitstuff_nrzi.md R199). -/
def packLineBit (level lineBit stuffed : Bool) : Word :=
  0#29 ++ BitVec.ofBool stuffed ++ BitVec.ofBool lineBit ++ BitVec.ofBool level

/-- RESULT of RTTY_NEXT_BIT: {30'b0, R_FIN, b} (44_rtty.md R230). -/
def packRttyBit (b fin : Bool) : Word := 0#30 ++ BitVec.ofBool fin ++ BitVec.ofBool b

/-- The FCS byte that goes first on the wire (R129). -/
def State.fcsFirst (s : State) : Byte := if s.fcsSwap then s.fcs.extractLsb' 8 8 else s.fcs.extractLsb' 0 8

/-- The FCS byte that goes second on the wire (R129). -/
def State.fcsSecond (s : State) : Byte := if s.fcsSwap then s.fcs.extractLsb' 0 8 else s.fcs.extractLsb' 8 8

/-- A location of the register window (20_memory.md R62). -/
inductive Location where
  | cmd
  | arg
  | result
  | status
  | crc
  | fcs
  | config
  | startFlags
  | endFlags
  | rttyIdle
  | rttyLen
  | dbgAx25
  | dbgBitenc
  | dbgRtty
  | dbgSched
  | buf (b : Buf) (i : Nat)
  | unmapped
deriving DecidableEq, Repr

/-- The registers of the map and their offsets (R62). -/
def registerMap : List (Nat × Location) :=
  [(0x000, .cmd), (0x004, .arg), (0x008, .result), (0x00C, .status), (0x010, .crc), (0x014, .fcs), (0x018, .config),
   (0x01C, .startFlags), (0x020, .endFlags), (0x024, .rttyIdle), (0x028, .rttyLen), (0x030, .dbgAx25),
   (0x034, .dbgBitenc), (0x038, .dbgRtty), (0x03C, .dbgSched)]

/-- The buffer byte at a word offset, if there is one (R62, R63). -/
def bufLocation (o : Nat) : Location :=
  if Buf.covers .hdr o then .buf .hdr ((o - Buf.base .hdr) / 4)
  else if Buf.covers .info o then .buf .info ((o - Buf.base .info) / 4)
  else if Buf.covers .msg o then .buf .msg ((o - Buf.base .msg) / 4)
  else .unmapped

/-- The word offset of an address: `addr[11:2] << 2` (R61, R280). -/
def wordOffset (addr : Addr) : Nat := 4 * (addr.extractLsb' 2 10).toNat

/-- The location an address selects (R61, R62, R64). -/
def location (addr : Addr) : Location :=
  match registerMap.lookup (wordOffset addr) with
  | some l => l
  | none => bufLocation (wordOffset addr)

/-- DBG_AX25: {15'b0, FINISHED, AX_IDX, 5'b0, AX_STATE} (R290). -/
def State.dbgAx25 (s : State) : Word :=
  0#15 ++ BitVec.ofBool s.ax.finished ++ s.ax.idx ++ 0#5 ++ s.ax.state.code

/-- DBG_BITENC: {14'b0, LEVEL, STUFF, 1'b0, ONES, BL, SR} (R290). -/
def State.dbgBitenc (s : State) : Word :=
  0#14 ++ BitVec.ofBool s.enc.level ++ BitVec.ofBool s.enc.stuff ++ 0#1 ++ s.enc.ones ++ s.enc.bl ++ s.enc.sr

/-- DBG_RTTY: {R_IDLE, R_FIN, R_CIDX, R_BIDX, R_STATE} (R290). -/
def State.dbgRtty (s : State) : Word :=
  s.rtty.idleLeft ++ BitVec.ofBool s.rtty.fin ++ s.rtty.cidx ++ s.rtty.bidx ++ s.rtty.state.code

/-- DBG_SCHED: {14'b0, SYM, AUX, 3'b0, DIV, 6'b0, MODE} (R290). -/
def State.dbgSched (s : State) : Word :=
  0#14 ++ BitVec.ofBool s.sym ++ BitVec.ofBool s.aux ++ 0#3 ++ s.div ++ 0#6 ++ s.mode.code

/-- The value a BUS_READ of a location returns (R289-R291); only an unwritten buffer byte has none (R312). -/
def State.readLocation (s : State) : Location → Except Fault Word
  | .cmd => .ok 0#32
  | .arg => .ok s.arg
  | .result => .ok s.result
  | .status => .ok s.statusWord
  | .crc => .ok (s.crc.setWidth 32)
  | .fcs => .ok (s.fcs.setWidth 32)
  | .config => .ok (s.config.setWidth 32)
  | .startFlags => .ok (s.startFlags.setWidth 32)
  | .endFlags => .ok (s.endFlags.setWidth 32)
  | .rttyIdle => .ok (s.rttyIdle.setWidth 32)
  | .rttyLen => .ok (s.rttyLen.setWidth 32)
  | .dbgAx25 => .ok s.dbgAx25
  | .dbgBitenc => .ok s.dbgBitenc
  | .dbgRtty => .ok s.dbgRtty
  | .dbgSched => .ok s.dbgSched
  | .buf b i => (s.needByte b i).map (·.setWidth 32)
  | .unmapped => .ok 0#32

end Sys2Proof.Machine
end

