-- ==== Sys2Proof/Machine/Base91.lean ====
section
/-! DEFINITION. The base-91 integer codec and its commands (41_base91.md). -/

namespace Sys2Proof.Machine

/-- The byte of a base-91 digit (R140). -/
def b91Char (d : Nat) : Byte := BitVec.ofNat 8 (Config.b91Offset + d)

/-- `encode_tlm`, most significant digit first (R141). -/
def encodeTlm (v : BitVec 16) : Byte × Byte :=
  let w := v.toNat % Config.b91TlmModulus
  (b91Char (w / Config.b91Radix), b91Char (w % Config.b91Radix))

/-- `encode_latlon` of a value below 91⁴, most significant digit first (R142). -/
def encodeLatlon (v : Nat) : Byte × Byte × Byte × Byte :=
  (b91Char (v / Config.b91Cube), b91Char (v / Config.b91TlmModulus % Config.b91Radix),
    b91Char (v / Config.b91Radix % Config.b91Radix), b91Char (v % Config.b91Radix))

/-- B91_TLM (R143). -/
def execB91Tlm (s : State) : Result :=
  let c := encodeTlm s.arg16
  .next { s with result := packTwo c.1 c.2 }

/-- B91_LATLON; a value of 91⁴ or more raises Error(LATLON_RANGE) (R144, 60_exceptions.md R305). -/
def execB91Latlon (s : State) : Result :=
  if Config.b91LatlonLimit ≤ s.arg.toNat then raiseError .latlonRange s
  else
    let c := encodeLatlon s.arg.toNat
    .next { s with result := packFour c.1 c.2.1 c.2.2.1 c.2.2.2 }

end Sys2Proof.Machine
end

