-- ==== Sys2Proof/Machine/Crc.lean ====
section
/-! DEFINITION. The CRC-16 engine and its commands (40_crc16.md). -/

namespace Sys2Proof.Machine

/-- One step of the CRC: one data bit (R121). -/
def crcBit (s : BitVec 16) (b : Bool) : BitVec 16 :=
  if s.getLsbD 0 != b then (s >>> 1) ^^^ Config.crcPoly else s >>> 1

/-- One data byte, least significant bit first (R122). -/
def crcByte (s : BitVec 16) (x : Byte) : BitVec 16 :=
  [0, 1, 2, 3, 4, 5, 6, 7].foldl (fun c i => crcBit c (x.getLsbD i)) s

/-- A sequence of bytes, in order (R123). -/
def crcFold (s : BitVec 16) (xs : List Byte) : BitVec 16 := xs.foldl crcByte s

/-- CRC_LOAD (R124). -/
def execCrcLoad (s : State) : Result := .next { s with crc := s.arg16 }

/-- CRC_BYTE (R125). -/
def execCrcByte (s : State) : Result := .next { s with crc := crcByte s.crc s.arg8 }

/-- The running CRC carried over all bytes of a buffer (R126, R127). -/
def crcOverBuf (b : Buf) (s : State) : Result :=
  orFault ((s.needBuf b).map fun xs => { s with crc := crcFold s.crc xs })

/-- CRC_HDR (R126). -/
def execCrcHdr (s : State) : Result := crcOverBuf .hdr s

/-- CRC_INFO (R127). -/
def execCrcInfo (s : State) : Result := crcOverBuf .info s

/-- The frame check sequence recomputed from scratch (R128). -/
def computeFcs (s : State) : Result :=
  match s.needBuf .hdr with
  | .error f => .fault f
  | .ok hs =>
    match s.needBuf .info with
    | .error f => .fault f
    | .ok is =>
      let c := crcFold (crcFold Config.crcInit hs) is
      .next { s with crc := c, fcs := ~~~c, fcsStale := false }

/-- FCS_COMPUTE, not busy-allowed (R128). -/
def execFcsCompute (s : State) : Result := whenIdle s computeFcs

end Sys2Proof.Machine
end

