-- ==== Sys2Proof/Machine/Ax25.lean ====
section
/-! DEFINITION. The AX.25 frame encoder FSM and its commands (42_ax25_frame.md). -/

namespace Sys2Proof.Machine

/-- What one call of the byte producer emits: a byte and its stuffing attribute (R160, R161). -/
structure ByteOut where
  byte : Byte
  st : Bool
deriving DecidableEq, Repr

/-- Init falls through to StartFlags in the same call (R162). -/
def FrameFsm.enter (f : FrameFsm) : FrameFsm :=
  match f.state with
  | .init => { f with state := .startFlags, idx := 0#8 }
  | .startFlags | .header | .data | .fcs1 | .fcs2 | .endFlags => f

/-- AX_IDX counts one emitted byte or flag; when it reaches `limit` the FSM moves on and AX_IDX restarts (R163-R165). -/
def FrameFsm.count (f : FrameFsm) (limit : BitVec 8) (next : AxState) : FrameFsm :=
  if f.idx + 1#8 = limit then { f with state := next, idx := 0#8 } else { f with idx := f.idx + 1#8 }

/-- EndFlags counts closing flags until FINISHED is set, and then holds (R168, R169). -/
def FrameFsm.countEnd (f : FrameFsm) (limit : BitVec 8) : FrameFsm :=
  if f.finished then f else { f with idx := f.idx + 1#8, finished := decide (f.idx + 1#8 = limit) }

/-- A buffer byte of the frame, with stuffing on (R164, R165). -/
def emitBufByte (s : State) (b : Buf) (f : FrameFsm) : Except Fault (ByteOut × State) :=
  (s.needByte b s.ax.idx.toNat).map fun v => (⟨v, true⟩, { s with ax := f })

/-- The arm of the current state (R163-R168). After `FrameFsm.enter` the state is never Init. -/
def emitByte (s : State) : Except Fault (ByteOut × State) :=
  match s.ax.state with
  | .init | .startFlags => .ok (⟨Config.flagByte, false⟩, { s with ax := s.ax.count s.startFlags .header })
  | .header => emitBufByte s .hdr (s.ax.count (BitVec.ofNat 8 Config.hdrLen) .data)
  | .data => emitBufByte s .info (s.ax.count (BitVec.ofNat 8 Config.infoLen) .fcs1)
  | .fcs1 => .ok (⟨s.fcsFirst, true⟩, { s with ax := { s.ax with state := .fcs2 } })
  | .fcs2 => .ok (⟨s.fcsSecond, true⟩, { s with ax := { s.ax with state := .endFlags, idx := 0#8 } })
  | .endFlags => .ok (⟨Config.flagByte, false⟩, { s with ax := s.ax.countEnd s.endFlags })

/-- `next_byte()`: one frame byte (R160). -/
def nextByte (s : State) : Except Fault (ByteOut × State) := emitByte { s with ax := s.ax.enter }

/-- Re-entry into Init with the bit encoder re-initialised (R170); AX25_RESET and TX_START_APRS share it. -/
def State.restartFrame (s : State) : State :=
  { s with ax := FrameFsm.reset, enc := BitEncoder.reset s.nrziInit }

/-- AX25_RESET, not busy-allowed (R170). -/
def execAx25Reset (s : State) : Result := whenIdle s fun s => .next s.restartFrame

/-- AX25_NEXT_BYTE, not busy-allowed (R171). -/
def execAx25NextByte (s : State) : Result :=
  whenIdle s fun s => orFault ((nextByte s).map fun p => { p.2 with result := packByte p.1.byte p.1.st })

end Sys2Proof.Machine
end

