-- ==== Sys2Proof/Machine/BitEnc.lean ====
section
/-! DEFINITION. The HDLC bit-stuffing and NRZI pipeline and its command (43_bitstuff_nrzi.md). -/

namespace Sys2Proof.Machine

/-- What one call of the bit producer gives: the new level, the line bit, and whether it is a stuffed one (R197, R199). -/
structure BitOut where
  level : Bool
  lineBit : Bool
  stuffed : Bool
deriving DecidableEq, Repr

/-- NRZI: a line bit of 0 inverts the level, a line bit of 1 keeps it (R196). -/
def nrzi (lineBit level : Bool) : Bool := if lineBit then level else !level

/-- The ones counter after a source bit, saturating at 7 (R194). -/
def onesAfter (lineBit : Bool) (ones : BitVec 3) : BitVec 3 :=
  if lineBit then (if ones = 7#3 then 7#3 else ones + 1#3) else 0#3

/-- The encoder after a stuffed bit: a 0 that takes no source bit (R195, R196). -/
def BitEncoder.insertStuffed (e : BitEncoder) : BitEncoder :=
  { e with ones := 0#3, level := nrzi false e.level }

/-- The encoder after the source bit SR[0] is sent (R193, R194, R196). -/
def BitEncoder.sendBit (e : BitEncoder) : BitEncoder :=
  let lb := e.sr.getLsbD 0
  { e with sr := e.sr >>> 1, bl := e.bl - 1#4, ones := onesAfter lb e.ones, level := nrzi lb e.level }

/-- The encoder with a byte loaded (R192). -/
def BitEncoder.load (e : BitEncoder) (b : ByteOut) : BitEncoder :=
  { e with sr := b.byte, stuff := b.st, bl := 8#4 }

/-- The byte load: when no bit of the current byte is left, the next byte is pulled from the frame FSM (R192). -/
def loadIfEmpty (s : State) : Except Fault State :=
  if s.enc.bl = 0#4 then (nextByte s).map fun p => { p.2 with enc := p.2.enc.load p.1 } else .ok s

/-- `next_bit()`: one line bit (R190). -/
def nextBit (s : State) : Except Fault (BitOut × State) :=
  if s.enc.stuffPending then
    let e := s.enc.insertStuffed
    .ok (⟨e.level, false, true⟩, { s with enc := e })
  else
    (loadIfEmpty s).map fun s =>
      let e := s.enc.sendBit
      (⟨e.level, s.enc.sr.getLsbD 0, false⟩, { s with enc := e })

/-- NRZI_NEXT_BIT, not busy-allowed (R199). -/
def execNrziNextBit (s : State) : Result :=
  whenIdle s fun s =>
    orFault ((nextBit s).map fun p => { p.2 with result := packLineBit p.1.level p.1.lineBit p.1.stuffed })

end Sys2Proof.Machine
end

