-- ==== Sys2Proof/Machine/Rtty.lean ====
section
/-! DEFINITION. The RTTY async character encoder FSM and its commands (44_rtty.md). -/

namespace Sys2Proof.Machine

/-- Whether RTTY_LEN is a legal message length, 1..256 (R222). -/
def State.rttyLenOk (s : State) : Bool := decide (0 < s.rttyLen.toNat) && decide (s.rttyLen.toNat ≤ Config.msgLen)

/-- The RTTY FSM at the start of a message (R222). -/
def State.startMessage (s : State) : State :=
  { s with rtty := { state := .idle, cidx := 0#9, bidx := 0#3, idleLeft := s.rttyIdle, fin := false, ch := 0#7,
                     len := s.rttyLen } }

/-- `rtty_init()`, then what the command does beside it; an illegal length raises Error(RTTY_LEN) and ends the command
(R222, 60_exceptions.md R306). -/
def rttyInitThen (act : State → State) (s : State) : Result :=
  if s.rttyLenOk then .next (act s.startMessage) else raiseError .rttyLen s

/-- RTTY_INIT, not busy-allowed (R223). -/
def execRttyInit (s : State) : Result := whenIdle s (rttyInitThen id)

/-- Start: the start bit 0, and the 7-bit character is loaded from MSG (R225). -/
def rttyStart (s : State) : Except Fault (Bool × State) :=
  (s.needByte .msg s.rtty.cidx.toNat).map fun v =>
    (false, { s with rtty := { s.rtty with ch := v.extractLsb' 0 7, bidx := 0#3, state := .character } })

/-- Idle: one idle bit, or the fall through to Start when no idle bit is left (R224). -/
def rttyIdle (s : State) : Except Fault (Bool × State) :=
  if s.rtty.idleLeft = 0#16 then rttyStart { s with rtty := { s.rtty with state := .start } }
  else
    let left := s.rtty.idleLeft - 1#16
    .ok (s.rttyIdleBit,
      { s with rtty := { s.rtty with idleLeft := left, state := if left = 0#16 then .start else .idle } })

/-- Character: the seven data bits, least significant first (R226). -/
def RttyFsm.afterDataBit (r : RttyFsm) : RttyFsm :=
  if r.bidx = 6#3 then { r with bidx := 0#3, state := .stop1 } else { r with bidx := r.bidx + 1#3 }

/-- Stop2: the next character, or the end of the message (R228). -/
def RttyFsm.afterStop2 (r : RttyFsm) : RttyFsm :=
  if r.cidx + 1#9 < r.len then { r with cidx := r.cidx + 1#9, state := .start }
  else { r with cidx := r.cidx + 1#9, state := .idle, fin := true }

/-- `rtty_next_bit()`: one line bit (R220, R224-R228). -/
def rttyNextBit (s : State) : Except Fault (Bool × State) :=
  match s.rtty.state with
  | .idle => rttyIdle s
  | .start => rttyStart s
  | .character => .ok (s.rtty.ch.getLsbD s.rtty.bidx.toNat, { s with rtty := s.rtty.afterDataBit })
  | .stop1 => .ok (true, { s with rtty := { s.rtty with state := .stop2 } })
  | .stop2 => .ok (true, { s with rtty := s.rtty.afterStop2 })

/-- RTTY_NEXT_BIT, not busy-allowed; after the message is finished, or before one is initialised, it raises
Error(RTTY_FINISHED) (R230, 60_exceptions.md R307). -/
def execRttyNextBit (s : State) : Result :=
  whenIdle s fun s =>
    if s.rtty.fin then raiseError .rttyFinished s
    else orFault ((rttyNextBit s).map fun p => { p.2 with result := packRttyBit p.1 p.2.rtty.fin })

end Sys2Proof.Machine
end

