-- ==== Sys2Proof/Machine/Scheduler.lean ====
section
/-! DEFINITION. Baud-rate generation and the symbol scheduler (45_scheduler.md). -/

namespace Sys2Proof.Machine

/-- TX_START_APRS, not busy-allowed (R251). -/
def execTxStartAprs (s : State) : Result :=
  whenIdle s fun s =>
    .next { s.restartFrame with div := 0#5, aux := false, sym := s.nrziInit, done := false, mode := .aprs }

/-- TX_START_RTTY, not busy-allowed (R252). -/
def execTxStartRtty (s : State) : Result :=
  whenIdle s (rttyInitThen fun s => { s with sym := s.rttyIdleBit, done := false, mode := .rtty })

/-- The APRS baud event: one line bit goes to SYM, and the transmission ends when the pipeline is empty (R254, R258). -/
def aprsBaudEvent (s : State) : Result :=
  orFault ((nextBit s).map fun p =>
    let t := { p.2 with sym := p.1.level }
    if t.aprsEnd then t.endTransmission else t)

/-- TICK_SAMPLE: AUX toggles, and every 22nd tick is a baud event; ignored outside APRS (R253, R257). -/
def execTickSample (s : State) : Result :=
  if s.mode = .aprs then
    if s.div + 1#5 = BitVec.ofNat 5 Config.samplesPerBaud then aprsBaudEvent { s with aux := !s.aux, div := 0#5 }
    else .next { s with aux := !s.aux, div := s.div + 1#5 }
  else .next s

/-- TICK_BAUD: one RTTY bit goes to SYM, and the transmission ends with the message; ignored outside RTTY (R256, R257,
R259). -/
def execTickBaud (s : State) : Result :=
  if s.mode = .rtty then
    orFault ((rttyNextBit s).map fun p =>
      let t := { p.2 with sym := p.1 }
      if t.rtty.fin then t.endTransmission else t)
  else .next s

end Sys2Proof.Machine
end

