-- ==== Sys2Proof/Machine/Bus.lean ====
section
/-! DEFINITION. The host bus operations (46_host_bus.md) and command dispatch (30_encoding.md R96). -/

namespace Sys2Proof.Machine

/-- Command dispatch: a write to CMD runs the rule of its OP, or raises Error(ILLEGAL_CMD) for an OP that is no command
(R96, R97, R281). Each command checks the busy rule itself, after the OP is known to be listed (60_exceptions.md R308). -/
def dispatchCommand (data : Word) (s : State) : Result :=
  match commandOfCode (opField data) with
  | some .crcLoad => execCrcLoad s
  | some .crcByte => execCrcByte s
  | some .crcHdr => execCrcHdr s
  | some .crcInfo => execCrcInfo s
  | some .fcsCompute => execFcsCompute s
  | some .b91Tlm => execB91Tlm s
  | some .b91Latlon => execB91Latlon s
  | some .ax25Reset => execAx25Reset s
  | some .ax25NextByte => execAx25NextByte s
  | some .nrziNextBit => execNrziNextBit s
  | some .rttyInit => execRttyInit s
  | some .rttyNextBit => execRttyNextBit s
  | some .txStartAprs => execTxStartAprs s
  | some .txStartRtty => execTxStartRtty s
  | some (.busWrite _ _) | some (.busRead _) | some .tickSample | some .tickBaud | some .hwReset | none =>
    raiseError .illegalCmd s

/-- Write-any-read-legal: a flag count of 0 is stored as 1 (R285). -/
def legalFlags (data : Word) : BitVec 8 := if data.extractLsb' 0 8 = 0#8 then 1#8 else data.extractLsb' 0 8

/-- A write to a buffer byte: a HDR or INFO byte also makes the FCS stale (R287). -/
def State.hostWriteBuf (s : State) (b : Buf) (i : Nat) (v : Byte) : State :=
  { s.writeBuf b i v with fcsStale := if b = .msg then s.fcsStale else true }

/-- BUS_WRITE(addr, data) (R280-R288). -/
def execBusWrite (addr : Addr) (data : Word) (s : State) : Result :=
  match location addr with
  | .cmd => dispatchCommand data s
  | .arg => .next { s with arg := data }
  | .status => .next (s.clearStatus data)
  | .config => whenIdle s fun s => .next { s with config := data.extractLsb' 0 3 }
  | .startFlags => whenIdle s fun s => .next { s with startFlags := legalFlags data }
  | .endFlags => whenIdle s fun s => .next { s with endFlags := legalFlags data }
  | .rttyIdle => whenIdle s fun s => .next { s with rttyIdle := data.extractLsb' 0 16 }
  | .rttyLen => whenIdle s fun s => .next { s with rttyLen := data.extractLsb' 0 9 }
  | .buf b i => whenIdle s fun s => .next (s.hostWriteBuf b i (data.extractLsb' 0 8))
  | .result | .crc | .fcs | .dbgAx25 | .dbgBitenc | .dbgRtty | .dbgSched | .unmapped => .next s

/-- BUS_READ(addr): the value goes to the read data and the block's state is unchanged (R289-R291, 20_memory.md R72). -/
def execBusRead (addr : Addr) (s : State) : Result :=
  orFault ((s.readLocation (location addr)).map fun v => { s with readData := v })

end Sys2Proof.Machine
end

