-- ==== Sys2Proof/Machine/Reset.lean ====
section
/-! DEFINITION. The hardware reset (70_reset_and_hazards.md). -/

namespace Sys2Proof.Machine

/-- The block at its reset values (10_state.md R50). The operations still to come and the last read data belong to the
host, not to the block, so a reset leaves them (DEDUCED, log entry 9). -/
def State.hardReset (s : State) : State := { State.reset with inputs := s.inputs, readData := s.readData }

/-- HW_RESET, in every mode (R330, R331). -/
def execHwReset (s : State) : Result := .next s.hardReset

end Sys2Proof.Machine
end

