-- ==== Sys2Proof/Machine/Dispatch.lean ====
section
/-! DEFINITION. One arm per operation. -/

namespace Sys2Proof.Machine

def exec (i : Instr) (s : State) : Host.Outcome State Fault Refusal :=
  match i with
  | .crcLoad => Sys2Proof.Machine.execCrcLoad s
  | .crcByte => Sys2Proof.Machine.execCrcByte s
  | .crcHdr => Sys2Proof.Machine.execCrcHdr s
  | .crcInfo => Sys2Proof.Machine.execCrcInfo s
  | .fcsCompute => Sys2Proof.Machine.execFcsCompute s
  | .b91Tlm => Sys2Proof.Machine.execB91Tlm s
  | .b91Latlon => Sys2Proof.Machine.execB91Latlon s
  | .ax25Reset => Sys2Proof.Machine.execAx25Reset s
  | .ax25NextByte => Sys2Proof.Machine.execAx25NextByte s
  | .nrziNextBit => Sys2Proof.Machine.execNrziNextBit s
  | .rttyInit => Sys2Proof.Machine.execRttyInit s
  | .rttyNextBit => Sys2Proof.Machine.execRttyNextBit s
  | .txStartAprs => Sys2Proof.Machine.execTxStartAprs s
  | .txStartRtty => Sys2Proof.Machine.execTxStartRtty s
  | .busWrite addr data => Sys2Proof.Machine.execBusWrite addr data s
  | .busRead addr => Sys2Proof.Machine.execBusRead addr s
  | .tickSample => Sys2Proof.Machine.execTickSample s
  | .tickBaud => Sys2Proof.Machine.execTickBaud s
  | .hwReset => Sys2Proof.Machine.execHwReset s

end Sys2Proof.Machine
end

