-- ==== Sys2Proof/Machine/Step.lean ====
section
/-! DEFINITION. One step of the machine (00_scope.md R12). -/

namespace Sys2Proof.Machine

/-- One step: the next pending operation is decoded and carried out. While none is pending the block holds its state
(60_exceptions.md R320). The reserved event code is refused (30_encoding.md R93). -/
def step (s : State) : Host.Outcome State Fault Refusal :=
  match s.fetch with
  | none => .next s
  | some (input, t) =>
    match decode input with
    | .ok i => exec i t
    | .error .reservedEvent => .refused .reservedEvent

/-- The state with the operation of a table word placed first among the pending ones, so that the very next step carries it
out, from State.reset as from any state: nothing runs before it (log entry 1). A word that is no operation's encoding stands as the reserved event code, which `step` refuses. -/
def State.withFetchWord (s : State) (nbits w : Nat) : State :=
  s.withNext ((Input.ofTableWord nbits w).getD (.event 3#2))

end Sys2Proof.Machine
end

