-- ==== Sys2Proof/Machine/HostSyntax.lean ====
section
/-! DEFINITION. The host's sequences of operations (30_encoding.md R100-R102): what each form and each pseudo-operation
stands for. The text form (comments, number spelling) is no part of the machine (log entry 12). -/

namespace Sys2Proof.Machine

/-- The address of a location (R100, 20_memory.md R62); none where the map has no such location. -/
def Location.address : Location → Option Addr
  | .buf b i => if i < b.size then some (BitVec.ofNat 12 (b.addr i)) else none
  | .unmapped => none
  | l => (registerMap.find? fun r => r.2 == l).map fun r => BitVec.ofNat 12 r.1

/-- `<loc>`: a named location or a numeric address (R100). -/
inductive HostLoc where
  | named (l : Location)
  | at (addr : Addr)
deriving DecidableEq, Repr

/-- The address a `<loc>` stands for (R100). -/
def HostLoc.address : HostLoc → Option Addr
  | .named l => l.address
  | .at addr => some addr

/-- The forms of R100 and the pseudo-operations of R101. A command is named by its operation. -/
inductive HostOp where
  | wr (loc : HostLoc) (value : Word)
  | rd (loc : HostLoc)
  | tickSample
  | tickBaud
  | hwReset
  | cmd (command : Instr)
  | cmdArg (command : Instr) (value : Word)
  | loadHdr (bytes : List Byte)
  | loadInfo (bytes : List Byte)
  | loadMsg (bytes : List Byte)
  | ticksSample (n : Nat)
  | ticksBaud (n : Nat)
  | clrStatus
deriving DecidableEq, Repr

/-- The OP code of a command; none for an operation that is no command (R95). -/
def codeOfCommand (i : Instr) : Option Byte := (commandTable.find? fun r => r.2 == i).map Prod.fst

/-- `WR CMD, <OP of mnemonic>` (R101, R102). -/
def cmdWrite (i : Instr) : Option Instr := (codeOfCommand i).map fun op => .busWrite 0x000#12 (op.setWidth 32)

/-- One write per byte, byte 0 first (R101). -/
def bufWrites (b : Buf) (bytes : List Byte) : List Instr :=
  bytes.zipIdx.map fun p => .busWrite (BitVec.ofNat 12 (b.addr p.2)) (p.1.setWidth 32)

/-- The operations a form or pseudo-operation expands to, in order (R100, R101); none where its side condition fails: an
unnamed location, a mnemonic that is no command, or a wrong number of bytes. -/
def HostOp.expand : HostOp → Option (List Instr)
  | .wr loc v => loc.address.map fun a => [.busWrite a v]
  | .rd loc => loc.address.map fun a => [.busRead a]
  | .tickSample => some [.tickSample]
  | .tickBaud => some [.tickBaud]
  | .hwReset => some [.hwReset]
  | .cmd c => (cmdWrite c).map fun w => [w]
  | .cmdArg c v => (cmdWrite c).map fun w => [.busWrite 0x004#12 v, w]
  | .loadHdr bs => if bs.length = Config.hdrLen then some (bufWrites .hdr bs) else none
  | .loadInfo bs => if bs.length = Config.infoLen then some (bufWrites .info bs) else none
  | .loadMsg bs =>
    if 0 < bs.length ∧ bs.length ≤ Config.msgLen then
      some (bufWrites .msg bs ++ [.busWrite 0x028#12 (BitVec.ofNat 32 bs.length)])
    else none
  | .ticksSample n => some (List.replicate n .tickSample)
  | .ticksBaud n => some (List.replicate n .tickBaud)
  | .clrStatus => some [.busWrite 0x00C#12 0x88#32]

/-- A host program's operations, in order; none where one of its lines has none. -/
def expandAll : List HostOp → Option (List Instr)
  | [] => some []
  | p :: ps =>
    match p.expand, expandAll ps with
    | some is, some js => some (is ++ js)
    | _, _ => none

/-- The inputs of a host program (R92, R93). -/
def assemble (ps : List HostOp) : Option (List Input) := (expandAll ps).map fun is => is.map encode

/-- A line of a listing: the BUS encoding of an operation (R102). -/
inductive Listing where
  /-- `W addr data` -/
  | write (addr : Addr) (data : Word)
  /-- `R addr` -/
  | read (addr : Addr)
  /-- an input event, which has no BUS encoding -/
  | event (code : BitVec 2)
deriving DecidableEq, Repr

/-- The listing of an input (R92, R102). -/
def listing : Input → Listing
  | .bus word =>
    if word.getLsbD 44 then .write (word.extractLsb' 32 12) (word.extractLsb' 0 32) else .read (word.extractLsb' 32 12)
  | .event code => .event code

end Sys2Proof.Machine
end

