-- ==== Sys2Proof/Safety.lean ====
section
/-! DEFINITION. The terms the claims use: the invariant of a run, sequences of operations, and the reference streams that
the spec's laws name (42_ax25_frame.md R172, 43_bitstuff_nrzi.md R200-R202, 44_rtty.md R231). -/

namespace Sys2Proof.Machine

/-- The frame FSM: AX_IDX is an index of the buffer it walks, and FINISHED is set in EndFlags only (R36, R163-R168). -/
def FrameFsm.ok (f : FrameFsm) : Bool :=
  match f.state with
  | .init | .fcs1 | .fcs2 => f.idx == 0#8 && !f.finished
  | .startFlags => !f.finished
  | .header => decide (f.idx.toNat < Config.hdrLen) && !f.finished
  | .data => decide (f.idx.toNat < Config.infoLen) && !f.finished
  | .endFlags => true

/-- The bit encoder between steps: at most seven bits are unsent and they are right-aligned (R37). A byte with the stuffing
attribute has ONES at most 5; any other byte is a flag, whose bits fix ONES (43_bitstuff_nrzi.md R203). -/
def BitEncoder.ok (e : BitEncoder) : Bool :=
  decide (e.bl.toNat ≤ 7) &&
    if e.stuff then decide (e.ones.toNat ≤ 5) && decide (e.sr.toNat < 2 ^ e.bl.toNat)
    else e.sr == Config.flagByte >>> (8 - e.bl.toNat) &&
      decide (e.ones.toNat = if e.bl.toNat = 0 then 0 else 7 - e.bl.toNat)

/-- The RTTY FSM: a finished message rests in Idle with every character counted; a running one has a legal length and a
character still to finish (R38, 44_rtty.md R225, R226, R228, R306). -/
def RttyFsm.ok (r : RttyFsm) : Bool :=
  if r.fin then decide (r.state = .idle) && r.cidx == r.len && decide (r.len.toNat ≤ Config.msgLen)
    && r.idleLeft == 0#16 && r.bidx == 0#3
  else decide (0 < r.len.toNat) && decide (r.len.toNat ≤ Config.msgLen) && decide (r.cidx.toNat < r.len.toNat) &&
    match r.state with
    | .idle => r.cidx == 0#9 && r.bidx == 0#3
    | .start | .stop1 | .stop2 => r.idleLeft == 0#16 && r.bidx == 0#3
    | .character => r.idleLeft == 0#16 && decide (r.bidx.toNat ≤ 6)

/-- The scheduler: DIV stays in 0..21, a running transmission is not at its end and DONE is 0 (45_scheduler.md R253-R256). -/
def State.schedOk (s : State) : Bool :=
  decide (s.div.toNat < Config.samplesPerBaud) &&
    match s.mode with
    | .idle => true
    | .aprs => !s.done && !s.aprsEnd
    | .rtty => !s.done && !s.rtty.fin

/-- The legal flag counts and the error record: a cause is held exactly while ERR is 1 (R32, R33, R301, R302). -/
def State.recordOk (s : State) : Bool :=
  s.startFlags != 0#8 && s.endFlags != 0#8 && (s.err == decide (s.errCause ≠ .none))

/-- The invariant of every run: the canonical form of memory, and the four conditions above. -/
abbrev State.Inv (s : State) : Prop :=
  Memory.wf s.mem = true ∧ s.ax.ok = true ∧ s.enc.ok = true ∧ s.rtty.ok = true ∧ s.schedOk = true ∧ s.recordOk = true

/-- A sequence of operations, stopping at the first that does not answer a next state. -/
def execList : List Instr → State → Result
  | [], s => .next s
  | i :: is, s =>
    match exec i s with
    | .next t => execList is t
    | .fault f => .fault f
    | .refused r => .refused r

/-- What `n` calls of NRZI_NEXT_BIT return, in order: the line bit (RESULT bit 1) and whether it is a stuffed one (RESULT
bit 2) of each call (43_bitstuff_nrzi.md R199), up to the first call that does not answer a next state. -/
def sentBits : Nat → State → List (Bool × Bool)
  | 0, _ => []
  | n + 1, s =>
    match exec .nrziNextBit s with
    | .next t => (t.result.getLsbD 1, t.result.getLsbD 2) :: sentBits n t
    | .fault _ | .refused _ => []

/-- Buffer `b` begins with the bytes `bs`, all of them written by the host. -/
abbrev State.Holds (s : State) (b : Buf) (bs : List Byte) : Prop :=
  bs.length ≤ b.size ∧ ∀ i, i < bs.length → s.readBuf b i = bs[i]?

/-- The bits of a byte as sent, least significant first (20_memory.md R65). -/
def lsbFirst (b : Byte) : List Bool := [0, 1, 2, 3, 4, 5, 6, 7].map fun i => b.getLsbD i

/-- Bit stuffing: a 0 follows every five consecutive 1s (R200). `n` is the number of 1s just sent. -/
def stuffBits : Nat → List Bool → List Bool
  | _, [] => []
  | n, true :: bs => if n = 4 then true :: false :: stuffBits 0 bs else true :: stuffBits (n + 1) bs
  | _, false :: bs => false :: stuffBits 0 bs

/-- NRZI over a stream of line bits from a given level (R201). -/
def nrziLevels : Bool → List Bool → List Bool
  | _, [] => []
  | level, lb :: bs => (if lb then level else !level) :: nrziLevels (if lb then level else !level) bs

/-- The header, information field and FCS bytes of a frame in wire order (R172). -/
def frameBody (s : State) (hs is : List Byte) : List Byte := hs ++ is ++ [s.fcsFirst, s.fcsSecond]

/-- The frame's bytes with their stuffing attributes (R172). -/
def frameBytes (s : State) (hs is : List Byte) : List ByteOut :=
  List.replicate s.startFlags.toNat ⟨0x7E#8, false⟩ ++ (frameBody s hs is).map (⟨·, true⟩) ++
    List.replicate s.endFlags.toNat ⟨0x7E#8, false⟩

/-- The line bits of `n` flags, which are never stuffed (R200). -/
def flagBits (n : Nat) : List Bool := (List.replicate n (lsbFirst 0x7E#8)).flatten

/-- The line bits of a frame: opening flags, stuffed body, closing flags (R202). -/
def frameLine (s : State) (hs is : List Byte) : List Bool :=
  flagBits s.startFlags.toNat ++ stuffBits 0 ((frameBody s hs is).flatMap lsbFirst) ++ flagBits s.endFlags.toNat

/-- The ten line bits of an RTTY character (44_rtty.md R221). -/
def rttyCharBits (c : Byte) : List Bool :=
  false :: ([0, 1, 2, 3, 4, 5, 6].map fun i => c.getLsbD i) ++ [true, true]

/-- The line bits of an RTTY message: the idle run, then each character (R231). -/
def rttyLine (idleBit : Bool) (idle : Nat) (cs : List Byte) : List Bool :=
  List.replicate idle idleBit ++ cs.flatMap rttyCharBits

end Sys2Proof.Machine
end

