-- ==== Sys2Proof/Certificates/Slice0/Obligations.lean ====
section
/-! DEFINITION. The statements for the provers. Each says which rule of spec/ it formalises. -/

open Sys2Proof Sys2Proof.Machine

namespace Sys2Proof.Spec

/-- The state an operation leaves when it raises an error: ERR and ERR_CAUSE alone, the first error kept (R301). -/
abbrev failed (c : ErrCause) (s : State) : State :=
  { s with err := true, errCause := if s.err then s.errCause else c }

/-- An address reaches the location at offset `o`: its bits 1:0 are ignored (R61, R280). -/
abbrev Reaches (a : Addr) (o : Nat) : Prop := a.toNat / 4 * 4 = o

/-- The table of R95: OP code, command, busy-allowed. -/
def commands : List (Byte × Instr × Bool) :=
  [(0x01#8, .crcLoad, true), (0x02#8, .crcByte, true), (0x03#8, .crcHdr, true), (0x04#8, .crcInfo, true),
   (0x05#8, .fcsCompute, false), (0x10#8, .b91Tlm, true), (0x11#8, .b91Latlon, true), (0x20#8, .ax25Reset, false),
   (0x21#8, .ax25NextByte, false), (0x22#8, .nrziNextBit, false), (0x30#8, .rttyInit, false),
   (0x31#8, .rttyNextBit, false), (0x40#8, .txStartAprs, false), (0x41#8, .txStartRtty, false)]

/-- The registers of the map and their offsets (R62). -/
def registerOffsets : List (Location × Addr) :=
  [(.cmd, 0x000), (.arg, 0x004), (.result, 0x008), (.status, 0x00C), (.crc, 0x010), (.fcs, 0x014), (.config, 0x018),
   (.startFlags, 0x01C), (.endFlags, 0x020), (.rttyIdle, 0x024), (.rttyLen, 0x028), (.dbgAx25, 0x030), (.dbgBitenc, 0x034),
   (.dbgRtty, 0x038), (.dbgSched, 0x03C)]

/-- The codes of MODE (R25). -/
def modeNumber : Mode → Nat
  | .idle => 0
  | .aprs => 1
  | .rtty => 2

/-- The codes of AX_STATE, which are also the places of the states on their path (R36, R173). -/
def axNumber : AxState → Nat
  | .init => 0
  | .startFlags => 1
  | .header => 2
  | .data => 3
  | .fcs1 => 4
  | .fcs2 => 5
  | .endFlags => 6

/-- The codes of R_STATE (R38). -/
def rttyNumber : RttyState → Nat
  | .idle => 0
  | .start => 1
  | .character => 2
  | .stop1 => 3
  | .stop2 => 4

/-- The codes of ERR_CAUSE (R302). -/
def causeNumber : ErrCause → Nat
  | .none => 0
  | .illegalCmd => 1
  | .busy => 2
  | .latlonRange => 3
  | .rttyLen => 4
  | .rttyFinished => 5

/-- The addresses whose writes the busy rule refuses: CONFIG to RTTY_LEN, and the buffer bytes (R304). -/
abbrev BusyProtected (a : Addr) : Prop :=
  (0x018 ≤ a.toNat ∧ a.toNat < 0x02C) ∨ (0x100 ≤ a.toNat ∧ a.toNat < 0x15C) ∨
    (0x200 ≤ a.toNat ∧ a.toNat < 0x280) ∨ (0x400 ≤ a.toNat ∧ a.toNat < 0x800)

/-- The addresses that reach no location of the map (R64). -/
abbrev Unmapped (a : Addr) : Prop :=
  (0x02C ≤ a.toNat ∧ a.toNat < 0x030) ∨ (0x040 ≤ a.toNat ∧ a.toNat < 0x100) ∨ (0x15C ≤ a.toNat ∧ a.toNat < 0x200) ∨
    (0x280 ≤ a.toNat ∧ a.toNat < 0x400) ∨ 0x800 ≤ a.toNat

/-- The read-only registers: RESULT, CRC, FCS and the four DBG registers (R288). -/
abbrev ReadOnly (a : Addr) : Prop :=
  (0x008 ≤ a.toNat ∧ a.toNat < 0x00C) ∨ (0x010 ≤ a.toNat ∧ a.toNat < 0x018) ∨ (0x030 ≤ a.toNat ∧ a.toNat < 0x040)

/-- A CMD word with this OP, whatever its bits 31:8 hold, decodes to the command (R91, R95). -/
abbrev Encodes (op : Byte) (i : Instr) : Prop :=
  ∀ d : Word, d.extractLsb' 0 8 = op → decode (.bus (1#1 ++ 0x000#12 ++ d)) = .ok i

/-- The byte the frame FSM emits next, if it is a header or information byte, has been written (R312). -/
abbrev NextByteReadable (s : State) : Prop :=
  (s.ax.state = .header → s.readBuf .hdr s.ax.idx.toNat ≠ none) ∧
  (s.ax.state = .data → s.readBuf .info s.ax.idx.toNat ≠ none)

/-- A write of 1 to STATUS bit `k`. -/
abbrev StatusWrite (i : Instr) (k : Nat) : Prop :=
  ∃ a d, i = .busWrite a d ∧ Reaches a 0x00C ∧ d.getLsbD k = true

/-- The table of reset values (R50), with every buffer byte unwritten. -/
abbrev AtReset (t : State) : Prop :=
  t.arg = 0 ∧ t.result = 0 ∧ t.mode = .idle ∧ t.done = false ∧ t.err = false ∧ t.errCause = .none ∧ t.fcsStale = true ∧
  t.crc = 0xFFFF ∧ t.fcs = 0 ∧ t.config = 0 ∧ t.startFlags = 1 ∧ t.endFlags = 2 ∧ t.rttyIdle = 0 ∧ t.rttyLen = 0 ∧
  t.ax = ⟨.init, 0, false⟩ ∧ t.enc = ⟨0, 0, 0, false, false⟩ ∧ t.rtty = ⟨.idle, 0, 0, 0, true, 0, 0⟩ ∧
  t.div = 0 ∧ t.aux = false ∧ t.sym = false ∧ (∀ b i, t.readBuf b i = none) ∧
  t.symbolPin = false ∧ t.auxPin = false ∧ t.txActive = false ∧ t.irq = false

/-- The answer of an operation with its next state changed by `f`. -/
def mapNext (f : State → State) : Result → Result
  | .next t => .next (f t)
  | .fault x => .fault x
  | .refused x => .refused x

/-- The receiver's inverse of stuffing: the bit after five 1s is dropped. -/
def unstuffBits : Nat → List Bool → List Bool
  | _, [] => []
  | n, b :: bs => if n = 5 then unstuffBits 0 bs else b :: unstuffBits (if b then n + 1 else 0) bs

end Sys2Proof.Spec

open Sys2Proof.Spec

/-! ### Encoding and the step -/

/-- R90-R99: the word of every operation decodes to it; a BUS_WRITE that carries a listed command decodes to the command. The
form of the word is the model's (log entries 5 and 6). -/
def Obligations.EncodedOperationsDecodeBack : Prop :=
  (∀ i : Instr, i.wellFormed = true → decode (encode i) = .ok i) ∧
  ∀ (a : Addr) (d : Word), (Instr.busWrite a d).wellFormed = false →
    ∃ r ∈ commands, r.1 = d.extractLsb' 0 8 ∧ decode (encode (.busWrite a d)) = .ok r.2.1

/-- R92, R93, R99: what the decoder reads is canonical, its word is a word of that operation, and only event code 3 is
refused. -/
def Obligations.DecoderReadsCanonicalOperations : Prop :=
  (∀ w i, decode w = .ok i → i.wellFormed = true ∧ decode (encode i) = .ok i) ∧
  ∀ w, decode w = .error .reservedEvent ↔ w = .event 3#2

/-- R91, R92, R95, R99: a bus word is read by its fields. RW = 0 is a read of ADDR whatever DATA holds; RW = 1 at offset
0x000 with a listed OP is that command whatever bits 31:8 hold; any other word with RW = 1 is a BUS_WRITE. That a read's DATA
bits do not matter is deduced (log entry 5). -/
def Obligations.BusWordsDecodeByTheirFields : Prop :=
  ∀ (a : Addr) (d : Word),
    decode (.bus (0#1 ++ a ++ d)) = .ok (.busRead a) ∧
    (∀ r ∈ commands, Reaches a 0 → d.extractLsb' 0 8 = r.1 → decode (.bus (1#1 ++ a ++ d)) = .ok r.2.1) ∧
    (¬ Reaches a 0 ∨ (∀ r ∈ commands, d.extractLsb' 0 8 ≠ r.1) →
      decode (.bus (1#1 ++ a ++ d)) = .ok (.busWrite a d))

/-- R91-R93, R95: words of the opcode table written out, a few of each format, every command by its OP byte alone, and the
four event codes. How a table word stands for an operation is log entry 6. -/
def Obligations.OpcodeTableWordsDecode : Prop :=
  decodeTableWord 32 0x00000001 = some .crcLoad ∧ decodeTableWord 32 0xABCDEF05 = some .fcsCompute ∧
  decodeTableWord 32 0x00000010 = some .b91Tlm ∧ decodeTableWord 32 0x00000021 = some .ax25NextByte ∧
  decodeTableWord 32 0x00000022 = some .nrziNextBit ∧ decodeTableWord 32 0x00000031 = some .rttyNextBit ∧
  decodeTableWord 32 0x00000040 = some .txStartAprs ∧ decodeTableWord 48 0x100400000041 = some (.busWrite 0x004 0x41) ∧
  decodeTableWord 48 0x027C00000000 = some (.busRead 0x27C) ∧
  (∀ r ∈ commands, decodeTableWord 8 r.1.toNat = some r.2.1) ∧ decodeTableWord 8 0 = some .tickSample ∧
  decodeTableWord 2 1 = some .tickBaud ∧ decodeTableWord 2 2 = some .hwReset ∧ decodeTableWord 2 3 = none ∧
  decode (.event 0#2) = .ok .tickSample ∧ decode (.event 1#2) = .ok .tickBaud ∧ decode (.event 2#2) = .ok .hwReset ∧
  decode (.event 3#2) = .error .reservedEvent

/-- R12, R93, R320: a step carries out the first pending operation and no other, refuses the reserved event code, or holds
the state while none is pending; an operation placed first is the one the next step carries out. The list of pending
operations is the model's (log entry 1), and so is the form of a table word (log entry 6). -/
def Obligations.StepCarriesOutTheNextOperation : Prop :=
  (∀ s w rest i, s.inputs = w :: rest → decode w = .ok i → step s = exec i { s with inputs := rest }) ∧
  (∀ s rest, s.inputs = .event 3#2 :: rest → step s = .refused .reservedEvent) ∧
  (∀ s, s.inputs = [] → step s = .next s) ∧
  ∀ s nbits w i, decodeTableWord nbits w = some i → step (s.withFetchWord nbits w) = exec i s

/-- R100-R102: a host program assembles to the words of its expansion in order, and each word decodes to the operation it
stands for; the expansions of WR and RD of every kind of location, of the event forms, of the commands and of the
pseudo-operations. The text form is left out (log entry 12). That an unmapped location and a buffer index past the end have no
address, and that a form without an address has no expansion, is the model's choice (DESIGN CHOICE, log entry 12): the spec
gives these no expansion. -/
def Obligations.HostProgramsAssembleToTheirExpansion : Prop :=
  (∀ ps is, expandAll ps = some is →
    ∃ ws, assemble ps = some ws ∧ ws.map decode = is.map fun i => .ok i.canon) ∧
  (∀ (l : HostLoc) (a : Addr) (v : Word), l.address = some a →
    HostOp.expand (.wr l v) = some [.busWrite a v] ∧ HostOp.expand (.rd l) = some [.busRead a]) ∧
  (∀ (l : HostLoc) (v : Word), l.address = none → HostOp.expand (.wr l v) = none ∧ HostOp.expand (.rd l) = none) ∧
  (∀ r ∈ registerOffsets, HostLoc.address (.named r.1) = some r.2) ∧
  (∀ (b : Buf) (k : Nat), HostLoc.address (.named (.buf b k)) =
    if k < b.size then some (BitVec.ofNat 12 ((match b with | .hdr => 0x100 | .info => 0x200 | .msg => 0x400) + 4 * k))
    else none) ∧
  HostLoc.address (.named .unmapped) = none ∧ (∀ a : Addr, HostLoc.address (.at a) = some a) ∧
  HostOp.expand .tickSample = some [.tickSample] ∧ HostOp.expand .tickBaud = some [.tickBaud] ∧
  HostOp.expand .hwReset = some [.hwReset] ∧
  (∀ r ∈ commands, ∀ v : Word,
    HostOp.expand (.cmd r.2.1) = some [.busWrite 0x000 (0#24 ++ r.1)] ∧
    HostOp.expand (.cmdArg r.2.1 v) = some [.busWrite 0x004 v, .busWrite 0x000 (0#24 ++ r.1)]) ∧
  (∀ bs : List Byte, bs.length = 23 → ∃ is : List Instr, HostOp.expand (.loadHdr bs) = some is ∧ is.length = 23 ∧
    ∀ k v, bs[k]? = some v → is[k]? = some (Instr.busWrite (BitVec.ofNat 12 (0x100 + 4 * k)) (0#24 ++ v))) ∧
  (∀ bs : List Byte, bs.length = 32 → ∃ is : List Instr, HostOp.expand (.loadInfo bs) = some is ∧ is.length = 32 ∧
    ∀ k v, bs[k]? = some v → is[k]? = some (Instr.busWrite (BitVec.ofNat 12 (0x200 + 4 * k)) (0#24 ++ v))) ∧
  (∀ bs : List Byte, 1 ≤ bs.length → bs.length ≤ 256 → ∃ is : List Instr, HostOp.expand (.loadMsg bs) = some is ∧
    is.length = bs.length + 1 ∧ is[bs.length]? = some (Instr.busWrite 0x028 (BitVec.ofNat 32 bs.length)) ∧
    ∀ k v, bs[k]? = some v → is[k]? = some (Instr.busWrite (BitVec.ofNat 12 (0x400 + 4 * k)) (0#24 ++ v))) ∧
  (∀ n : Nat, HostOp.expand (.ticksSample n) = some (List.replicate n .tickSample) ∧
    HostOp.expand (.ticksBaud n) = some (List.replicate n .tickBaud)) ∧
  HostOp.expand .clrStatus = some [.busWrite 0x00C 0x88]

/-! ### Dispatch and errors -/

/-- R96, R281: command dispatch. A BUS_WRITE to CMD looks at data[7:0] only: a code that is not listed raises ILLEGAL_CMD, a
command that is not busy-allowed raises BUSY while MODE is not IDLE, and otherwise the write is exactly the command. -/
def Obligations.CommandWriteRunsTheCommand : Prop :=
  ∀ (a : Addr) (d : Word) (s : State), Reaches a 0 →
    ((∀ r ∈ commands, d.extractLsb' 0 8 ≠ r.1) → exec (.busWrite a d) s = .next (failed .illegalCmd s)) ∧
    ∀ r ∈ commands, d.extractLsb' 0 8 = r.1 →
      exec (.busWrite a d) s = if s.mode ≠ .idle ∧ r.2.2 = false then .next (failed .busy s) else exec r.2.1 s

/-- R97, R303: an OP outside the table raises ILLEGAL_CMD in every mode, before the busy check; there are 242 such codes. -/
def Obligations.IllegalCommandIsRecordedInEveryMode : Prop :=
  (∀ (a : Addr) (d : Word) (s : State), Reaches a 0 → (∀ r ∈ commands, d.extractLsb' 0 8 ≠ r.1) →
    exec (.busWrite a d) s = .next (failed .illegalCmd s)) ∧
  ((List.range 256).filter fun n => !(commands.map fun r => r.1.toNat).contains n).length = 242

/-- R304: while MODE is not IDLE the commands that are not busy-allowed and the writes to frame inputs raise BUSY and do
nothing else, and no other operation raises BUSY. The busy-allowed commands and the writes to ARG and STATUS do in every mode
what they do in IDLE and keep MODE, and every BUS_READ is accepted (R312 aside), its value kept in the model's field of log
entry 2. -/
def Obligations.BusyRuleRefusesExactlyTheListedOperations : Prop :=
  (∀ s : State, s.mode ≠ .idle →
    (∀ r ∈ commands, r.2.2 = false → exec r.2.1 s = .next (failed .busy s)) ∧
    ∀ (a : Addr) (d : Word), BusyProtected a → exec (.busWrite a d) s = .next (failed .busy s)) ∧
  (∀ (i : Instr) (s t : State), exec i s = .next t → s.err = false → t.err = true → t.errCause = .busy →
    s.mode ≠ .idle ∧
      ((∃ r ∈ commands, r.2.2 = false ∧ i.canon = r.2.1) ∨ ∃ a d, i = .busWrite a d ∧ BusyProtected a)) ∧
  (∀ (i : Instr) (s : State),
    ((∃ r ∈ commands, r.2.2 = true ∧ i = r.2.1) ∨ ∃ a d, i = .busWrite a d ∧ (Reaches a 0x004 ∨ Reaches a 0x00C)) →
      exec i s = mapNext (fun t => { t with mode := s.mode }) (exec i { s with mode := .idle })) ∧
  ∀ (a : Addr) (s : State), (∃ v, exec (.busRead a) s = .next { s with readData := v }) ∨
    ∃ b k, s.readBuf b k = none ∧ exec (.busRead a) s = .fault (.uninit b k)

/-- R301: an operation that raises an error changes no state except ERR and ERR_CAUSE, and while ERR is 1 a later error
changes nothing: ERR_CAUSE keeps the first code. -/
def Obligations.FailedOperationChangesOnlyTheErrorRecord : Prop :=
  (∀ (i : Instr) (s t : State), exec i s = .next t → s.err = false → t.err = true →
    t.errCause ≠ .none ∧ t = failed t.errCause s) ∧
  ∀ (i : Instr) (s t : State), exec i { s with err := false, errCause := .none } = .next t → t.err = true → s.err = true →
    exec i s = .next s

/-- R310: a STATUS write with bit 7 set and a hardware reset clear ERR and ERR_CAUSE together, and nothing else changes
them once an error is recorded. -/
def Obligations.ErrorRecordHoldsUntilCleared : Prop :=
  (∀ (i : Instr) (s : State), (StatusWrite i 7 ∨ i = .hwReset) →
    ∃ t, exec i s = .next t ∧ t.err = false ∧ t.errCause = .none) ∧
  ∀ (i : Instr) (s t : State), exec i s = .next t → s.err = true →
    (t.err = true ∧ t.errCause = s.errCause) ∨ StatusWrite i 7 ∨ i = .hwReset

/-! ### CRC -/

/-- R121, R122, R124, R125: CRC_LOAD and CRC_BYTE complete in every state, take their slices of ARG and change CRC alone;
one CRC step per data bit, least significant bit first, with feedback 0x8408. -/
def Obligations.CrcLoadAndByteUpdateCrcAlone : Prop :=
  Encodes 0x01 .crcLoad ∧ Encodes 0x02 .crcByte ∧
  (∀ s : State,
    exec .crcLoad s = .next { s with crc := s.arg.extractLsb' 0 16 } ∧
    exec .crcByte s = .next { s with crc := crcByte s.crc (s.arg.extractLsb' 0 8) }) ∧
  (∀ (s : BitVec 16) (b : Bool), crcBit s b = if s.getLsbD 0 = b then s >>> 1 else (s >>> 1) ^^^ 0x8408#16) ∧
  ∀ (s : BitVec 16) (x : Byte), crcByte s x =
    crcBit (crcBit (crcBit (crcBit (crcBit (crcBit (crcBit (crcBit s (x.getLsbD 0)) (x.getLsbD 1)) (x.getLsbD 2))
      (x.getLsbD 3)) (x.getLsbD 4)) (x.getLsbD 5)) (x.getLsbD 6)) (x.getLsbD 7)

/-- R126, R127: CRC_HDR and CRC_INFO carry the running CRC over the whole buffer in every mode and change CRC alone; with an
unwritten byte they fault. -/
def Obligations.CrcOverBuffersCompletesOrFaults : Prop :=
  Encodes 0x03 .crcHdr ∧ Encodes 0x04 .crcInfo ∧
  ∀ s : State,
    (∀ hs : List Byte, hs.length = 23 → s.Holds .hdr hs → exec .crcHdr s = .next { s with crc := hs.foldl crcByte s.crc }) ∧
    (∀ xs : List Byte, xs.length = 32 → s.Holds .info xs → exec .crcInfo s = .next { s with crc := xs.foldl crcByte s.crc }) ∧
    ((∃ k, k < 23 ∧ s.readBuf .hdr k = none) →
      ∃ k, k < 23 ∧ s.readBuf .hdr k = none ∧ exec .crcHdr s = .fault (.uninit .hdr k)) ∧
    ((∃ k, k < 32 ∧ s.readBuf .info k = none) →
      ∃ k, k < 32 ∧ s.readBuf .info k = none ∧ exec .crcInfo s = .fault (.uninit .info k))

/-- R128: FCS_COMPUTE starts from 0xFFFF whatever CRC held, stores the plain complement and clears FCS_STALE; BUSY outside
IDLE; UNINIT on an unwritten byte. It is the only writer of FCS but a reset. -/
def Obligations.FcsComputeFromScratch : Prop :=
  Encodes 0x05 .fcsCompute ∧
  (∀ (i : Instr) (s t : State), exec i s = .next t → t.fcs ≠ s.fcs → i.canon = .fcsCompute ∨ i = .hwReset) ∧
  ∀ s : State,
    (∀ hs xs : List Byte, s.mode = .idle → hs.length = 23 → xs.length = 32 → s.Holds .hdr hs → s.Holds .info xs →
      exec .fcsCompute s = .next { s with
                                          crc := xs.foldl crcByte (hs.foldl crcByte 0xFFFF#16),
                                          fcs := ~~~(xs.foldl crcByte (hs.foldl crcByte 0xFFFF#16)), fcsStale := false }) ∧
    (s.mode ≠ .idle → exec .fcsCompute s = .next (failed .busy s)) ∧
    (s.mode = .idle → ((∃ k, k < 23 ∧ s.readBuf .hdr k = none) ∨ ∃ k, k < 32 ∧ s.readBuf .info k = none) →
      ∃ b k, k < b.size ∧ s.readBuf b k = none ∧ exec .fcsCompute s = .fault (.uninit b k))

/-- R130 (marked derived in the spec): CRC_HDR then CRC_INFO give one CRC over the 55 bytes, and folding is compatible with concatenation. -/
def Obligations.CrcChainsHeaderThenInfo : Prop :=
  (∀ (c : BitVec 16) (xs ys : List Byte), crcFold (crcFold c xs) ys = crcFold c (xs ++ ys)) ∧
  ∀ (s : State) (hs xs : List Byte), hs.length = 23 → xs.length = 32 → s.Holds .hdr hs → s.Holds .info xs →
    execList [.crcHdr, .crcInfo] s = .next { s with crc := crcFold s.crc (hs ++ xs) }

/-- R131 (marked derived in the spec): after FCS_COMPUTE with FCS_SWAP = 0, a receiver that folds the header, the field and the two FCS bytes in wire
order from 0xFFFF finds the residue 0xF0B8. -/
def Obligations.ReceiverFindsConstantResidue : Prop :=
  ∀ (s t : State) (hs xs : List Byte), s.mode = .idle → hs.length = 23 → xs.length = 32 → s.Holds .hdr hs →
    s.Holds .info xs → s.config.getLsbD 2 = false → exec .fcsCompute s = .next t →
    crcFold 0xFFFF#16 (hs ++ xs ++ [t.fcsFirst, t.fcsSecond]) = 0xF0B8#16

/-! ### Base-91 -/

/-- R143, and R145, which the spec marks as derived: B91_TLM completes in every state and changes RESULT alone: two bytes in 33..123, the first character in bits
7:0, that decode to ARG[15:0] % 8281. -/
def Obligations.TelemetryFieldDecodesToItsValue : Prop :=
  Encodes 0x10 .b91Tlm ∧
  ∀ s : State, ∃ c0 c1 : Byte, exec .b91Tlm s = .next { s with result := 0#16 ++ c1 ++ c0 } ∧
    33 ≤ c0.toNat ∧ c0.toNat ≤ 123 ∧ 33 ≤ c1.toNat ∧ c1.toNat ≤ 123 ∧
    (c0.toNat - 33) * 91 + (c1.toNat - 33) = s.arg.toNat % 65536 % 8281

/-- R144, and R146, which the spec marks as derived: B91_LATLON of a value below 91⁴ changes RESULT alone: four bytes in 33..123 that decode to the value, the
first character in bits 7:0; a value of 91⁴ or more raises LATLON_RANGE. -/
def Obligations.LatlonFieldDecodesToItsValue : Prop :=
  Encodes 0x11 .b91Latlon ∧
  (∀ s : State, 68574961 ≤ s.arg.toNat → exec .b91Latlon s = .next (failed .latlonRange s)) ∧
  ∀ s : State, s.arg.toNat < 68574961 →
    ∃ c0 c1 c2 c3 : Byte, exec .b91Latlon s = .next { s with result := c3 ++ c2 ++ c1 ++ c0 } ∧
      (∀ c ∈ [c0, c1, c2, c3], 33 ≤ c.toNat ∧ c.toNat ≤ 123) ∧
      (c0.toNat - 33) * 753571 + (c1.toNat - 33) * 8281 + (c2.toNat - 33) * 91 + (c3.toNat - 33) = s.arg.toNat

/-- R305: B91_LATLON of 91⁴ or more raises LATLON_RANGE, in every mode; RESULT keeps its value. B91_TLM never raises it. -/
def Obligations.LatlonOutOfRangeIsRefused : Prop :=
  (∀ s : State, 68574961 ≤ s.arg.toNat → exec .b91Latlon s = .next (failed .latlonRange s)) ∧
  ∀ s t : State, exec .b91Tlm s = .next t → t.err = s.err ∧ t.errCause = s.errCause

/-! ### The AX.25 frame FSM -/

/-- R170: AX25_RESET in IDLE re-enters Init, clears the bit encoder, loads LEVEL from NRZI_INIT and changes nothing else. -/
def Obligations.Ax25ResetReinitialisesFrameAndEncoder : Prop :=
  Encodes 0x20 .ax25Reset ∧
  ∀ s : State,
    (s.mode = .idle → exec .ax25Reset s = .next
      { s with ax := ⟨.init, 0, false⟩, enc := ⟨0, 0, 0, false, s.config.getLsbD 0⟩ }) ∧
    (s.mode ≠ .idle → exec .ax25Reset s = .next (failed .busy s))

/-- R162, R163, R168, R171: the flag arms of AX25_NEXT_BYTE. RESULT is 0x7E with attribute 0; the count moves the FSM. -/
def Obligations.NextByteEmitsFlags : Prop :=
  Encodes 0x21 .ax25NextByte ∧
  ∀ s : State, s.mode = .idle →
    (s.ax.state = .init → exec .ax25NextByte s = .next { s with
      result := 0x7E, ax :=
      if 1 = s.startFlags then ⟨.header, 0, s.ax.finished⟩ else ⟨.startFlags, 1, s.ax.finished⟩ }) ∧
    (s.ax.state = .startFlags → exec .ax25NextByte s = .next { s with
      result := 0x7E, ax :=
      if s.ax.idx + 1 = s.startFlags then ⟨.header, 0, s.ax.finished⟩
      else ⟨.startFlags, s.ax.idx + 1, s.ax.finished⟩ }) ∧
    (s.ax.state = .endFlags → s.ax.finished = false → exec .ax25NextByte s = .next { s with
      result := 0x7E, ax :=
      ⟨.endFlags, s.ax.idx + 1, decide (s.ax.idx + 1 = s.endFlags)⟩ }) ∧
    (s.ax.state = .endFlags → s.ax.finished = true → exec .ax25NextByte s = .next { s with result := 0x7E })

/-- R129, R164-R167, R171: the body arms of AX25_NEXT_BYTE. The byte is the next header, information or FCS byte, with
attribute 1 in RESULT bit 8; an unwritten byte is the fault UNINIT. -/
def Obligations.NextByteEmitsBody : Prop :=
  ∀ s : State, s.mode = .idle →
    (∀ v, s.ax.state = .header → s.readBuf .hdr s.ax.idx.toNat = some v →
      exec .ax25NextByte s = .next { s with
        result := 0#23 ++ 1#1 ++ v, ax :=
        if s.ax.idx + 1 = 23 then ⟨.data, 0, s.ax.finished⟩ else ⟨.header, s.ax.idx + 1, s.ax.finished⟩ }) ∧
    (∀ v, s.ax.state = .data → s.readBuf .info s.ax.idx.toNat = some v →
      exec .ax25NextByte s = .next { s with
        result := 0#23 ++ 1#1 ++ v, ax :=
        if s.ax.idx + 1 = 32 then ⟨.fcs1, 0, s.ax.finished⟩ else ⟨.data, s.ax.idx + 1, s.ax.finished⟩ }) ∧
    (s.ax.state = .header → s.readBuf .hdr s.ax.idx.toNat = none →
      exec .ax25NextByte s = .fault (.uninit .hdr s.ax.idx.toNat)) ∧
    (s.ax.state = .data → s.readBuf .info s.ax.idx.toNat = none →
      exec .ax25NextByte s = .fault (.uninit .info s.ax.idx.toNat)) ∧
    (s.ax.state = .fcs1 → exec .ax25NextByte s = .next { s with
      result := 0#23 ++ 1#1 ++ (if s.config.getLsbD 2 then s.fcs.extractLsb' 8 8 else s.fcs.extractLsb' 0 8),
      ax := ⟨.fcs2, s.ax.idx, s.ax.finished⟩ }) ∧
    (s.ax.state = .fcs2 → exec .ax25NextByte s = .next { s with
      result := 0#23 ++ 1#1 ++ (if s.config.getLsbD 2 then s.fcs.extractLsb' 0 8 else s.fcs.extractLsb' 8 8),
      ax := ⟨.endFlags, 0, s.ax.finished⟩ })

/-- R172 (marked derived in the spec): from Init, the n-th call of the byte producer returns the n-th byte of the frame with its attribute, flags for ever
after, and FINISHED is 1 exactly from call S + 57 + E on. The byte law is stated for AX25_NEXT_BYTE. -/
def Obligations.FrameSequenceLaw : Prop :=
  ∀ (s : State) (hs xs : List Byte), s.mode = .idle → s.ax.state = .init → s.ax.finished = false →
    s.startFlags ≠ 0 → s.endFlags ≠ 0 → hs.length = 23 → xs.length = 32 → s.Holds .hdr hs → s.Holds .info xs →
    ∀ n : Nat, ∃ t, execList (List.replicate (n + 1) .ax25NextByte) s = .next t ∧
      t = { s with ax := t.ax, result := t.result } ∧
      t.result = (match (frameBytes s hs xs)[n]? with
        | some b => 0#23 ++ BitVec.ofBool b.st ++ b.byte
        | none => 0x7E#32) ∧
      (t.ax.finished = true ↔ s.startFlags.toNat + 57 + s.endFlags.toNat ≤ n + 1)

/-- R169, R173 (marked derived in the spec): AX_STATE moves only forward, and once FINISHED is 1 in EndFlags the frame FSM does not move at all, except
by AX25_RESET, TX_START_APRS and HW_RESET. -/
def Obligations.FrameStateMovesOnlyForward : Prop :=
  ∀ (i : Instr) (s t : State), exec i s = .next t → i.canon ∉ [Instr.ax25Reset, .txStartAprs, .hwReset] →
    axNumber s.ax.state ≤ axNumber t.ax.state ∧
    (s.ax.state = .endFlags → s.ax.finished = true → t.ax = s.ax)

/-! ### The bit encoder -/

/-- R191, R193-R197, R199: NRZI_NEXT_BIT with a stuffed bit pending, and with an unsent bit of the current byte. -/
def Obligations.NextBitStuffsOrSendsSourceBit : Prop :=
  Encodes 0x22 .nrziNextBit ∧
  ∀ s : State, s.mode = .idle →
    (s.enc.stuff = true → s.enc.ones = 5 → exec .nrziNextBit s = .next { s with
      result := 0#29 ++ 1#1 ++ 0#1 ++ BitVec.ofBool (!s.enc.level),
      enc := ⟨s.enc.sr, s.enc.bl, 0, s.enc.stuff, !s.enc.level⟩ }) ∧
    (¬ (s.enc.stuff = true ∧ s.enc.ones = 5) → s.enc.bl ≠ 0 → s.enc.sr.getLsbD 0 = false →
      exec .nrziNextBit s = .next { s with
        result := 0#29 ++ 0#1 ++ 0#1 ++ BitVec.ofBool (!s.enc.level),
        enc := ⟨s.enc.sr >>> 1, s.enc.bl - 1, 0, s.enc.stuff, !s.enc.level⟩ }) ∧
    (¬ (s.enc.stuff = true ∧ s.enc.ones = 5) → s.enc.bl ≠ 0 → s.enc.sr.getLsbD 0 = true →
      exec .nrziNextBit s = .next { s with
        result := 0#29 ++ 0#1 ++ 1#1 ++ BitVec.ofBool s.enc.level,
        enc := ⟨s.enc.sr >>> 1, s.enc.bl - 1, BitVec.ofNat 3 (min (s.enc.ones.toNat + 1) 7), s.enc.stuff, s.enc.level⟩ })

/-- R192: when no bit of the current byte is left and no stuffed bit is pending, NRZI_NEXT_BIT pulls the byte that
AX25_NEXT_BYTE would return, latches its attribute and sends its bit 0; it faults where AX25_NEXT_BYTE faults. -/
def Obligations.NextBitPullsTheNextByte : Prop :=
  ∀ s : State, s.mode = .idle → ¬ (s.enc.stuff = true ∧ s.enc.ones = 5) → s.enc.bl = 0 →
    (NextByteReadable s → ∃ (t : State) (b : Byte) (st : Bool), exec .ax25NextByte s = .next t ∧
      t.result = 0#23 ++ BitVec.ofBool st ++ b ∧
      exec .nrziNextBit s = .next { s with
        ax := t.ax,
        result := 0#29 ++ 0#1 ++ BitVec.ofBool (b.getLsbD 0) ++ BitVec.ofBool (xor s.enc.level (!b.getLsbD 0)),
        enc := ⟨b >>> 1, 7, if b.getLsbD 0 then BitVec.ofNat 3 (min (s.enc.ones.toNat + 1) 7) else 0, st,
          xor s.enc.level (!b.getLsbD 0)⟩ }) ∧
    ∀ x, exec .ax25NextByte s = .fault x → exec .nrziNextBit s = .fault x

/-- R196, and R201, which the spec marks as derived: at every call LEVEL after equals LEVEL before XOR (line bit = 0), and RESULT bit 0 is the level after. -/
def Obligations.NrziLevelChangesExactlyOnZero : Prop :=
  ∀ s t : State, s.mode = .idle → exec .nrziNextBit s = .next t →
    t.enc.level = xor s.enc.level (!t.result.getLsbD 1) ∧ t.result.getLsbD 0 = t.enc.level

/-- R200 (marked derived in the spec): the line bits NRZI_NEXT_BIT returns after AX25_RESET. The opening flags come first,
unstuffed; then the body, from the first bit of HDR[0] to the last bit of the second FCS byte with any stuffed bit that follows
it; then flags, unstuffed, for ever. In the body the bits that are not stuffed are the source bits, no six 1s follow each other,
a bit is stuffed exactly when the five before it are 1s, it is a 0, the body does not end with five 1s, and a receiver that
drops the bit after five 1s recovers the source bits. -/
def Obligations.StuffedStreamHasNoSixOnes : Prop :=
  ∀ (s t : State) (hs xs : List Byte), s.mode = .idle → s.startFlags ≠ 0 → s.endFlags ≠ 0 →
    hs.length = 23 → xs.length = 32 → s.Holds .hdr hs → s.Holds .info xs → exec .ax25Reset s = .next t →
    ∃ body : List (Bool × Bool),
      (∀ n : Nat, sentBits (8 * s.startFlags.toNat + body.length + 8 * n) t =
        (flagBits s.startFlags.toNat).map (·, false) ++ body ++ (flagBits n).map (·, false)) ∧
      (body.filter fun b => !b.2).map (·.1) = (frameBody s hs xs).flatMap lsbFirst ∧
      ¬ List.replicate 6 true <:+: body.map (·.1) ∧
      (∀ (k : Nat) (b : Bool × Bool), body[k]? = some b →
        (b.2 = true ↔ 5 ≤ k ∧ ∀ j : Nat, k ≤ j + 5 → j < k → (body.map (·.1))[j]? = some true) ∧
        (b.2 = true → b.1 = false)) ∧
      ¬ List.replicate 5 true <:+ body.map (·.1) ∧
      unstuffBits 0 (body.map (·.1)) = (frameBody s hs xs).flatMap lsbFirst

/-- R202, R205 (marked derived in the spec): after AX25_RESET the calls of NRZI_NEXT_BIT return the line bits and NRZI levels of the stuffed frame in
order, then those of further flags for ever; aprs_end() first becomes true after exactly as many calls as the frame has line
bits. -/
def Obligations.BitProducerSendsTheStuffedFrame : Prop :=
  ∀ (s : State) (hs xs : List Byte), s.mode = .idle → s.startFlags ≠ 0 → s.endFlags ≠ 0 →
    hs.length = 23 → xs.length = 32 → s.Holds .hdr hs → s.Holds .info xs →
    ∀ n : Nat,
      ∃ t, execList (.ax25Reset :: List.replicate (n + 1) .nrziNextBit) s = .next t ∧
        (frameLine s hs xs ++ flagBits (n + 1))[n]? = some (t.result.getLsbD 1) ∧
        (nrziLevels (s.config.getLsbD 0) (frameLine s hs xs ++ flagBits (n + 1)))[n]? = some (t.result.getLsbD 0) ∧
        (n < (frameLine s hs xs).length → (t.aprsEnd = true ↔ n + 1 = (frameLine s hs xs).length))

/-! ### The RTTY FSM -/

/-- R222, R223, R306: RTTY_INIT in IDLE latches a legal length and restarts the FSM; an illegal length is refused. -/
def Obligations.RttyInitLatchesTheMessage : Prop :=
  Encodes 0x30 .rttyInit ∧
  ∀ s : State,
    (s.mode = .idle → 1 ≤ s.rttyLen.toNat → s.rttyLen.toNat ≤ 256 →
      exec .rttyInit s = .next { s with rtty := ⟨.idle, 0, 0, s.rttyIdle, false, 0, s.rttyLen⟩ }) ∧
    (s.mode = .idle → s.rttyLen.toNat = 0 ∨ 256 < s.rttyLen.toNat → exec .rttyInit s = .next (failed .rttyLen s)) ∧
    (s.mode ≠ .idle → exec .rttyInit s = .next (failed .busy s))

/-- R224, R225, R230: the Idle and Start arms of RTTY_NEXT_BIT. -/
def Obligations.RttyNextBitIdleAndStart : Prop :=
  Encodes 0x31 .rttyNextBit ∧
  ∀ s : State, s.mode = .idle → s.rtty.fin = false →
    (s.rtty.state = .idle → s.rtty.idleLeft ≠ 0 → exec .rttyNextBit s = .next { s with
      result := 0#30 ++ 0#1 ++ BitVec.ofBool (s.config.getLsbD 1),
      rtty := { s.rtty with idleLeft := s.rtty.idleLeft - 1, state := if s.rtty.idleLeft = 1 then .start else .idle } }) ∧
    (∀ v, s.rtty.state = .start ∨ (s.rtty.state = .idle ∧ s.rtty.idleLeft = 0) →
      s.readBuf .msg s.rtty.cidx.toNat = some v →
      exec .rttyNextBit s = .next { s with
        result := 0,
        rtty := { s.rtty with ch := v.extractLsb' 0 7, bidx := 0, state := .character } }) ∧
    (s.rtty.state = .start ∨ (s.rtty.state = .idle ∧ s.rtty.idleLeft = 0) →
      s.readBuf .msg s.rtty.cidx.toNat = none → exec .rttyNextBit s = .fault (.uninit .msg s.rtty.cidx.toNat))

/-- R226-R230, R307: the Character, Stop1 and Stop2 arms of RTTY_NEXT_BIT, and its refusal once the message is finished. -/
def Obligations.RttyNextBitCharacterStopAndFinish : Prop :=
  ∀ s : State, s.mode = .idle →
    (s.rtty.fin = false → s.rtty.state = .character → s.rtty.bidx.toNat ≤ 6 → exec .rttyNextBit s = .next { s with
      result := 0#30 ++ 0#1 ++ BitVec.ofBool (s.rtty.ch.getLsbD s.rtty.bidx.toNat),
      rtty := if s.rtty.bidx.toNat = 6 then { s.rtty with bidx := 0, state := .stop1 }
        else { s.rtty with bidx := s.rtty.bidx + 1 } }) ∧
    (s.rtty.fin = false → s.rtty.state = .stop1 → exec .rttyNextBit s = .next { s with
      result := 1,
      rtty := { s.rtty with state := .stop2 } }) ∧
    (s.rtty.fin = false → s.rtty.state = .stop2 → s.rtty.cidx.toNat + 1 < s.rtty.len.toNat →
      exec .rttyNextBit s = .next { s with
        result := 1,
        rtty := { s.rtty with cidx := s.rtty.cidx + 1, state := .start } }) ∧
    (s.rtty.fin = false → s.rtty.state = .stop2 → s.rtty.cidx.toNat + 1 = s.rtty.len.toNat →
      exec .rttyNextBit s = .next { s with
        result := 3,
        rtty := { s.rtty with cidx := s.rtty.cidx + 1, state := .idle, fin := true } }) ∧
    (s.rtty.fin = true → exec .rttyNextBit s = .next (failed .rttyFinished s))

/-- R231 (marked derived in the spec): after RTTY_INIT the n-th call of RTTY_NEXT_BIT returns the n-th bit of the idle run and the ten-bit characters,
and R_FIN is 1 exactly after the last. -/
def Obligations.RttyFramingLaw : Prop :=
  ∀ (s : State) (cs : List Byte), s.mode = .idle → cs.length = s.rttyLen.toNat → cs ≠ [] → s.Holds .msg cs →
    ∀ n : Nat, n < s.rttyIdle.toNat + 10 * cs.length →
      ∃ t, execList (.rttyInit :: List.replicate (n + 1) .rttyNextBit) s = .next t ∧
        t = { s with rtty := t.rtty, result := t.result } ∧
        (rttyLine (s.config.getLsbD 1) s.rttyIdle.toNat cs)[n]? = some (t.result.getLsbD 0) ∧
        (t.rtty.fin = true ↔ n + 1 = s.rttyIdle.toNat + 10 * cs.length) ∧ t.result.getLsbD 1 = t.rtty.fin

/-- R232 (marked derived in the spec): unless the FSM is initialised or reset, R_STATE changes only in a call of the RTTY bit
producer and along the cycle: Idle to Start with the last idle bit, Idle to Character (through Start) when no idle bit is left,
Start to Character with R_BIDX = 0, Character to Stop1 with bit 6, Stop1 to Stop2, Stop2 to Start when a character remains, and
Stop2 to Idle after the last character. Each call that stays in Character counts R_BIDX, so Character is held for seven calls.
That R_CIDX + 1 is then exactly R_LEN needs the invariant (InvariantHoldsAtReset, EveryStepKeepsTheInvariant). -/
def Obligations.RttyStateMovesAlongItsCycle : Prop :=
  ∀ (i : Instr) (s t : State), exec i s = .next t →
    (t.rtty.state ≠ s.rtty.state →
      i.canon ∈ [Instr.rttyInit, .txStartRtty, .hwReset] ∨
      i.canon ∈ [Instr.rttyNextBit, .tickBaud] ∧
        ((s.rtty.state = .idle ∧ s.rtty.idleLeft = 1 ∧ t.rtty.state = .start) ∨
         (s.rtty.state = .idle ∧ s.rtty.idleLeft = 0 ∧ t.rtty.state = .character ∧ t.rtty.bidx = 0) ∨
         (s.rtty.state = .start ∧ t.rtty.state = .character ∧ t.rtty.bidx = 0) ∨
         (s.rtty.state = .character ∧ s.rtty.bidx = 6 ∧ t.rtty.state = .stop1) ∨
         (s.rtty.state = .stop1 ∧ t.rtty.state = .stop2) ∨
         (s.rtty.state = .stop2 ∧ s.rtty.cidx + 1 < s.rtty.len ∧ t.rtty.state = .start ∧ t.rtty.fin = s.rtty.fin) ∨
         (s.rtty.state = .stop2 ∧ s.rtty.len ≤ s.rtty.cidx + 1 ∧ t.rtty.state = .idle ∧ t.rtty.fin = true ∧
          (s.Inv → s.rtty.cidx.toNat + 1 = s.rtty.len.toNat)))) ∧
    (s.rtty.state = .character → t.rtty.state = .character →
      t.rtty = if i.canon = .rttyNextBit ∧ s.mode = .idle ∧ s.rtty.fin = false ∨ i.canon = .tickBaud ∧ s.mode = .rtty then
        { s.rtty with bidx := s.rtty.bidx + 1 } else s.rtty)

/-- R233 (marked derived in the spec): the RTTY path neither reads nor writes APRS state, header or information bytes, and the APRS path neither reads nor
writes the RTTY FSM: an operation of one path gives the same answer whatever the other path's state holds. -/
def Obligations.AprsAndRttyPathsAreIndependent : Prop :=
  (∀ i ∈ [Instr.rttyInit, .rttyNextBit, .txStartRtty, .tickBaud],
    ∀ (s : State) (ax : FrameFsm) (enc : BitEncoder) (crc fcs : BitVec 16) (mem : Memory),
      (∀ k, State.readBuf { s with mem := mem } .msg k = s.readBuf .msg k) →
      exec i { s with ax := ax, enc := enc, crc := crc, fcs := fcs, mem := mem } =
        mapNext (fun t => { t with ax := ax, enc := enc, crc := crc, fcs := fcs, mem := mem }) (exec i s)) ∧
  ∀ i ∈ [Instr.ax25Reset, .ax25NextByte, .nrziNextBit, .txStartAprs, .tickSample],
    ∀ (s : State) (r : RttyFsm), exec i { s with rtty := r } = mapNext (fun t => { t with rtty := r }) (exec i s)

/-! ### The scheduler -/

/-- R251: TX_START_APRS in IDLE. -/
def Obligations.TxStartAprsStartsAFrame : Prop :=
  Encodes 0x40 .txStartAprs ∧
  ∀ s : State,
    (s.mode = .idle → exec .txStartAprs s = .next { s with
      ax := ⟨.init, 0, false⟩,
      enc := ⟨0, 0, 0, false, s.config.getLsbD 0⟩, div := 0, aux := false, sym := s.config.getLsbD 0, done := false,
      mode := .aprs }) ∧
    (s.mode ≠ .idle → exec .txStartAprs s = .next (failed .busy s))

/-- R252: TX_START_RTTY in IDLE, with its length check. -/
def Obligations.TxStartRttyStartsAMessage : Prop :=
  Encodes 0x41 .txStartRtty ∧
  ∀ s : State,
    (s.mode = .idle → 1 ≤ s.rttyLen.toNat → s.rttyLen.toNat ≤ 256 → exec .txStartRtty s = .next { s with
      rtty := ⟨.idle, 0, 0, s.rttyIdle, false, 0, s.rttyLen⟩, sym := s.config.getLsbD 1, done := false, mode := .rtty }) ∧
    (s.mode = .idle → s.rttyLen.toNat = 0 ∨ 256 < s.rttyLen.toNat → exec .txStartRtty s = .next (failed .rttyLen s)) ∧
    (s.mode ≠ .idle → exec .txStartRtty s = .next (failed .busy s))

/-- R257: a tick in a mode that does not use it completes and changes no state. -/
def Obligations.IgnoredTicksChangeNothing : Prop :=
  ∀ s : State, (s.mode ≠ .aprs → exec .tickSample s = .next s) ∧ (s.mode ≠ .rtty → exec .tickBaud s = .next s)

/-- R253: a sample tick in APRS mode toggles AUX and counts DIV; the baud event falls on the tick that makes DIV reach 22 and
on no other. -/
def Obligations.SampleTickTogglesAuxAndCounts : Prop :=
  ∀ s : State, s.mode = .aprs →
    (s.div.toNat < 21 → exec .tickSample s = .next { s with aux := !s.aux, div := s.div + 1 }) ∧
    (∀ t, s.div.toNat = 21 → exec .tickSample s = .next t → t.aux = !s.aux ∧ t.div = 0)

/-- R254, R255, R258, R260: the baud event is one call of the bit producer, its level goes to SYM, and the transmission ends
in that step when the pipeline is empty; a byte load of an unwritten byte is its only fault. -/
def Obligations.BaudEventConsumesOneLineBit : Prop :=
  ∀ s : State, s.mode = .aprs → s.div = 21 →
    ((s.enc.stuff = true ∧ s.enc.ones = 5) ∨ s.enc.bl ≠ 0 ∨ NextByteReadable s →
      ∃ t, exec .nrziNextBit { s with mode := .idle } = .next t ∧
        exec .tickSample s = .next { s with
          ax := t.ax, enc := t.enc, aux := !s.aux, div := 0, sym := t.enc.level,
          mode := if t.ax.finished = true ∧ t.enc.bl = 0 ∧ ¬ (t.enc.stuff = true ∧ t.enc.ones = 5) then .idle else .aprs,
          done := if t.ax.finished = true ∧ t.enc.bl = 0 ∧ ¬ (t.enc.stuff = true ∧ t.enc.ones = 5) then true
            else s.done }) ∧
    ∀ x, exec .nrziNextBit { s with mode := .idle } = .fault x → exec .tickSample s = .fault x

/-- R255, R256, R259, R260: a baud tick in RTTY mode is one call of the RTTY bit producer, its bit goes to SYM, and the
transmission ends with the message; an unwritten character is its only fault. In another mode it has no effect. R_FIN is 0
whenever MODE = RTTY by the invariant (EveryStepKeepsTheInvariant). -/
def Obligations.BaudTickConsumesOneRttyBit : Prop :=
  (∀ s : State, s.mode ≠ .rtty → exec .tickBaud s = .next s) ∧
  ∀ s : State, s.mode = .rtty → s.rtty.fin = false →
    ((s.rtty.state = .start ∨ (s.rtty.state = .idle ∧ s.rtty.idleLeft = 0) →
        s.readBuf .msg s.rtty.cidx.toNat ≠ none) →
      ∃ t, exec .rttyNextBit { s with mode := .idle } = .next t ∧
        exec .tickBaud s = .next { s with
          rtty := t.rtty, sym := t.result.getLsbD 0,
          mode := if t.rtty.fin then .idle else .rtty, done := if t.rtty.fin then true else s.done }) ∧
    ∀ x, exec .rttyNextBit { s with mode := .idle } = .fault x → exec .tickBaud s = .fault x

/-- R261 (marked derived in the spec): after TX_START_APRS, for a frame of N line bits the end falls on exactly the 22·N-th sample tick, line bit j is on
SYMBOL from tick 22·j to tick 22·(j + 1) − 1, AUX toggles on every tick and DIV counts modulo 22. -/
def Obligations.AprsTransmissionRunsItsExactLength : Prop :=
  ∀ (s : State) (hs xs : List Byte), s.mode = .idle → s.startFlags ≠ 0 → s.endFlags ≠ 0 →
    hs.length = 23 → xs.length = 32 → s.Holds .hdr hs → s.Holds .info xs →
    ∀ n : Nat, n ≤ 22 * (frameLine s hs xs).length →
      ∃ t, execList (.txStartAprs :: List.replicate n .tickSample) s = .next t ∧
        (s.config.getLsbD 0 :: nrziLevels (s.config.getLsbD 0) (frameLine s hs xs))[n / 22]? = some t.symbolPin ∧
        (t.mode = if n = 22 * (frameLine s hs xs).length then .idle else .aprs) ∧
        (t.done = decide (n = 22 * (frameLine s hs xs).length)) ∧
        (t.aux = decide (n % 2 = 1)) ∧ t.div.toNat = n % 22

/-- R262 (marked derived in the spec): after TX_START_RTTY with I idle bits and L characters the end falls on exactly the (I + 10·L)-th baud tick, and bit
j of the stream is on SYMBOL from tick j to tick j + 1. -/
def Obligations.RttyTransmissionRunsItsExactLength : Prop :=
  ∀ (s : State) (cs : List Byte), s.mode = .idle → cs.length = s.rttyLen.toNat → cs ≠ [] → s.Holds .msg cs →
    ∀ n : Nat, n ≤ s.rttyIdle.toNat + 10 * cs.length →
      ∃ t, execList (.txStartRtty :: List.replicate n .tickBaud) s = .next t ∧
        (s.config.getLsbD 1 :: rttyLine (s.config.getLsbD 1) s.rttyIdle.toNat cs)[n]? = some t.symbolPin ∧
        (t.mode = if n = s.rttyIdle.toNat + 10 * cs.length then .idle else .rtty) ∧
        (t.done = decide (n = s.rttyIdle.toNat + 10 * cs.length))

/-- R250, R255: MODE leaves IDLE only by a start command, and returns only at the end of a transmission, which sets DONE, or
by a hardware reset. -/
def Obligations.ModeChangesOnlyAtStartEndAndReset : Prop :=
  ∀ (i : Instr) (s t : State), exec i s = .next t → t.mode ≠ s.mode →
    (i.canon = .txStartAprs ∧ s.mode = .idle ∧ t.mode = .aprs) ∨
    (i.canon = .txStartRtty ∧ s.mode = .idle ∧ t.mode = .rtty) ∨
    (i = .tickSample ∧ s.mode = .aprs ∧ t.mode = .idle ∧ t.done = true) ∨
    (i = .tickBaud ∧ s.mode = .rtty ∧ t.mode = .idle ∧ t.done = true) ∨ i = .hwReset

/-- R77, R263: while a transmission runs, no operation but a tick and a hardware reset changes anything the transmission
reads or has reached. -/
def Obligations.RunningTransmissionIsUndisturbed : Prop :=
  ∀ (i : Instr) (s t : State), s.mode ≠ .idle → exec i s = .next t → i ∉ [Instr.tickSample, .tickBaud, .hwReset] →
    t.mode = s.mode ∧ t.ax = s.ax ∧ t.enc = s.enc ∧ t.rtty = s.rtty ∧ t.fcs = s.fcs ∧ t.config = s.config ∧
    t.startFlags = s.startFlags ∧ t.endFlags = s.endFlags ∧ t.rttyIdle = s.rttyIdle ∧ t.rttyLen = s.rttyLen ∧
    t.div = s.div ∧ t.aux = s.aux ∧ t.sym = s.sym ∧ ∀ b k, t.readBuf b k = s.readBuf b k

/-- R26, R313: DONE, and so IRQ, is set only by the end of a transmission and cleared only by a start command, a STATUS write
with bit 3 set or a hardware reset; a step that sets it records no error (R308). -/
def Obligations.DoneIsSetAtTheEndAndClearedByTheHost : Prop :=
  ∀ (i : Instr) (s t : State), exec i s = .next t →
    (s.irq = false → t.irq = true →
      (i = .tickSample ∨ i = .tickBaud) ∧ s.mode ≠ .idle ∧ t.mode = .idle ∧ t.err = s.err ∧ t.errCause = s.errCause) ∧
    (s.irq = true → t.irq = false →
      i.canon = .txStartAprs ∨ i.canon = .txStartRtty ∨ StatusWrite i 3 ∨ i = .hwReset)

/-! ### The host bus -/

/-- R289, R290: a BUS_READ of a register completes in every mode, returns the value of the table and changes nothing else; an
unmapped address returns 0. The packed registers are given by the weights of their fields (R24, R42-R45), with the codes of
MODE, AX_STATE, R_STATE and ERR_CAUSE as numbers (R25, R36, R38, R302). The model keeps the returned value in a field of its
own (log entry 2). -/
def Obligations.RegisterReadsReturnTheirFields : Prop :=
  ∀ (s : State) (a : Addr), ∀ p ∈
    [(0x000, 0), (0x004, s.arg.toNat), (0x008, s.result.toNat),
     (0x00C, (decide (s.mode ≠ .idle)).toNat + 2 * modeNumber s.mode + 8 * s.done.toNat + 16 * s.ax.finished.toNat +
        32 * s.rtty.fin.toNat + 64 * s.fcsStale.toNat + 128 * s.err.toNat + 256 * causeNumber s.errCause),
     (0x010, s.crc.toNat), (0x014, s.fcs.toNat), (0x018, s.config.toNat), (0x01C, s.startFlags.toNat),
     (0x020, s.endFlags.toNat), (0x024, s.rttyIdle.toNat), (0x028, s.rttyLen.toNat),
     (0x030, axNumber s.ax.state + 2 ^ 8 * s.ax.idx.toNat + 2 ^ 16 * s.ax.finished.toNat),
     (0x034, s.enc.sr.toNat + 2 ^ 8 * s.enc.bl.toNat + 2 ^ 12 * s.enc.ones.toNat + 2 ^ 16 * s.enc.stuff.toNat +
        2 ^ 17 * s.enc.level.toNat),
     (0x038, rttyNumber s.rtty.state + 2 ^ 3 * s.rtty.bidx.toNat + 2 ^ 6 * s.rtty.cidx.toNat + 2 ^ 15 * s.rtty.fin.toNat +
        2 ^ 16 * s.rtty.idleLeft.toNat),
     (0x03C, modeNumber s.mode + 2 ^ 8 * s.div.toNat + 2 ^ 16 * s.aux.toNat + 2 ^ 17 * s.sym.toNat)],
    (Reaches a p.1 → exec (.busRead a) s = .next { s with readData := BitVec.ofNat 32 p.2 }) ∧
    (Unmapped a → exec (.busRead a) s = .next { s with readData := 0 })

/-- R63, R291: a BUS_READ of a buffer byte returns it zero-extended in every mode, and an unwritten one is the fault
UNINIT. The returned value is kept in the model's field of log entry 2. -/
def Obligations.BufferReadsZeroExtendOrFault : Prop :=
  ∀ (s : State) (a : Addr) (b : Buf) (k : Nat), k < b.size →
    Reaches a ((match b with | .hdr => 0x100 | .info => 0x200 | .msg => 0x400) + 4 * k) →
    (∀ v, s.readBuf b k = some v → exec (.busRead a) s = .next { s with readData := BitVec.ofNat 32 v.toNat }) ∧
    (s.readBuf b k = none → exec (.busRead a) s = .fault (.uninit b k))

/-- R288: writes to read-only and unmapped addresses are ignored in every mode. -/
def Obligations.UnmappedAndReadOnlyWritesAreIgnored : Prop :=
  ∀ (s : State) (a : Addr) (d : Word),
    Unmapped a ∨ ReadOnly a → exec (.busWrite a d) s = .next s

/-- R72, R73: a BUS_READ of any address changes no state of the block and gives the same value again, and a write to any
location but CMD is idempotent. The value read is the model's field of log entry 2. -/
def Obligations.AccessesOutsideCmdAreIdempotent : Prop :=
  ∀ (s t : State) (a : Addr) (d : Word),
    (exec (.busRead a) s = .next t → t = { s with readData := t.readData } ∧ exec (.busRead a) t = .next t) ∧
    (¬ Reaches a 0 → exec (.busWrite a d) s = .next t → exec (.busWrite a d) t = .next t)

/-- R282-R286: accepted register writes complete, store their slice of data and change nothing else; ARG and STATUS are
accepted in every mode, the others raise BUSY outside IDLE. -/
def Obligations.RegisterWritesStoreTheirSlice : Prop :=
  ∀ (s : State) (a : Addr) (d : Word),
    (Reaches a 0x004 → exec (.busWrite a d) s = .next { s with arg := d }) ∧
    (Reaches a 0x00C → exec (.busWrite a d) s = .next { s with
      done := s.done && !d.getLsbD 3, err := s.err && !d.getLsbD 7,
      errCause := if d.getLsbD 7 then .none else s.errCause }) ∧
    (s.mode = .idle →
      (Reaches a 0x018 → exec (.busWrite a d) s = .next { s with config := d.extractLsb' 0 3 }) ∧
      (Reaches a 0x01C → exec (.busWrite a d) s = .next { s with
        startFlags := if d.toNat % 256 = 0 then 1 else d.extractLsb' 0 8 }) ∧
      (Reaches a 0x020 → exec (.busWrite a d) s = .next { s with
        endFlags := if d.toNat % 256 = 0 then 1 else d.extractLsb' 0 8 }) ∧
      (Reaches a 0x024 → exec (.busWrite a d) s = .next { s with rttyIdle := d.extractLsb' 0 16 }) ∧
      (Reaches a 0x028 → exec (.busWrite a d) s = .next { s with rttyLen := d.extractLsb' 0 9 })) ∧
    (s.mode ≠ .idle → 0x018 ≤ a.toNat → a.toNat < 0x02C → exec (.busWrite a d) s = .next (failed .busy s))

/-- R287: a buffer write raises BUSY outside IDLE; in IDLE it stores data[7:0] in that byte and in no other, makes it
written, sets FCS_STALE for HDR and INFO only, and changes nothing else. -/
def Obligations.BufferWriteStoresExactlyOneByte : Prop :=
  ∀ (s : State) (a : Addr) (d : Word) (b : Buf) (k : Nat), k < b.size →
    Reaches a ((match b with | .hdr => 0x100 | .info => 0x200 | .msg => 0x400) + 4 * k) →
    (s.mode ≠ .idle → exec (.busWrite a d) s = .next (failed .busy s)) ∧
    (s.mode = .idle → ∃ t, exec (.busWrite a d) s = .next t ∧ t = { s with mem := t.mem, fcsStale := t.fcsStale } ∧
      t.readBuf b k = some (d.extractLsb' 0 8) ∧
      (∀ b' k', ¬ (b' = b ∧ k' = k) → t.readBuf b' k' = s.readBuf b' k') ∧
      (t.fcsStale = (match b with | .msg => s.fcsStale | .hdr | .info => true)))

/-- R292 (marked derived in the spec): read-after-write, through the read data of log entry 2. -/
def Obligations.ReadAfterWriteReturnsMaskedData : Prop :=
  ∀ (s : State) (a : Addr) (d : Word),
    (Reaches a 0x004 → ∃ t, execList [.busWrite a d, .busRead a] s = .next t ∧ t.readData = d) ∧
    (s.mode = .idle → ∀ p ∈ [(0x018, 0x7#32), (0x024, 0xFFFF#32), (0x028, 0x1FF#32)], Reaches a p.1 →
      ∃ t, execList [.busWrite a d, .busRead a] s = .next t ∧ t.readData = d &&& p.2) ∧
    (s.mode = .idle → Reaches a 0x01C ∨ Reaches a 0x020 →
      ∃ t, execList [.busWrite a d, .busRead a] s = .next t ∧
        t.readData = if d &&& 0xFF#32 = 0 then 1 else d &&& 0xFF#32) ∧
    (s.mode = .idle → BusyProtected a → 0x100 ≤ a.toNat →
      ∃ t, execList [.busWrite a d, .busRead a] s = .next t ∧ t.readData = d &&& 0xFF#32) ∧
    (s.mode ≠ .idle → BusyProtected a → ∀ u, exec (.busRead a) s = .next u →
      ∃ t, execList [.busWrite a d, .busRead a] s = .next t ∧ t.readData = u.readData ∧ t.err = true ∧
        t.errCause = if s.err then s.errCause else .busy)

/-- R40: no operation of the block writes a buffer: a buffer byte changes only by an accepted host write to it, or loses its
value by a hardware reset. -/
def Obligations.OnlyHostWritesChangeBufferBytes : Prop :=
  ∀ (i : Instr) (s t : State) (b : Buf) (k : Nat), exec i s = .next t → t.readBuf b k ≠ s.readBuf b k →
    (i = .hwReset ∧ t.readBuf b k = none) ∨
    ∃ a d, i = .busWrite a d ∧ s.mode = .idle ∧ k < b.size ∧
      Reaches a ((match b with | .hdr => 0x100 | .info => 0x200 | .msg => 0x400) + 4 * k) ∧
      t.readBuf b k = some (d.extractLsb' 0 8)

/-- R22, R28-R30: the only writers of RESULT, CRC, FCS and FCS_STALE. -/
def Obligations.OnlyNamedOperationsWriteResultCrcFcs : Prop :=
  ∀ (i : Instr) (s t : State), exec i s = .next t →
    (t.result ≠ s.result →
      i.canon ∈ [Instr.b91Tlm, .b91Latlon, .ax25NextByte, .nrziNextBit, .rttyNextBit, .hwReset]) ∧
    (t.crc ≠ s.crc → i.canon ∈ [Instr.crcLoad, .crcByte, .crcHdr, .crcInfo, .fcsCompute, .hwReset]) ∧
    (t.fcs ≠ s.fcs → i.canon ∈ [Instr.fcsCompute, .hwReset]) ∧
    (s.fcsStale = true → t.fcsStale = false → i.canon = .fcsCompute) ∧
    (s.fcsStale = false → t.fcsStale = true → i = .hwReset ∨
      ∃ a d, i = .busWrite a d ∧ s.mode = .idle ∧ (BusyProtected a ∧ 0x100 ≤ a.toNat ∧ a.toNat < 0x280))

/-- R46, R204, R229: the only writers of FINISHED, STUFF, LEVEL and R_FIN. -/
def Obligations.EncoderFlagsHaveOnlyTheirWriters : Prop :=
  ∀ (i : Instr) (s t : State), exec i s = .next t →
    (t.ax.finished ≠ s.ax.finished →
      i.canon ∈ [Instr.ax25NextByte, .nrziNextBit, .tickSample, .ax25Reset, .txStartAprs, .hwReset]) ∧
    (t.enc.stuff ≠ s.enc.stuff ∨ t.enc.level ≠ s.enc.level →
      i.canon ∈ [Instr.nrziNextBit, .tickSample, .ax25Reset, .txStartAprs, .hwReset]) ∧
    (s.rtty.fin = true → t.rtty.fin = false → i.canon = .rttyInit ∨ i.canon = .txStartRtty) ∧
    (s.rtty.fin = false → t.rtty.fin = true → i.canon ∈ [Instr.rttyNextBit, .tickBaud, .hwReset])

/-! ### Reset, outputs and the invariant -/

/-- R50, R330, R331: a hardware reset completes in every mode and leaves every piece of state at the value of the table, with
every buffer byte unwritten and the outputs 0; so does the machine's reset state. -/
def Obligations.HardwareResetReachesTheResetTable : Prop :=
  AtReset State.reset ∧ ∀ s : State, ∃ t, exec .hwReset s = .next t ∧ AtReset t

/-- R41: the output pins. -/
def Obligations.OutputPinsFollowState : Prop :=
  ∀ s : State, s.symbolPin = s.sym ∧ s.auxPin = s.aux ∧ (s.txActive = true ↔ s.mode ≠ .idle) ∧ s.irq = s.done

/-- The model's invariant (Safety.lean) holds at reset. -/
def Obligations.InvariantHoldsAtReset : Prop := State.reset.Inv

/-- Every step keeps the invariant, from every state that meets it: memory stays canonical; AX_IDX, BL, ONES, R_CIDX, R_BIDX
and DIV stay in range (R36-R39); the flag counts stay legal; ERR_CAUSE is held exactly while ERR is 1; a running transmission
is not at its end and DONE is 0. -/
def Obligations.EveryStepKeepsTheInvariant : Prop :=
  ∀ s t : State, s.Inv → step s = .next t → t.Inv
end

