-- ==== Sys2Proof/Laws/Decode.lean ====
section
/-! SUPPORT. The fields of a bus word are the ones it was built from, and the command table answers every code. -/

namespace Sys2Proof

theorem busWord_rw (write : Bool) (a : Addr) (d : Word) : (busWord write a d).getLsbD 44 = write := by
  unfold busWord
  rw [BitVec.getLsbD_append, if_neg (by decide), BitVec.getLsbD_append, if_neg (by decide)]
  cases write <;> rfl

/-- The same field, in simp's normal form. -/
@[simp] theorem busWord_getElem_rw (write : Bool) (a : Addr) (d : Word) : (busWord write a d)[44] = write := by
  rw [← BitVec.getLsbD_eq_getElem, busWord_rw]

@[simp] theorem busWord_addr (write : Bool) (a : Addr) (d : Word) : (busWord write a d).extractLsb' 32 12 = a := by
  apply BitVec.eq_of_getLsbD_eq
  intro i hi
  have h1 : ¬ (32 + i < 32) := by omega
  have h2 : 32 + i < 32 + 12 := by omega
  simp only [busWord, BitVec.getLsbD_extractLsb', hi, decide_true, Bool.true_and, BitVec.getLsbD_append, if_neg h1]
  rw [show 32 + i - 32 = i by omega, if_pos hi]

@[simp] theorem busWord_data (write : Bool) (a : Addr) (d : Word) : (busWord write a d).extractLsb' 0 32 = d := by
  apply BitVec.eq_of_getLsbD_eq
  intro i hi
  simp only [busWord, BitVec.getLsbD_extractLsb', hi, decide_true, Bool.true_and, BitVec.getLsbD_append, Nat.zero_add,
    if_true]

/-- A written bus word decodes as the canonical name of its BUS_WRITE. -/
@[simp] theorem decode_write (a : Addr) (d : Word) :
    decode (.bus (busWord true a d)) = .ok (Instr.busWrite a d).canon := by
  simp [decode, decodeBus]

@[simp] theorem decode_read (a : Addr) (d : Word) : decode (.bus (busWord false a d)) = .ok (.busRead a) := by
  simp [decode, decodeBus]

/-- Every bus word is built from its own fields. -/
theorem eq_busWord (w : BitVec 45) :
    w = busWord (w.getLsbD 44) (w.extractLsb' 32 12) (w.extractLsb' 0 32) := by
  apply BitVec.eq_of_getLsbD_eq
  intro i hi
  simp only [busWord, BitVec.getLsbD_append, BitVec.getLsbD_extractLsb', BitVec.getLsbD_ofBool]
  split
  · simp_all
  · split
    · rw [show 32 + (i - 32) = i by omega]; simp_all
    · rw [show i = 44 by omega]; simp

theorem commandOfCode_none {op : Byte} (h : op ∉ commandCodes) : commandOfCode op = none := by
  simp only [commandCodes, List.mem_cons, List.not_mem_nil, or_false, not_or] at h
  obtain ⟨h1, h2, h3, h4, h5, h6, h7, h8, h9, h10, h11, h12, h13, h14⟩ := h
  simp only [← beq_eq_false_iff_ne (α := Byte)] at *
  simp [commandOfCode, commandTable, List.lookup, h1, h2, h3, h4, h5, h6, h7, h8, h9, h10, h11, h12, h13, h14]

/-- A listed code has a command. -/
theorem commandOfCode_some {op : Byte} (h : op ∈ commandCodes) :
    ∃ c, commandOfCode op = some c ∧ (op, c) ∈ commandTable := by
  simp only [commandCodes, List.mem_cons, List.not_mem_nil, or_false] at h
  rcases h with rfl | rfl | rfl | rfl | rfl | rfl | rfl | rfl | rfl | rfl | rfl | rfl | rfl | rfl <;>
    exact ⟨_, rfl, by decide⟩

end Sys2Proof
end

