-- ==== Sys2Proof/Laws/Memory.lean ====
section
/-! SUPPORT. The laws of the buffer memory: a read after a write, the places a write leaves alone, and the canonical form. -/

namespace Sys2Proof.Machine

namespace Memory

@[simp] theorem read_nil (a : Nat) : Memory.read [] a = none := rfl

theorem read_write_same (m : Memory) (a : Nat) (v : Byte) : (m.write a v).read a = some v := by
  induction m with
  | nil => simp [write, read]
  | cons c m ih =>
    obtain ⟨b, w⟩ := c
    simp only [write]
    split
    · simp [read]
    · split
      · simp [read]
      · rename_i h1 h2
        have : ¬ b = a := fun h => h2 h.symm
        simp only [read, if_neg this]
        exact ih

theorem read_write_other (m : Memory) (a b : Nat) (v : Byte) (h : b ≠ a) : (m.write a v).read b = m.read b := by
  induction m with
  | nil => simp [write, read, Ne.symm h]
  | cons c m ih =>
    obtain ⟨x, w⟩ := c
    simp only [write]
    split
    · simp [read, Ne.symm h]
    · split
      · rename_i _ hx
        subst hx
        simp [read, Ne.symm h]
      · simp only [read]
        split
        · rfl
        · exact ih

/-- The first offset of a memory after a write is the written one or the one that was first. -/
theorem rising_cons_write (m : Memory) (c : Host.Cell) (a : Nat) (v : Byte) (hm : Memory.rising (c :: m) = true)
    (hc : c.1 < a) : Memory.rising (c :: m.write a v) = true := by
  induction m generalizing c with
  | nil => simpa [write, rising] using hc
  | cons d m ih =>
    obtain ⟨x, w⟩ := d
    obtain ⟨y, u⟩ := c
    simp only [rising, Bool.and_eq_true, decide_eq_true_eq] at hm
    simp only [write]
    split
    · rename_i h
      simp only [rising, Bool.and_eq_true, decide_eq_true_eq]
      exact ⟨hc, h, hm.2⟩
    · split
      · rename_i _ h
        subst h
        simp only [rising, Bool.and_eq_true, decide_eq_true_eq]
        refine ⟨hc, ?_⟩
        cases m <;> simp_all [rising]
      · rename_i h1 h2
        simp only [rising, Bool.and_eq_true, decide_eq_true_eq]
        exact ⟨hm.1, ih (x, w) hm.2 (show x < a by omega)⟩

theorem rising_write (m : Memory) (a : Nat) (v : Byte) (hm : m.rising = true) : (m.write a v).rising = true := by
  cases m with
  | nil => rfl
  | cons c m =>
    obtain ⟨x, w⟩ := c
    simp only [write]
    split
    · rename_i h
      simp only [rising, Bool.and_eq_true, decide_eq_true_eq]
      exact ⟨h, hm⟩
    · split
      · rename_i _ h
        subst h
        cases m <;> simp_all [rising]
      · exact rising_cons_write m (x, w) a v hm (show x < a by omega)

theorem all_write (m : Memory) (a : Nat) (v : Byte) (p : Nat → Bool) (hm : (m.all fun c => p c.1) = true)
    (ha : p a = true) : ((m.write a v).all fun c => p c.1) = true := by
  induction m with
  | nil => simp [write, ha]
  | cons c m ih =>
    obtain ⟨x, w⟩ := c
    simp only [List.all_cons, Bool.and_eq_true] at hm
    simp only [write]
    split
    · simp [ha, hm.1, hm.2]
    · split
      · simp [ha, hm.2]
      · simp [hm.1, ih hm.2]

/-- A write to a buffer byte keeps the canonical form. -/
theorem wf_write (m : Memory) (a : Nat) (v : Byte) (hm : m.wf = true) (ha : isBufAddr a = true) :
    (m.write a v).wf = true := by
  simp only [wf, Bool.and_eq_true] at hm ⊢
  exact ⟨rising_write m a v hm.1, all_write m a v isBufAddr hm.2 ha⟩

end Memory

/-! ### Buffer bytes -/

theorem Buf.addr_inj {b b' : Buf} {i i' : Nat} (hi : i < b.size) (hi' : i' < b'.size) (h : b.addr i = b'.addr i') :
    b = b' ∧ i = i' := by
  cases b <;> cases b' <;>
    simp only [Buf.addr, Buf.base, Buf.size, Config.hdrLen, Config.infoLen, Config.msgLen] at hi hi' h <;>
    first
    | exact ⟨rfl, by omega⟩
    | (exfalso; omega)

theorem Buf.covers_addr (b : Buf) (i : Nat) (hi : i < b.size) : Buf.covers b (b.addr i) = true := by
  simp only [Buf.covers, Bool.and_eq_true, decide_eq_true_eq]
  unfold Buf.addr
  omega

theorem isBufAddr_addr (b : Buf) (i : Nat) (hi : i < b.size) : isBufAddr (b.addr i) = true := by
  have := Buf.covers_addr b i hi
  cases b <;> simp [isBufAddr, this]

/-- A buffer byte reads as it was written last. -/
theorem readBuf_writeBuf_same (s : State) (b : Buf) (i : Nat) (v : Byte) (hi : i < b.size) :
    (s.writeBuf b i v).readBuf b i = some v := by
  simp only [State.readBuf, if_pos hi]
  exact Memory.read_write_same _ _ _

/-- A write to one buffer byte leaves every other buffer byte alone. -/
theorem readBuf_writeBuf_other (s : State) (b b' : Buf) (i i' : Nat) (v : Byte) (hi : i < b.size)
    (h : ¬ (b' = b ∧ i' = i)) : (s.writeBuf b i v).readBuf b' i' = s.readBuf b' i' := by
  simp only [State.readBuf]
  split
  · rename_i hi'
    exact Memory.read_write_other _ _ _ _ fun e => h (Buf.addr_inj hi' hi e)
  · rfl

/-- Only memory decides what a buffer byte reads as. -/
theorem readBuf_congr {s t : State} (h : t.mem = s.mem) (b : Buf) (i : Nat) : t.readBuf b i = s.readBuf b i := by
  simp only [State.readBuf, h]

end Sys2Proof.Machine
end

