-- ==== Sys2Proof/Laws/State.lean ====
section
/-! SUPPORT. One lemma per field for each named update of the state, so that no proof unfolds an update. -/

namespace Sys2Proof.Machine

variable (s : State)

/-! ### recordError -/

@[simp] theorem recordError_arg (c : ErrCause) : (s.recordError c).arg = s.arg := rfl
@[simp] theorem recordError_result (c : ErrCause) : (s.recordError c).result = s.result := rfl
@[simp] theorem recordError_crc (c : ErrCause) : (s.recordError c).crc = s.crc := rfl
@[simp] theorem recordError_fcs (c : ErrCause) : (s.recordError c).fcs = s.fcs := rfl
@[simp] theorem recordError_config (c : ErrCause) : (s.recordError c).config = s.config := rfl
@[simp] theorem recordError_startFlags (c : ErrCause) : (s.recordError c).startFlags = s.startFlags := rfl
@[simp] theorem recordError_endFlags (c : ErrCause) : (s.recordError c).endFlags = s.endFlags := rfl
@[simp] theorem recordError_rttyIdle (c : ErrCause) : (s.recordError c).rttyIdle = s.rttyIdle := rfl
@[simp] theorem recordError_rttyLen (c : ErrCause) : (s.recordError c).rttyLen = s.rttyLen := rfl
@[simp] theorem recordError_ax (c : ErrCause) : (s.recordError c).ax = s.ax := rfl
@[simp] theorem recordError_enc (c : ErrCause) : (s.recordError c).enc = s.enc := rfl
@[simp] theorem recordError_rtty (c : ErrCause) : (s.recordError c).rtty = s.rtty := rfl
@[simp] theorem recordError_mode (c : ErrCause) : (s.recordError c).mode = s.mode := rfl
@[simp] theorem recordError_div (c : ErrCause) : (s.recordError c).div = s.div := rfl
@[simp] theorem recordError_aux (c : ErrCause) : (s.recordError c).aux = s.aux := rfl
@[simp] theorem recordError_sym (c : ErrCause) : (s.recordError c).sym = s.sym := rfl
@[simp] theorem recordError_done (c : ErrCause) : (s.recordError c).done = s.done := rfl
@[simp] theorem recordError_err (c : ErrCause) : (s.recordError c).err = true := rfl
@[simp] theorem recordError_errCause (c : ErrCause) : (s.recordError c).errCause = if s.err then s.errCause else c := rfl
@[simp] theorem recordError_fcsStale (c : ErrCause) : (s.recordError c).fcsStale = s.fcsStale := rfl
@[simp] theorem recordError_mem (c : ErrCause) : (s.recordError c).mem = s.mem := rfl
@[simp] theorem recordError_inputs (c : ErrCause) : (s.recordError c).inputs = s.inputs := rfl
@[simp] theorem recordError_readData (c : ErrCause) : (s.recordError c).readData = s.readData := rfl

/-! ### clearError -/

@[simp] theorem clearError_arg : (s.clearError).arg = s.arg := rfl
@[simp] theorem clearError_result : (s.clearError).result = s.result := rfl
@[simp] theorem clearError_crc : (s.clearError).crc = s.crc := rfl
@[simp] theorem clearError_fcs : (s.clearError).fcs = s.fcs := rfl
@[simp] theorem clearError_config : (s.clearError).config = s.config := rfl
@[simp] theorem clearError_startFlags : (s.clearError).startFlags = s.startFlags := rfl
@[simp] theorem clearError_endFlags : (s.clearError).endFlags = s.endFlags := rfl
@[simp] theorem clearError_rttyIdle : (s.clearError).rttyIdle = s.rttyIdle := rfl
@[simp] theorem clearError_rttyLen : (s.clearError).rttyLen = s.rttyLen := rfl
@[simp] theorem clearError_ax : (s.clearError).ax = s.ax := rfl
@[simp] theorem clearError_enc : (s.clearError).enc = s.enc := rfl
@[simp] theorem clearError_rtty : (s.clearError).rtty = s.rtty := rfl
@[simp] theorem clearError_mode : (s.clearError).mode = s.mode := rfl
@[simp] theorem clearError_div : (s.clearError).div = s.div := rfl
@[simp] theorem clearError_aux : (s.clearError).aux = s.aux := rfl
@[simp] theorem clearError_sym : (s.clearError).sym = s.sym := rfl
@[simp] theorem clearError_done : (s.clearError).done = s.done := rfl
@[simp] theorem clearError_err : (s.clearError).err = false := rfl
@[simp] theorem clearError_errCause : (s.clearError).errCause = .none := rfl
@[simp] theorem clearError_fcsStale : (s.clearError).fcsStale = s.fcsStale := rfl
@[simp] theorem clearError_mem : (s.clearError).mem = s.mem := rfl
@[simp] theorem clearError_inputs : (s.clearError).inputs = s.inputs := rfl
@[simp] theorem clearError_readData : (s.clearError).readData = s.readData := rfl

/-! ### writeBuf -/

@[simp] theorem writeBuf_arg (b : Buf) (i : Nat) (v : Byte) : (s.writeBuf b i v).arg = s.arg := rfl
@[simp] theorem writeBuf_result (b : Buf) (i : Nat) (v : Byte) : (s.writeBuf b i v).result = s.result := rfl
@[simp] theorem writeBuf_crc (b : Buf) (i : Nat) (v : Byte) : (s.writeBuf b i v).crc = s.crc := rfl
@[simp] theorem writeBuf_fcs (b : Buf) (i : Nat) (v : Byte) : (s.writeBuf b i v).fcs = s.fcs := rfl
@[simp] theorem writeBuf_config (b : Buf) (i : Nat) (v : Byte) : (s.writeBuf b i v).config = s.config := rfl
@[simp] theorem writeBuf_startFlags (b : Buf) (i : Nat) (v : Byte) : (s.writeBuf b i v).startFlags = s.startFlags := rfl
@[simp] theorem writeBuf_endFlags (b : Buf) (i : Nat) (v : Byte) : (s.writeBuf b i v).endFlags = s.endFlags := rfl
@[simp] theorem writeBuf_rttyIdle (b : Buf) (i : Nat) (v : Byte) : (s.writeBuf b i v).rttyIdle = s.rttyIdle := rfl
@[simp] theorem writeBuf_rttyLen (b : Buf) (i : Nat) (v : Byte) : (s.writeBuf b i v).rttyLen = s.rttyLen := rfl
@[simp] theorem writeBuf_ax (b : Buf) (i : Nat) (v : Byte) : (s.writeBuf b i v).ax = s.ax := rfl
@[simp] theorem writeBuf_enc (b : Buf) (i : Nat) (v : Byte) : (s.writeBuf b i v).enc = s.enc := rfl
@[simp] theorem writeBuf_rtty (b : Buf) (i : Nat) (v : Byte) : (s.writeBuf b i v).rtty = s.rtty := rfl
@[simp] theorem writeBuf_mode (b : Buf) (i : Nat) (v : Byte) : (s.writeBuf b i v).mode = s.mode := rfl
@[simp] theorem writeBuf_div (b : Buf) (i : Nat) (v : Byte) : (s.writeBuf b i v).div = s.div := rfl
@[simp] theorem writeBuf_aux (b : Buf) (i : Nat) (v : Byte) : (s.writeBuf b i v).aux = s.aux := rfl
@[simp] theorem writeBuf_sym (b : Buf) (i : Nat) (v : Byte) : (s.writeBuf b i v).sym = s.sym := rfl
@[simp] theorem writeBuf_done (b : Buf) (i : Nat) (v : Byte) : (s.writeBuf b i v).done = s.done := rfl
@[simp] theorem writeBuf_err (b : Buf) (i : Nat) (v : Byte) : (s.writeBuf b i v).err = s.err := rfl
@[simp] theorem writeBuf_errCause (b : Buf) (i : Nat) (v : Byte) : (s.writeBuf b i v).errCause = s.errCause := rfl
@[simp] theorem writeBuf_fcsStale (b : Buf) (i : Nat) (v : Byte) : (s.writeBuf b i v).fcsStale = s.fcsStale := rfl
@[simp] theorem writeBuf_mem (b : Buf) (i : Nat) (v : Byte) : (s.writeBuf b i v).mem = s.mem.write (b.addr i) v := rfl
@[simp] theorem writeBuf_inputs (b : Buf) (i : Nat) (v : Byte) : (s.writeBuf b i v).inputs = s.inputs := rfl
@[simp] theorem writeBuf_readData (b : Buf) (i : Nat) (v : Byte) : (s.writeBuf b i v).readData = s.readData := rfl

/-! ### hostWriteBuf -/

@[simp] theorem hostWriteBuf_arg (b : Buf) (i : Nat) (v : Byte) : (s.hostWriteBuf b i v).arg = s.arg := rfl
@[simp] theorem hostWriteBuf_result (b : Buf) (i : Nat) (v : Byte) : (s.hostWriteBuf b i v).result = s.result := rfl
@[simp] theorem hostWriteBuf_crc (b : Buf) (i : Nat) (v : Byte) : (s.hostWriteBuf b i v).crc = s.crc := rfl
@[simp] theorem hostWriteBuf_fcs (b : Buf) (i : Nat) (v : Byte) : (s.hostWriteBuf b i v).fcs = s.fcs := rfl
@[simp] theorem hostWriteBuf_config (b : Buf) (i : Nat) (v : Byte) : (s.hostWriteBuf b i v).config = s.config := rfl
@[simp] theorem hostWriteBuf_startFlags (b : Buf) (i : Nat) (v : Byte) : (s.hostWriteBuf b i v).startFlags = s.startFlags := rfl
@[simp] theorem hostWriteBuf_endFlags (b : Buf) (i : Nat) (v : Byte) : (s.hostWriteBuf b i v).endFlags = s.endFlags := rfl
@[simp] theorem hostWriteBuf_rttyIdle (b : Buf) (i : Nat) (v : Byte) : (s.hostWriteBuf b i v).rttyIdle = s.rttyIdle := rfl
@[simp] theorem hostWriteBuf_rttyLen (b : Buf) (i : Nat) (v : Byte) : (s.hostWriteBuf b i v).rttyLen = s.rttyLen := rfl
@[simp] theorem hostWriteBuf_ax (b : Buf) (i : Nat) (v : Byte) : (s.hostWriteBuf b i v).ax = s.ax := rfl
@[simp] theorem hostWriteBuf_enc (b : Buf) (i : Nat) (v : Byte) : (s.hostWriteBuf b i v).enc = s.enc := rfl
@[simp] theorem hostWriteBuf_rtty (b : Buf) (i : Nat) (v : Byte) : (s.hostWriteBuf b i v).rtty = s.rtty := rfl
@[simp] theorem hostWriteBuf_mode (b : Buf) (i : Nat) (v : Byte) : (s.hostWriteBuf b i v).mode = s.mode := rfl
@[simp] theorem hostWriteBuf_div (b : Buf) (i : Nat) (v : Byte) : (s.hostWriteBuf b i v).div = s.div := rfl
@[simp] theorem hostWriteBuf_aux (b : Buf) (i : Nat) (v : Byte) : (s.hostWriteBuf b i v).aux = s.aux := rfl
@[simp] theorem hostWriteBuf_sym (b : Buf) (i : Nat) (v : Byte) : (s.hostWriteBuf b i v).sym = s.sym := rfl
@[simp] theorem hostWriteBuf_done (b : Buf) (i : Nat) (v : Byte) : (s.hostWriteBuf b i v).done = s.done := rfl
@[simp] theorem hostWriteBuf_err (b : Buf) (i : Nat) (v : Byte) : (s.hostWriteBuf b i v).err = s.err := rfl
@[simp] theorem hostWriteBuf_errCause (b : Buf) (i : Nat) (v : Byte) : (s.hostWriteBuf b i v).errCause = s.errCause := rfl
@[simp] theorem hostWriteBuf_fcsStale (b : Buf) (i : Nat) (v : Byte) : (s.hostWriteBuf b i v).fcsStale = if b = .msg then s.fcsStale else true := rfl
@[simp] theorem hostWriteBuf_mem (b : Buf) (i : Nat) (v : Byte) : (s.hostWriteBuf b i v).mem = s.mem.write (b.addr i) v := rfl
@[simp] theorem hostWriteBuf_inputs (b : Buf) (i : Nat) (v : Byte) : (s.hostWriteBuf b i v).inputs = s.inputs := rfl
@[simp] theorem hostWriteBuf_readData (b : Buf) (i : Nat) (v : Byte) : (s.hostWriteBuf b i v).readData = s.readData := rfl

/-! ### withNext -/

@[simp] theorem withNext_arg (x : Input) : (s.withNext x).arg = s.arg := rfl
@[simp] theorem withNext_result (x : Input) : (s.withNext x).result = s.result := rfl
@[simp] theorem withNext_crc (x : Input) : (s.withNext x).crc = s.crc := rfl
@[simp] theorem withNext_fcs (x : Input) : (s.withNext x).fcs = s.fcs := rfl
@[simp] theorem withNext_config (x : Input) : (s.withNext x).config = s.config := rfl
@[simp] theorem withNext_startFlags (x : Input) : (s.withNext x).startFlags = s.startFlags := rfl
@[simp] theorem withNext_endFlags (x : Input) : (s.withNext x).endFlags = s.endFlags := rfl
@[simp] theorem withNext_rttyIdle (x : Input) : (s.withNext x).rttyIdle = s.rttyIdle := rfl
@[simp] theorem withNext_rttyLen (x : Input) : (s.withNext x).rttyLen = s.rttyLen := rfl
@[simp] theorem withNext_ax (x : Input) : (s.withNext x).ax = s.ax := rfl
@[simp] theorem withNext_enc (x : Input) : (s.withNext x).enc = s.enc := rfl
@[simp] theorem withNext_rtty (x : Input) : (s.withNext x).rtty = s.rtty := rfl
@[simp] theorem withNext_mode (x : Input) : (s.withNext x).mode = s.mode := rfl
@[simp] theorem withNext_div (x : Input) : (s.withNext x).div = s.div := rfl
@[simp] theorem withNext_aux (x : Input) : (s.withNext x).aux = s.aux := rfl
@[simp] theorem withNext_sym (x : Input) : (s.withNext x).sym = s.sym := rfl
@[simp] theorem withNext_done (x : Input) : (s.withNext x).done = s.done := rfl
@[simp] theorem withNext_err (x : Input) : (s.withNext x).err = s.err := rfl
@[simp] theorem withNext_errCause (x : Input) : (s.withNext x).errCause = s.errCause := rfl
@[simp] theorem withNext_fcsStale (x : Input) : (s.withNext x).fcsStale = s.fcsStale := rfl
@[simp] theorem withNext_mem (x : Input) : (s.withNext x).mem = s.mem := rfl
@[simp] theorem withNext_inputs (x : Input) : (s.withNext x).inputs = x :: s.inputs := rfl
@[simp] theorem withNext_readData (x : Input) : (s.withNext x).readData = s.readData := rfl

/-! ### endTransmission -/

@[simp] theorem endTransmission_arg : (s.endTransmission).arg = s.arg := rfl
@[simp] theorem endTransmission_result : (s.endTransmission).result = s.result := rfl
@[simp] theorem endTransmission_crc : (s.endTransmission).crc = s.crc := rfl
@[simp] theorem endTransmission_fcs : (s.endTransmission).fcs = s.fcs := rfl
@[simp] theorem endTransmission_config : (s.endTransmission).config = s.config := rfl
@[simp] theorem endTransmission_startFlags : (s.endTransmission).startFlags = s.startFlags := rfl
@[simp] theorem endTransmission_endFlags : (s.endTransmission).endFlags = s.endFlags := rfl
@[simp] theorem endTransmission_rttyIdle : (s.endTransmission).rttyIdle = s.rttyIdle := rfl
@[simp] theorem endTransmission_rttyLen : (s.endTransmission).rttyLen = s.rttyLen := rfl
@[simp] theorem endTransmission_ax : (s.endTransmission).ax = s.ax := rfl
@[simp] theorem endTransmission_enc : (s.endTransmission).enc = s.enc := rfl
@[simp] theorem endTransmission_rtty : (s.endTransmission).rtty = s.rtty := rfl
@[simp] theorem endTransmission_mode : (s.endTransmission).mode = .idle := rfl
@[simp] theorem endTransmission_div : (s.endTransmission).div = s.div := rfl
@[simp] theorem endTransmission_aux : (s.endTransmission).aux = s.aux := rfl
@[simp] theorem endTransmission_sym : (s.endTransmission).sym = s.sym := rfl
@[simp] theorem endTransmission_done : (s.endTransmission).done = true := rfl
@[simp] theorem endTransmission_err : (s.endTransmission).err = s.err := rfl
@[simp] theorem endTransmission_errCause : (s.endTransmission).errCause = s.errCause := rfl
@[simp] theorem endTransmission_fcsStale : (s.endTransmission).fcsStale = s.fcsStale := rfl
@[simp] theorem endTransmission_mem : (s.endTransmission).mem = s.mem := rfl
@[simp] theorem endTransmission_inputs : (s.endTransmission).inputs = s.inputs := rfl
@[simp] theorem endTransmission_readData : (s.endTransmission).readData = s.readData := rfl

/-! ### restartFrame -/

@[simp] theorem restartFrame_arg : (s.restartFrame).arg = s.arg := rfl
@[simp] theorem restartFrame_result : (s.restartFrame).result = s.result := rfl
@[simp] theorem restartFrame_crc : (s.restartFrame).crc = s.crc := rfl
@[simp] theorem restartFrame_fcs : (s.restartFrame).fcs = s.fcs := rfl
@[simp] theorem restartFrame_config : (s.restartFrame).config = s.config := rfl
@[simp] theorem restartFrame_startFlags : (s.restartFrame).startFlags = s.startFlags := rfl
@[simp] theorem restartFrame_endFlags : (s.restartFrame).endFlags = s.endFlags := rfl
@[simp] theorem restartFrame_rttyIdle : (s.restartFrame).rttyIdle = s.rttyIdle := rfl
@[simp] theorem restartFrame_rttyLen : (s.restartFrame).rttyLen = s.rttyLen := rfl
@[simp] theorem restartFrame_ax : (s.restartFrame).ax = FrameFsm.reset := rfl
@[simp] theorem restartFrame_enc : (s.restartFrame).enc = BitEncoder.reset s.nrziInit := rfl
@[simp] theorem restartFrame_rtty : (s.restartFrame).rtty = s.rtty := rfl
@[simp] theorem restartFrame_mode : (s.restartFrame).mode = s.mode := rfl
@[simp] theorem restartFrame_div : (s.restartFrame).div = s.div := rfl
@[simp] theorem restartFrame_aux : (s.restartFrame).aux = s.aux := rfl
@[simp] theorem restartFrame_sym : (s.restartFrame).sym = s.sym := rfl
@[simp] theorem restartFrame_done : (s.restartFrame).done = s.done := rfl
@[simp] theorem restartFrame_err : (s.restartFrame).err = s.err := rfl
@[simp] theorem restartFrame_errCause : (s.restartFrame).errCause = s.errCause := rfl
@[simp] theorem restartFrame_fcsStale : (s.restartFrame).fcsStale = s.fcsStale := rfl
@[simp] theorem restartFrame_mem : (s.restartFrame).mem = s.mem := rfl
@[simp] theorem restartFrame_inputs : (s.restartFrame).inputs = s.inputs := rfl
@[simp] theorem restartFrame_readData : (s.restartFrame).readData = s.readData := rfl

/-! ### startMessage -/

@[simp] theorem startMessage_arg : (s.startMessage).arg = s.arg := rfl
@[simp] theorem startMessage_result : (s.startMessage).result = s.result := rfl
@[simp] theorem startMessage_crc : (s.startMessage).crc = s.crc := rfl
@[simp] theorem startMessage_fcs : (s.startMessage).fcs = s.fcs := rfl
@[simp] theorem startMessage_config : (s.startMessage).config = s.config := rfl
@[simp] theorem startMessage_startFlags : (s.startMessage).startFlags = s.startFlags := rfl
@[simp] theorem startMessage_endFlags : (s.startMessage).endFlags = s.endFlags := rfl
@[simp] theorem startMessage_rttyIdle : (s.startMessage).rttyIdle = s.rttyIdle := rfl
@[simp] theorem startMessage_rttyLen : (s.startMessage).rttyLen = s.rttyLen := rfl
@[simp] theorem startMessage_ax : (s.startMessage).ax = s.ax := rfl
@[simp] theorem startMessage_enc : (s.startMessage).enc = s.enc := rfl
@[simp] theorem startMessage_rtty : (s.startMessage).rtty = ⟨.idle, 0#9, 0#3, s.rttyIdle, false, 0#7, s.rttyLen⟩ := rfl
@[simp] theorem startMessage_mode : (s.startMessage).mode = s.mode := rfl
@[simp] theorem startMessage_div : (s.startMessage).div = s.div := rfl
@[simp] theorem startMessage_aux : (s.startMessage).aux = s.aux := rfl
@[simp] theorem startMessage_sym : (s.startMessage).sym = s.sym := rfl
@[simp] theorem startMessage_done : (s.startMessage).done = s.done := rfl
@[simp] theorem startMessage_err : (s.startMessage).err = s.err := rfl
@[simp] theorem startMessage_errCause : (s.startMessage).errCause = s.errCause := rfl
@[simp] theorem startMessage_fcsStale : (s.startMessage).fcsStale = s.fcsStale := rfl
@[simp] theorem startMessage_mem : (s.startMessage).mem = s.mem := rfl
@[simp] theorem startMessage_inputs : (s.startMessage).inputs = s.inputs := rfl
@[simp] theorem startMessage_readData : (s.startMessage).readData = s.readData := rfl

/-! ### hardReset -/

@[simp] theorem hardReset_arg : (s.hardReset).arg = State.reset.arg := rfl
@[simp] theorem hardReset_result : (s.hardReset).result = State.reset.result := rfl
@[simp] theorem hardReset_crc : (s.hardReset).crc = State.reset.crc := rfl
@[simp] theorem hardReset_fcs : (s.hardReset).fcs = State.reset.fcs := rfl
@[simp] theorem hardReset_config : (s.hardReset).config = State.reset.config := rfl
@[simp] theorem hardReset_startFlags : (s.hardReset).startFlags = State.reset.startFlags := rfl
@[simp] theorem hardReset_endFlags : (s.hardReset).endFlags = State.reset.endFlags := rfl
@[simp] theorem hardReset_rttyIdle : (s.hardReset).rttyIdle = State.reset.rttyIdle := rfl
@[simp] theorem hardReset_rttyLen : (s.hardReset).rttyLen = State.reset.rttyLen := rfl
@[simp] theorem hardReset_ax : (s.hardReset).ax = State.reset.ax := rfl
@[simp] theorem hardReset_enc : (s.hardReset).enc = State.reset.enc := rfl
@[simp] theorem hardReset_rtty : (s.hardReset).rtty = State.reset.rtty := rfl
@[simp] theorem hardReset_mode : (s.hardReset).mode = State.reset.mode := rfl
@[simp] theorem hardReset_div : (s.hardReset).div = State.reset.div := rfl
@[simp] theorem hardReset_aux : (s.hardReset).aux = State.reset.aux := rfl
@[simp] theorem hardReset_sym : (s.hardReset).sym = State.reset.sym := rfl
@[simp] theorem hardReset_done : (s.hardReset).done = State.reset.done := rfl
@[simp] theorem hardReset_err : (s.hardReset).err = State.reset.err := rfl
@[simp] theorem hardReset_errCause : (s.hardReset).errCause = State.reset.errCause := rfl
@[simp] theorem hardReset_fcsStale : (s.hardReset).fcsStale = State.reset.fcsStale := rfl
@[simp] theorem hardReset_mem : (s.hardReset).mem = State.reset.mem := rfl
@[simp] theorem hardReset_inputs : (s.hardReset).inputs = s.inputs := rfl
@[simp] theorem hardReset_readData : (s.hardReset).readData = s.readData := rfl

/-! ### clearStatus -/

@[simp] theorem clearStatus_arg (d : Word) : (s.clearStatus d).arg = s.arg :=
  by unfold State.clearStatus; dsimp only; split <;> split <;> rfl
@[simp] theorem clearStatus_result (d : Word) : (s.clearStatus d).result = s.result :=
  by unfold State.clearStatus; dsimp only; split <;> split <;> rfl
@[simp] theorem clearStatus_crc (d : Word) : (s.clearStatus d).crc = s.crc :=
  by unfold State.clearStatus; dsimp only; split <;> split <;> rfl
@[simp] theorem clearStatus_fcs (d : Word) : (s.clearStatus d).fcs = s.fcs :=
  by unfold State.clearStatus; dsimp only; split <;> split <;> rfl
@[simp] theorem clearStatus_config (d : Word) : (s.clearStatus d).config = s.config :=
  by unfold State.clearStatus; dsimp only; split <;> split <;> rfl
@[simp] theorem clearStatus_startFlags (d : Word) : (s.clearStatus d).startFlags = s.startFlags :=
  by unfold State.clearStatus; dsimp only; split <;> split <;> rfl
@[simp] theorem clearStatus_endFlags (d : Word) : (s.clearStatus d).endFlags = s.endFlags :=
  by unfold State.clearStatus; dsimp only; split <;> split <;> rfl
@[simp] theorem clearStatus_rttyIdle (d : Word) : (s.clearStatus d).rttyIdle = s.rttyIdle :=
  by unfold State.clearStatus; dsimp only; split <;> split <;> rfl
@[simp] theorem clearStatus_rttyLen (d : Word) : (s.clearStatus d).rttyLen = s.rttyLen :=
  by unfold State.clearStatus; dsimp only; split <;> split <;> rfl
@[simp] theorem clearStatus_ax (d : Word) : (s.clearStatus d).ax = s.ax :=
  by unfold State.clearStatus; dsimp only; split <;> split <;> rfl
@[simp] theorem clearStatus_enc (d : Word) : (s.clearStatus d).enc = s.enc :=
  by unfold State.clearStatus; dsimp only; split <;> split <;> rfl
@[simp] theorem clearStatus_rtty (d : Word) : (s.clearStatus d).rtty = s.rtty :=
  by unfold State.clearStatus; dsimp only; split <;> split <;> rfl
@[simp] theorem clearStatus_mode (d : Word) : (s.clearStatus d).mode = s.mode :=
  by unfold State.clearStatus; dsimp only; split <;> split <;> rfl
@[simp] theorem clearStatus_div (d : Word) : (s.clearStatus d).div = s.div :=
  by unfold State.clearStatus; dsimp only; split <;> split <;> rfl
@[simp] theorem clearStatus_aux (d : Word) : (s.clearStatus d).aux = s.aux :=
  by unfold State.clearStatus; dsimp only; split <;> split <;> rfl
@[simp] theorem clearStatus_sym (d : Word) : (s.clearStatus d).sym = s.sym :=
  by unfold State.clearStatus; dsimp only; split <;> split <;> rfl
@[simp] theorem clearStatus_done (d : Word) : (s.clearStatus d).done = if d.getLsbD 3 then false else s.done :=
  by unfold State.clearStatus; dsimp only; split <;> split <;> rfl
@[simp] theorem clearStatus_err (d : Word) : (s.clearStatus d).err = if d.getLsbD 7 then false else s.err :=
  by unfold State.clearStatus; dsimp only; split <;> split <;> rfl
@[simp] theorem clearStatus_errCause (d : Word) : (s.clearStatus d).errCause = if d.getLsbD 7 then .none else s.errCause :=
  by unfold State.clearStatus; dsimp only; split <;> split <;> rfl
@[simp] theorem clearStatus_fcsStale (d : Word) : (s.clearStatus d).fcsStale = s.fcsStale :=
  by unfold State.clearStatus; dsimp only; split <;> split <;> rfl
@[simp] theorem clearStatus_mem (d : Word) : (s.clearStatus d).mem = s.mem :=
  by unfold State.clearStatus; dsimp only; split <;> split <;> rfl
@[simp] theorem clearStatus_inputs (d : Word) : (s.clearStatus d).inputs = s.inputs :=
  by unfold State.clearStatus; dsimp only; split <;> split <;> rfl
@[simp] theorem clearStatus_readData (d : Word) : (s.clearStatus d).readData = s.readData :=
  by unfold State.clearStatus; dsimp only; split <;> split <;> rfl

end Sys2Proof.Machine
end

