-- ==== Sys2Proof/Laws/Ops.lean ====
section
/-! SUPPORT. What each shared operation can do, said once. -/

namespace Sys2Proof.Machine

@[simp] theorem raiseError_eq (c : ErrCause) (s : State) : raiseError c s = .next (s.recordError c) := rfl

theorem whenIdle_idle {s : State} (act : State → Result) (h : s.mode = .idle) : whenIdle s act = act s := by
  simp [whenIdle, h]

theorem whenIdle_busy {s : State} (act : State → Result) (h : s.mode ≠ .idle) :
    whenIdle s act = .next (s.recordError .busy) := by
  simp [whenIdle, h]

/-- An operation under the busy rule either runs in IDLE, or records BUSY and does nothing else. -/
theorem whenIdle_next {s t : State} {act : State → Result} (h : whenIdle s act = .next t) :
    (s.mode = .idle ∧ act s = .next t) ∨ (s.mode ≠ .idle ∧ t = s.recordError .busy) := by
  by_cases hm : s.mode = .idle
  · exact .inl ⟨hm, by rwa [whenIdle_idle act hm] at h⟩
  · rw [whenIdle_busy act hm] at h
    exact .inr ⟨hm, by injection h with h; exact h.symm⟩

@[simp] theorem orFault_ok (s : State) : orFault (.ok s) = .next s := rfl

@[simp] theorem orFault_error (f : Fault) : orFault (.error f) = .fault f := rfl

theorem orFault_next {r : Except Fault State} {t : State} (h : orFault r = .next t) : r = .ok t := by
  cases r with
  | ok s => injection h with h; rw [h]
  | error f => cases h

/-- An operation over a producer answers a next state exactly from what the producer gives. -/
theorem orFault_map_next {α : Type} {r : Except Fault α} {g : α → State} {t : State}
    (h : orFault (r.map g) = .next t) : ∃ p, r = .ok p ∧ t = g p := by
  cases r with
  | ok p => injection h with h; exact ⟨p, rfl, h.symm⟩
  | error f => cases h

theorem needByte_eq (s : State) (b : Buf) (i : Nat) :
    s.needByte b i = match s.readBuf b i with | some v => .ok v | none => .error (.uninit b i) := rfl

theorem needByte_of_some {s : State} {b : Buf} {i : Nat} {v : Byte} (h : s.readBuf b i = some v) :
    s.needByte b i = .ok v := by
  simp [needByte_eq, h]

theorem needByte_of_none {s : State} {b : Buf} {i : Nat} (h : s.readBuf b i = none) :
    s.needByte b i = .error (.uninit b i) := by
  simp [needByte_eq, h]

theorem needByte_ok {s : State} {b : Buf} {i : Nat} {v : Byte} (h : s.needByte b i = .ok v) :
    s.readBuf b i = some v := by
  rw [needByte_eq] at h
  split at h
  · injection h with h; rw [← h]; assumption
  · cases h

/-- The bytes an operation needs are those of the buffer, in order. -/
theorem needBytes_ok (s : State) (b : Buf) (vs : List Byte) (i : Nat)
    (h : ∀ k, k < vs.length → s.readBuf b (i + k) = vs[k]?) : s.needBytes b i vs.length = .ok vs := by
  induction vs generalizing i with
  | nil => rfl
  | cons v vs ih =>
    have h0 : s.readBuf b i = some v := by simpa using h 0 (by simp)
    have h1 : s.needBytes b (i + 1) vs.length = .ok vs := by
      refine ih (i + 1) fun k hk => ?_
      have := h (k + 1) (by simpa using hk)
      simpa [Nat.add_assoc, Nat.add_comm 1 k] using this
    simp [State.needBytes, needByte_of_some h0, h1]

/-- An operation faults on a byte that is not written. -/
theorem needBytes_error (s : State) (b : Buf) (n i : Nat) (h : ∃ k, k < n ∧ s.readBuf b (i + k) = none) :
    ∃ k, k < n ∧ s.readBuf b (i + k) = none ∧ s.needBytes b i n = .error (.uninit b (i + k)) := by
  induction n generalizing i with
  | zero => obtain ⟨k, hk, _⟩ := h; omega
  | succ n ih =>
    cases hb : s.readBuf b i with
    | none => exact ⟨0, by omega, by simpa using hb, by simp [State.needBytes, needByte_of_none hb]⟩
    | some v =>
      obtain ⟨k, hk, hn⟩ := h
      have hk0 : k ≠ 0 := by rintro rfl; simp [hb] at hn
      obtain ⟨k', hk', hr, he⟩ := ih (i + 1) ⟨k - 1, by omega, by rw [← hn]; congr 1; omega⟩
      refine ⟨k' + 1, by omega, by rw [← hr]; congr 1; omega, ?_⟩
      simp only [State.needBytes, needByte_of_some hb, he]
      congr 2
      omega

theorem needBuf_of_holds {s : State} {b : Buf} {vs : List Byte} (hl : vs.length = b.size) (h : s.Holds b vs) :
    s.needBuf b = .ok vs := by
  rw [State.needBuf, ← hl]
  exact needBytes_ok s b vs 0 fun k hk => by simpa using h.2 k hk

theorem needBuf_error {s : State} {b : Buf} (h : ∃ k, k < b.size ∧ s.readBuf b k = none) :
    ∃ k, k < b.size ∧ s.readBuf b k = none ∧ s.needBuf b = .error (.uninit b k) := by
  have := needBytes_error s b b.size 0 (by simpa using h)
  simpa [State.needBuf] using this

theorem needBuf_ok_or_fault (s : State) (b : Buf) :
    (∃ vs, s.needBuf b = .ok vs) ∨ ∃ k, s.needBuf b = .error (.uninit b k) := by
  suffices H : ∀ n i, (∃ vs, s.needBytes b i n = .ok vs) ∨ ∃ k, s.needBytes b i n = .error (.uninit b k) from H _ _
  intro n
  induction n with
  | zero => exact fun i => .inl ⟨[], rfl⟩
  | succ n ih =>
    intro i
    cases hb : s.readBuf b i with
    | none => exact .inr ⟨i, by simp [State.needBytes, needByte_of_none hb]⟩
    | some v =>
      rcases ih (i + 1) with ⟨vs, hv⟩ | ⟨k, hk⟩
      · exact .inl ⟨v :: vs, by simp [State.needBytes, needByte_of_some hb, hv]⟩
      · exact .inr ⟨k, by simp [State.needBytes, needByte_of_some hb, hk]⟩

/-- A write to STATUS as one update (R283). -/
theorem clearStatus_eq (s : State) (d : Word) :
    s.clearStatus d = { s with
      done := s.done && !d.getLsbD 3, err := s.err && !d.getLsbD 7,
      errCause := if d.getLsbD 7 then .none else s.errCause } := by
  unfold State.clearStatus State.clearError
  cases h3 : d.getLsbD 3 <;> cases h7 : d.getLsbD 7 <;> simp

/-- The end of a transmission that may come, as one update (R255). -/
theorem endTransmission_if (b : Bool) (t : State) :
    (if b then t.endTransmission else t) =
      { t with mode := if b then .idle else t.mode, done := if b then true else t.done } := by
  cases b <;> rfl

/-- A legal message length (R222). -/
theorem rttyLenOk_iff (s : State) : s.rttyLenOk = true ↔ 1 ≤ s.rttyLen.toNat ∧ s.rttyLen.toNat ≤ 256 := by
  unfold State.rttyLenOk Config.msgLen
  rw [Bool.and_eq_true, decide_eq_true_iff, decide_eq_true_iff]
  exact Iff.rfl

/-- A stuffed bit is pending (43_bitstuff_nrzi.md R191). -/
theorem stuffPending_iff (e : BitEncoder) : e.stuffPending = true ↔ e.stuff = true ∧ e.ones = 5#3 := by
  unfold BitEncoder.stuffPending
  rw [Bool.and_eq_true, beq_iff_eq]

/-- The pipeline is at its end (43_bitstuff_nrzi.md R198). -/
theorem aprsEnd_iff (s : State) :
    s.aprsEnd = true ↔ s.ax.finished = true ∧ s.enc.bl = 0#4 ∧ ¬ (s.enc.stuff = true ∧ s.enc.ones = 5#3) := by
  unfold State.aprsEnd
  rw [Bool.and_eq_true, Bool.and_eq_true, beq_iff_eq, and_assoc, Bool.not_eq_true', ← stuffPending_iff,
    Bool.not_eq_true]

/-! ### Sequences of operations -/

@[simp] theorem execList_nil (s : State) : execList [] s = .next s := rfl

theorem execList_cons_next {i : Instr} {is : List Instr} {s t : State} (h : exec i s = .next t) :
    execList (i :: is) s = execList is t := by
  simp [execList, h]

/-- A sequence runs its first part and then its second. -/
theorem execList_append_next {is js : List Instr} {s t : State} (h : execList is s = .next t) :
    execList (is ++ js) s = execList js t := by
  induction is generalizing s with
  | nil => injection h with h; rw [List.nil_append, h]
  | cons i is ih =>
    simp only [execList] at h
    simp only [List.cons_append, execList]
    cases hi : exec i s with
    | next u => simp only [hi] at h; exact ih h
    | fault f => simp [hi] at h
    | refused r => simp [hi] at h

end Sys2Proof.Machine
end

