-- ==== Sys2Proof/Laws/Producers.lean ====
section
/-! SUPPORT. What the byte producer, the bit producer and the RTTY bit producer can do, said once. -/

namespace Sys2Proof.Machine

/-! ### The byte producer -/

theorem emitBufByte_of_some {s : State} {b : Buf} {v : Byte} (f : FrameFsm)
    (h : s.readBuf b s.ax.idx.toNat = some v) : emitBufByte s b f = .ok (⟨v, true⟩, { s with ax := f }) := by
  simp [emitBufByte, needByte_of_some h, Except.map]

theorem emitBufByte_of_none {s : State} {b : Buf} (f : FrameFsm) (h : s.readBuf b s.ax.idx.toNat = none) :
    emitBufByte s b f = .error (.uninit b s.ax.idx.toNat) := by
  simp [emitBufByte, needByte_of_none h, Except.map]

theorem emitBufByte_ok {s t : State} {b : Buf} {f : FrameFsm} {o : ByteOut} (h : emitBufByte s b f = .ok (o, t)) :
    s.readBuf b s.ax.idx.toNat = some o.byte ∧ o.st = true ∧ t = { s with ax := f } := by
  cases hb : s.readBuf b s.ax.idx.toNat with
  | none => rw [emitBufByte_of_none f hb] at h; cases h
  | some v =>
    rw [emitBufByte_of_some f hb] at h
    injection h with h
    injection h with h1 h2
    subst h1 h2
    exact ⟨rfl, rfl, rfl⟩

/-- The arms of the byte producer: which byte comes out, with which attribute, and where the FSM goes. -/
inductive ByteArm (s : State) : ByteOut → FrameFsm → Prop where
  | openFlag (h : s.ax.state = .init ∨ s.ax.state = .startFlags) :
      ByteArm s ⟨Config.flagByte, false⟩ (s.ax.enter.count s.startFlags .header)
  | header (v : Byte) (h : s.ax.state = .header) (hv : s.readBuf .hdr s.ax.idx.toNat = some v) :
      ByteArm s ⟨v, true⟩ (s.ax.count (BitVec.ofNat 8 Config.hdrLen) .data)
  | data (v : Byte) (h : s.ax.state = .data) (hv : s.readBuf .info s.ax.idx.toNat = some v) :
      ByteArm s ⟨v, true⟩ (s.ax.count (BitVec.ofNat 8 Config.infoLen) .fcs1)
  | fcs1 (h : s.ax.state = .fcs1) : ByteArm s ⟨s.fcsFirst, true⟩ { s.ax with state := .fcs2 }
  | fcs2 (h : s.ax.state = .fcs2) : ByteArm s ⟨s.fcsSecond, true⟩ { s.ax with state := .endFlags, idx := 0#8 }
  | closeFlag (h : s.ax.state = .endFlags) : ByteArm s ⟨Config.flagByte, false⟩ (s.ax.countEnd s.endFlags)

theorem FrameFsm.enter_of_ne_init {f : FrameFsm} (h : f.state ≠ .init) : f.enter = f := by
  unfold FrameFsm.enter
  split <;> simp_all

theorem FrameFsm.enter_of_init {f : FrameFsm} (h : f.state = .init) :
    f.enter = { f with state := .startFlags, idx := 0#8 } := by
  simp [FrameFsm.enter, h]

/-- A byte the producer gives comes from one of its arms, and only the frame FSM changes. -/
theorem nextByte_ok {s t : State} {o : ByteOut} (h : nextByte s = .ok (o, t)) :
    ∃ f, ByteArm s o f ∧ t = { s with ax := f } := by
  cases hs : s.ax.state with
  | init =>
    simp only [nextByte, emitByte, FrameFsm.enter_of_init hs, Except.ok.injEq, Prod.mk.injEq] at h
    obtain ⟨h1, h2⟩ := h
    subst h1 h2
    refine ⟨_, .openFlag (.inl hs), ?_⟩
    rw [FrameFsm.enter_of_init hs]
  | startFlags =>
    simp only [nextByte, emitByte, FrameFsm.enter_of_ne_init (f := s.ax) (by simp [hs]), hs, Except.ok.injEq,
      Prod.mk.injEq] at h
    obtain ⟨h1, h2⟩ := h
    subst h1 h2
    refine ⟨_, .openFlag (.inr hs), ?_⟩
    rw [FrameFsm.enter_of_ne_init (f := s.ax) (by simp [hs])]
  | header =>
    simp only [nextByte, emitByte, FrameFsm.enter_of_ne_init (f := s.ax) (by simp [hs]), hs] at h
    obtain ⟨hv, hst, ht⟩ := emitBufByte_ok h
    obtain ⟨v, st⟩ := o
    subst hst ht
    exact ⟨_, .header v hs hv, rfl⟩
  | data =>
    simp only [nextByte, emitByte, FrameFsm.enter_of_ne_init (f := s.ax) (by simp [hs]), hs] at h
    obtain ⟨hv, hst, ht⟩ := emitBufByte_ok h
    obtain ⟨v, st⟩ := o
    subst hst ht
    exact ⟨_, .data v hs hv, rfl⟩
  | fcs1 =>
    simp only [nextByte, emitByte, FrameFsm.enter_of_ne_init (f := s.ax) (by simp [hs]), hs, Except.ok.injEq,
      Prod.mk.injEq] at h
    obtain ⟨h1, h2⟩ := h
    subst h1 h2
    exact ⟨_, .fcs1 hs, rfl⟩
  | fcs2 =>
    simp only [nextByte, emitByte, FrameFsm.enter_of_ne_init (f := s.ax) (by simp [hs]), hs, Except.ok.injEq,
      Prod.mk.injEq] at h
    obtain ⟨h1, h2⟩ := h
    subst h1 h2
    exact ⟨_, .fcs2 hs, rfl⟩
  | endFlags =>
    simp only [nextByte, emitByte, FrameFsm.enter_of_ne_init (f := s.ax) (by simp [hs]), hs, Except.ok.injEq,
      Prod.mk.injEq] at h
    obtain ⟨h1, h2⟩ := h
    subst h1 h2
    exact ⟨_, .closeFlag hs, rfl⟩

/-- The producer gives what an arm says. -/
theorem nextByte_of_arm {s : State} {o : ByteOut} {f : FrameFsm} (h : ByteArm s o f) :
    nextByte s = .ok (o, { s with ax := f }) := by
  cases h with
  | openFlag h =>
    rcases h with hs | hs
    · simp [nextByte, emitByte, FrameFsm.enter_of_init hs]
    · simp [nextByte, emitByte, FrameFsm.enter_of_ne_init (f := s.ax) (by simp [hs]), hs]
  | header v hs hv =>
    simp only [nextByte, FrameFsm.enter_of_ne_init (f := s.ax) (by simp [hs]), emitByte, hs]
    exact emitBufByte_of_some _ hv
  | data v hs hv =>
    simp only [nextByte, FrameFsm.enter_of_ne_init (f := s.ax) (by simp [hs]), emitByte, hs]
    exact emitBufByte_of_some _ hv
  | fcs1 hs => simp [nextByte, emitByte, FrameFsm.enter_of_ne_init (f := s.ax) (by simp [hs]), hs]
  | fcs2 hs => simp [nextByte, emitByte, FrameFsm.enter_of_ne_init (f := s.ax) (by simp [hs]), hs]
  | closeFlag hs => simp [nextByte, emitByte, FrameFsm.enter_of_ne_init (f := s.ax) (by simp [hs]), hs]

/-- The producer faults only on an unwritten header or information byte. -/
theorem nextByte_error {s : State} {x : Fault} (h : nextByte s = .error x) :
    (s.ax.state = .header ∧ s.readBuf .hdr s.ax.idx.toNat = none ∧ x = .uninit .hdr s.ax.idx.toNat) ∨
    (s.ax.state = .data ∧ s.readBuf .info s.ax.idx.toNat = none ∧ x = .uninit .info s.ax.idx.toNat) := by
  have arm : ∀ o f, ByteArm s o f → False := fun o f ha => by rw [nextByte_of_arm ha] at h; cases h
  cases hs : s.ax.state with
  | init => exact (arm _ _ (.openFlag (.inl hs))).elim
  | startFlags => exact (arm _ _ (.openFlag (.inr hs))).elim
  | fcs1 => exact (arm _ _ (.fcs1 hs)).elim
  | fcs2 => exact (arm _ _ (.fcs2 hs)).elim
  | endFlags => exact (arm _ _ (.closeFlag hs)).elim
  | header =>
    cases hb : s.readBuf .hdr s.ax.idx.toNat with
    | some v => exact (arm _ _ (.header v hs hb)).elim
    | none =>
      simp only [nextByte, FrameFsm.enter_of_ne_init (f := s.ax) (by simp [hs]), emitByte, hs] at h
      rw [emitBufByte_of_none _ hb] at h
      injection h with h
      exact .inl ⟨rfl, rfl, h.symm⟩
  | data =>
    cases hb : s.readBuf .info s.ax.idx.toNat with
    | some v => exact (arm _ _ (.data v hs hb)).elim
    | none =>
      simp only [nextByte, FrameFsm.enter_of_ne_init (f := s.ax) (by simp [hs]), emitByte, hs] at h
      rw [emitBufByte_of_none _ hb] at h
      injection h with h
      exact .inr ⟨rfl, rfl, h.symm⟩

/-! ### The bit producer -/

theorem nextBit_of_pending {s : State} (h : s.enc.stuffPending = true) :
    nextBit s = .ok (⟨!s.enc.level, false, true⟩, { s with enc := s.enc.insertStuffed }) := by
  simp [nextBit, h, BitEncoder.insertStuffed, nrzi]

theorem nextBit_of_unsent {s : State} (h : s.enc.stuffPending = false) (hb : s.enc.bl ≠ 0#4) :
    nextBit s = .ok (⟨s.enc.sendBit.level, s.enc.sr.getLsbD 0, false⟩, { s with enc := s.enc.sendBit }) := by
  simp [nextBit, h, loadIfEmpty, hb, Except.map]

theorem nextBit_of_load {s t : State} {o : ByteOut} (h : s.enc.stuffPending = false) (hb : s.enc.bl = 0#4)
    (hn : nextByte s = .ok (o, t)) :
    nextBit s = .ok (⟨(t.enc.load o).sendBit.level, o.byte.getLsbD 0, false⟩,
      { t with enc := (t.enc.load o).sendBit }) := by
  simp [nextBit, h, loadIfEmpty, hb, hn, Except.map, BitEncoder.load]

/-- The arms of the bit producer: a stuffed 0, an unsent bit of the current byte, or the first bit of a byte just pulled;
what comes out, and what the frame FSM and the bit encoder become. -/
inductive BitArm (s : State) : BitOut → FrameFsm → BitEncoder → Prop where
  | stuffed (h : s.enc.stuffPending = true) : BitArm s ⟨!s.enc.level, false, true⟩ s.ax s.enc.insertStuffed
  | unsent (h : s.enc.stuffPending = false) (hb : s.enc.bl ≠ 0#4) :
      BitArm s ⟨s.enc.sendBit.level, s.enc.sr.getLsbD 0, false⟩ s.ax s.enc.sendBit
  | loaded (h : s.enc.stuffPending = false) (hb : s.enc.bl = 0#4) (b : ByteOut) (f : FrameFsm) (ha : ByteArm s b f) :
      BitArm s ⟨(s.enc.load b).sendBit.level, b.byte.getLsbD 0, false⟩ f (s.enc.load b).sendBit

/-- The producer gives what an arm says. -/
theorem nextBit_of_arm {s : State} {o : BitOut} {f : FrameFsm} {e : BitEncoder} (h : BitArm s o f e) :
    nextBit s = .ok (o, { s with ax := f, enc := e }) := by
  cases h with
  | stuffed h => exact nextBit_of_pending h
  | unsent h hb => exact nextBit_of_unsent h hb
  | loaded h hb b f ha => exact nextBit_of_load h hb (nextByte_of_arm ha)

/-- The producer gives a line bit by one of its arms, or faults where the byte producer faults. -/
theorem nextBit_cases (s : State) :
    (∃ o f e, BitArm s o f e) ∨
    (s.enc.stuffPending = false ∧ s.enc.bl = 0#4 ∧ ∃ x, nextByte s = .error x ∧ nextBit s = .error x) := by
  cases hp : s.enc.stuffPending with
  | true => exact .inl ⟨_, _, _, .stuffed hp⟩
  | false =>
    by_cases hb : s.enc.bl = 0#4
    · cases hn : nextByte s with
      | error x => exact .inr ⟨rfl, hb, x, rfl, by simp [nextBit, hp, loadIfEmpty, hb, hn, Except.map]⟩
      | ok p =>
        obtain ⟨f, ha, -⟩ := nextByte_ok (o := p.1) (t := p.2) hn
        exact .inl ⟨_, _, _, .loaded hp hb p.1 f ha⟩
    · exact .inl ⟨_, _, _, .unsent hp hb⟩

/-- A line bit the producer gives comes from one of its arms; only the frame FSM and the bit encoder change. -/
theorem nextBit_ok {s t : State} {o : BitOut} (h : nextBit s = .ok (o, t)) :
    ∃ f e, BitArm s o f e ∧ t = { s with ax := f, enc := e } := by
  rcases nextBit_cases s with ⟨o', f, e, ha⟩ | ⟨_, _, x, _, he⟩
  · rw [nextBit_of_arm ha] at h
    injection h with h; injection h with h1 h2
    subst h1 h2
    exact ⟨f, e, ha, rfl⟩
  · rw [he] at h; cases h

/-- What a byte arm reads: the frame FSM, the flag counts, the FCS with its order, and memory. -/
theorem ByteArm.congr {s t : State} {o : ByteOut} {f : FrameFsm} (h : ByteArm s o f) (hax : t.ax = s.ax)
    (hsf : t.startFlags = s.startFlags) (hef : t.endFlags = s.endFlags) (hfcs : t.fcs = s.fcs)
    (hc : t.config = s.config) (hm : t.mem = s.mem) : ByteArm t o f := by
  have e1 : t.fcsFirst = s.fcsFirst := by unfold State.fcsFirst State.fcsSwap; rw [hc, hfcs]
  have e2 : t.fcsSecond = s.fcsSecond := by unfold State.fcsSecond State.fcsSwap; rw [hc, hfcs]
  cases h with
  | openFlag h => rw [← hax, ← hsf]; exact .openFlag (by rw [hax]; exact h)
  | header v h hv => rw [← hax]; exact .header v (by rw [hax]; exact h) (by rw [hax, readBuf_congr hm]; exact hv)
  | data v h hv => rw [← hax]; exact .data v (by rw [hax]; exact h) (by rw [hax, readBuf_congr hm]; exact hv)
  | fcs1 h => rw [← hax, ← e1]; exact .fcs1 (by rw [hax]; exact h)
  | fcs2 h => rw [← hax, ← e2]; exact .fcs2 (by rw [hax]; exact h)
  | closeFlag h => rw [← hax, ← hef]; exact .closeFlag (by rw [hax]; exact h)

/-- What a bit arm reads: the bit encoder, and what a byte arm reads. -/
theorem BitArm.congr {s t : State} {o : BitOut} {f : FrameFsm} {e : BitEncoder} (h : BitArm s o f e) (henc : t.enc = s.enc)
    (hax : t.ax = s.ax) (hsf : t.startFlags = s.startFlags) (hef : t.endFlags = s.endFlags) (hfcs : t.fcs = s.fcs)
    (hc : t.config = s.config) (hm : t.mem = s.mem) : BitArm t o f e := by
  cases h with
  | stuffed h => rw [← hax, ← henc]; exact .stuffed (by rw [henc]; exact h)
  | unsent h hb => rw [← hax, ← henc]; exact .unsent (by rw [henc]; exact h) (by rw [henc]; exact hb)
  | loaded h hb b f ha =>
    rw [← henc]
    exact .loaded (by rw [henc]; exact h) (by rw [henc]; exact hb) b f (ha.congr hax hsf hef hfcs hc hm)

/-! ### The RTTY bit producer -/

/-- A line bit of the RTTY producer changes the RTTY FSM alone. -/
theorem rttyNextBit_ok {s t : State} {b : Bool} (h : rttyNextBit s = .ok (b, t)) : t = { s with rtty := t.rtty } := by
  have start : ∀ u : State, rttyStart u = .ok (b, t) → t = { u with rtty := t.rtty } := by
    intro u hu
    unfold rttyStart at hu
    cases hv : u.needByte .msg u.rtty.cidx.toNat with
    | error x => simp [hv, Except.map] at hu
    | ok v =>
      simp only [hv, Except.map, Except.ok.injEq, Prod.mk.injEq] at hu
      rw [← hu.2]
  unfold rttyNextBit at h
  split at h
  · unfold rttyIdle at h
    split at h
    · exact start _ h
    · simp only [Except.ok.injEq, Prod.mk.injEq] at h
      rw [← h.2]
  · exact start s h
  all_goals
    simp only [Except.ok.injEq, Prod.mk.injEq] at h
    rw [← h.2]

theorem rttyStart_of_some {s : State} {v : Byte} (h : s.readBuf .msg s.rtty.cidx.toNat = some v) :
    rttyStart s =
      .ok (false, { s with rtty := { s.rtty with ch := v.extractLsb' 0 7, bidx := 0#3, state := .character } }) := by
  simp [rttyStart, needByte_of_some h, Except.map]

theorem rttyStart_of_none {s : State} (h : s.readBuf .msg s.rtty.cidx.toNat = none) :
    rttyStart s = .error (.uninit .msg s.rtty.cidx.toNat) := by
  simp [rttyStart, needByte_of_none h, Except.map]

theorem rttyNextBit_of_idleBit {s : State} (h : s.rtty.state = .idle) (hi : s.rtty.idleLeft ≠ 0#16) :
    rttyNextBit s = .ok (s.rttyIdleBit, { s with rtty := { s.rtty with
      idleLeft := s.rtty.idleLeft - 1#16,
      state := if s.rtty.idleLeft - 1#16 = 0#16 then .start else .idle } }) := by
  simp [rttyNextBit, h, rttyIdle, hi]

/-- The start bit, from Start or from an Idle with no idle bit left. -/
theorem rttyNextBit_of_start {s : State} {v : Byte}
    (h : s.rtty.state = .start ∨ (s.rtty.state = .idle ∧ s.rtty.idleLeft = 0#16))
    (hv : s.readBuf .msg s.rtty.cidx.toNat = some v) :
    rttyNextBit s =
      .ok (false, { s with rtty := { s.rtty with ch := v.extractLsb' 0 7, bidx := 0#3, state := .character } }) := by
  rcases h with h | ⟨h, hi⟩
  · simp only [rttyNextBit, h]
    exact rttyStart_of_some hv
  · simp only [rttyNextBit, h, rttyIdle, if_pos hi]
    exact rttyStart_of_some hv

theorem rttyNextBit_of_character {s : State} (h : s.rtty.state = .character) :
    rttyNextBit s = .ok (s.rtty.ch.getLsbD s.rtty.bidx.toNat, { s with rtty := s.rtty.afterDataBit }) := by
  simp [rttyNextBit, h]

theorem rttyNextBit_of_stop1 {s : State} (h : s.rtty.state = .stop1) :
    rttyNextBit s = .ok (true, { s with rtty := { s.rtty with state := .stop2 } }) := by
  simp [rttyNextBit, h]

theorem rttyNextBit_of_stop2 {s : State} (h : s.rtty.state = .stop2) :
    rttyNextBit s = .ok (true, { s with rtty := s.rtty.afterStop2 }) := by
  simp [rttyNextBit, h]

/-! ### The arms of the RTTY bit producer -/

/-- The arms of the RTTY bit producer: which bit comes out, and where the FSM goes. -/
inductive RttyArm (s : State) : Bool → RttyFsm → Prop where
  | idleBit (h : s.rtty.state = .idle) (hi : s.rtty.idleLeft ≠ 0#16) :
      RttyArm s s.rttyIdleBit { s.rtty with
        idleLeft := s.rtty.idleLeft - 1#16,
        state := if s.rtty.idleLeft - 1#16 = 0#16 then .start else .idle }
  | startBit (v : Byte) (h : s.rtty.state = .start ∨ (s.rtty.state = .idle ∧ s.rtty.idleLeft = 0#16))
      (hv : s.readBuf .msg s.rtty.cidx.toNat = some v) :
      RttyArm s false { s.rtty with ch := v.extractLsb' 0 7, bidx := 0#3, state := .character }
  | dataBit (h : s.rtty.state = .character) :
      RttyArm s (s.rtty.ch.getLsbD s.rtty.bidx.toNat) s.rtty.afterDataBit
  | firstStop (h : s.rtty.state = .stop1) : RttyArm s true { s.rtty with state := .stop2 }
  | secondStop (h : s.rtty.state = .stop2) : RttyArm s true s.rtty.afterStop2

/-- The producer gives what an arm says. -/
theorem rttyNextBit_of_arm {s : State} {b : Bool} {r : RttyFsm} (h : RttyArm s b r) :
    rttyNextBit s = .ok (b, { s with rtty := r }) := by
  cases h with
  | idleBit h hi => exact rttyNextBit_of_idleBit h hi
  | startBit v h hv => exact rttyNextBit_of_start h hv
  | dataBit h => exact rttyNextBit_of_character h
  | firstStop h => exact rttyNextBit_of_stop1 h
  | secondStop h => exact rttyNextBit_of_stop2 h

/-- The producer faults where the character to start on is unwritten. -/
theorem rttyNextBit_of_start_none {s : State}
    (h : s.rtty.state = .start ∨ (s.rtty.state = .idle ∧ s.rtty.idleLeft = 0#16))
    (hv : s.readBuf .msg s.rtty.cidx.toNat = none) :
    rttyNextBit s = .error (.uninit .msg s.rtty.cidx.toNat) := by
  rcases h with h | ⟨h, hi⟩
  · simp only [rttyNextBit, h]
    exact rttyStart_of_none hv
  · simp only [rttyNextBit, h, rttyIdle, if_pos hi]
    exact rttyStart_of_none hv

/-- The producer gives a bit by one of its arms, or is about to start on an unwritten character. -/
theorem rttyNextBit_cases (s : State) :
    (∃ b r, RttyArm s b r) ∨
    ((s.rtty.state = .start ∨ (s.rtty.state = .idle ∧ s.rtty.idleLeft = 0#16)) ∧
      s.readBuf .msg s.rtty.cidx.toNat = none) := by
  by_cases h : s.rtty.state = .start ∨ (s.rtty.state = .idle ∧ s.rtty.idleLeft = 0#16)
  · cases hv : s.readBuf .msg s.rtty.cidx.toNat with
    | some v => exact .inl ⟨_, _, .startBit v h hv⟩
    | none => exact .inr ⟨h, rfl⟩
  · left
    cases hs : s.rtty.state with
    | idle => exact ⟨_, _, .idleBit hs fun hi => h (.inr ⟨hs, hi⟩)⟩
    | start => exact (h (.inl hs)).elim
    | character => exact ⟨_, _, .dataBit hs⟩
    | stop1 => exact ⟨_, _, .firstStop hs⟩
    | stop2 => exact ⟨_, _, .secondStop hs⟩

/-- A bit the producer gives comes from one of its arms, and only the RTTY FSM changes. -/
theorem rttyNextBit_arm {s t : State} {b : Bool} (h : rttyNextBit s = .ok (b, t)) :
    ∃ r, RttyArm s b r ∧ t = { s with rtty := r } := by
  rcases rttyNextBit_cases s with ⟨b', r, ha⟩ | ⟨hs, hv⟩
  · rw [rttyNextBit_of_arm ha] at h
    injection h with h; injection h with h1 h2
    subst h1 h2
    exact ⟨r, ha, rfl⟩
  · rw [rttyNextBit_of_start_none hs hv] at h; cases h

end Sys2Proof.Machine
end

