-- ==== Sys2Proof/Laws/Bus.lean ====
section
/-! SUPPORT. The address map, and which operation a bus write carries out. -/

namespace Sys2Proof.Machine

theorem wordOffset_eq (a : Addr) : wordOffset a = a.toNat / 4 * 4 := by
  simp only [wordOffset, BitVec.extractLsb'_toNat, Nat.shiftRight_eq_div_pow]
  have := a.isLt
  omega

theorem isCmdAddr_eq (a : Addr) : isCmdAddr a = decide (a.toNat < 4) := by
  rw [Bool.eq_iff_iff]
  simp only [isCmdAddr, beq_iff_eq, decide_eq_true_eq, ← BitVec.toNat_inj, BitVec.extractLsb'_toNat,
    Nat.shiftRight_eq_div_pow]
  have := a.isLt
  simp
  omega

/-- A buffer's bytes are no bytes of another buffer. -/
theorem Buf.covers_other {b c : Buf} {i : Nat} (hi : i < b.size) (h : c ≠ b) : Buf.covers c (b.addr i) = false := by
  rw [Bool.eq_false_iff]
  intro hc
  simp only [Buf.covers, Bool.and_eq_true, decide_eq_true_eq] at hc
  unfold Buf.addr at hc
  cases b <;> cases c <;> first | exact h rfl | skip
  all_goals
    simp only [Buf.base, Buf.size, Config.hdrLen, Config.infoLen, Config.msgLen] at hi hc
    omega

/-- A buffer byte's address selects that byte. -/
theorem bufLocation_addr (b : Buf) (i : Nat) (hi : i < b.size) : bufLocation (b.addr i) = .buf b i := by
  have e : (b.addr i - b.base) / 4 = i := by unfold Buf.addr; omega
  have hc := Buf.covers_addr b i hi
  unfold bufLocation
  cases b with
  | hdr => rw [if_pos hc, e]
  | info => rw [if_neg (by simp [Buf.covers_other hi]), if_pos hc, e]
  | msg => rw [if_neg (by simp [Buf.covers_other hi]), if_neg (by simp [Buf.covers_other hi]), if_pos hc, e]

/-- The register map holds no offset above 0x3C. -/
theorem registerMap_lookup_none (o : Nat) (h : 0x3C < o) : registerMap.lookup o = none := by
  have hne : ∀ k, k ≤ 0x3C → (o == k) = false := fun k hk => by simp; omega
  simp [registerMap, List.lookup, hne]

theorem location_buf {a : Addr} {b : Buf} {i : Nat} (hi : i < b.size) (h : a.toNat / 4 * 4 = b.addr i) :
    location a = .buf b i := by
  have hb : 0x3C < b.addr i := by cases b <;> simp only [Buf.addr, Buf.base] <;> omega
  rw [location, wordOffset_eq, h, registerMap_lookup_none _ hb]
  exact bufLocation_addr b i hi

theorem location_reg {a : Addr} {o : Nat} {l : Location} (h : a.toNat / 4 * 4 = o) (hl : registerMap.lookup o = some l) :
    location a = l := by
  rw [location, wordOffset_eq, h, hl]

/-- A location that is a buffer byte is one of its buffer's bytes, at that byte's offset. -/
theorem location_eq_buf {a : Addr} {b : Buf} {i : Nat} (h : location a = .buf b i) :
    i < b.size ∧ a.toNat / 4 * 4 = b.addr i := by
  rw [location, wordOffset_eq] at h
  generalize ho : a.toNat / 4 * 4 = o at h
  have key : ∀ c : Buf, Buf.covers c o = true → (o - c.base) / 4 < c.size ∧ o = c.addr ((o - c.base) / 4) := by
    intro c hc
    simp only [Buf.covers, Bool.and_eq_true, decide_eq_true_eq] at hc
    unfold Buf.addr
    omega
  by_cases hs : 0x3C < o
  · rw [registerMap_lookup_none o hs] at h
    simp only [bufLocation] at h
    split at h
    · rename_i hc; injection h with h1 h2; subst h1 h2; exact key _ hc
    · split at h
      · rename_i hc; injection h with h1 h2; subst h1 h2; exact key _ hc
      · split at h
        · rename_i hc; injection h with h1 h2; subst h1 h2; exact key _ hc
        · cases h
  · have h4 : o = 0 ∨ o = 4 ∨ o = 8 ∨ o = 12 ∨ o = 16 ∨ o = 20 ∨ o = 24 ∨ o = 28 ∨ o = 32 ∨ o = 36 ∨ o = 40 ∨ o = 44 ∨
        o = 48 ∨ o = 52 ∨ o = 56 ∨ o = 60 := by omega
    rcases h4 with rfl | rfl | rfl | rfl | rfl | rfl | rfl | rfl | rfl | rfl | rfl | rfl | rfl | rfl | rfl | rfl <;>
      exact Location.noConfusion h

theorem location_cmd {a : Addr} (h : a.toNat < 4) : location a = .cmd :=
  location_reg (o := 0) (by omega) rfl

/-- A location the register map gives stands in the map. -/
theorem mem_of_lookup {α β : Type} [BEq α] [LawfulBEq α] {k : α} {v : β} {l : List (α × β)}
    (h : l.lookup k = some v) : (k, v) ∈ l := by
  induction l with
  | nil => cases h
  | cons p l ih =>
    obtain ⟨a, b⟩ := p
    rw [List.lookup_cons] at h
    split at h
    · rename_i hk
      injection h with h
      simp [LawfulBEq.eq_of_beq hk, h]
    · exact List.mem_cons_of_mem _ (ih h)

/-- Only the addresses of offset 0x000 select CMD. -/
theorem location_eq_cmd {a : Addr} (h : location a = .cmd) : a.toNat < 4 := by
  rw [location, wordOffset_eq] at h
  split at h
  · rename_i l hl
    subst h
    have := mem_of_lookup hl
    simp [registerMap] at this
    omega
  · exfalso
    revert h
    unfold bufLocation
    repeat' split
    all_goals simp

/-- A location is a register of the map at its offset, a buffer byte, or unmapped. -/
theorem location_cases (a : Addr) :
    (a.toNat / 4 * 4, location a) ∈ registerMap ∨ (∃ b i, location a = .buf b i) ∨ location a = .unmapped := by
  rw [location, wordOffset_eq]
  split
  · rename_i l hl
    exact .inl (mem_of_lookup hl)
  · right
    unfold bufLocation
    split
    · exact .inl ⟨_, _, rfl⟩
    · split
      · exact .inl ⟨_, _, rfl⟩
      · split
        · exact .inl ⟨_, _, rfl⟩
        · exact .inr rfl

/-- The addresses that reach no location (R64). -/
theorem location_unmapped {a : Addr}
    (h : (0x02C ≤ a.toNat ∧ a.toNat < 0x030) ∨ (0x040 ≤ a.toNat ∧ a.toNat < 0x100) ∨ (0x15C ≤ a.toNat ∧ a.toNat < 0x200) ∨
      (0x280 ≤ a.toNat ∧ a.toNat < 0x400) ∨ 0x800 ≤ a.toNat) : location a = .unmapped := by
  rcases location_cases a with hr | ⟨b, i, hb⟩ | hu
  · simp only [registerMap, List.mem_cons, Prod.mk.injEq, List.not_mem_nil, or_false] at hr
    omega
  · obtain ⟨hi, he⟩ := location_eq_buf hb
    cases b <;> simp only [Buf.size, Buf.addr, Buf.base, Config.hdrLen, Config.infoLen, Config.msgLen] at hi he <;> omega
  · exact hu

/-- A memory, once written at a buffer location, stays canonical. -/
theorem wf_hostWriteBuf {s : State} {a : Addr} {b : Buf} {i : Nat} {v : Byte} (hm : Memory.wf s.mem = true)
    (h : location a = .buf b i) : Memory.wf (s.hostWriteBuf b i v).mem = true := by
  rw [hostWriteBuf_mem]
  exact Memory.wf_write _ _ _ hm (isBufAddr_addr b i (location_eq_buf h).1)

end Sys2Proof.Machine
end

