-- ==== Sys2Proof/Laws/Exec.lean ====
section
/-! SUPPORT. What one operation can do, said once: `Effect s i t` lists every next state an operation can answer, and
`exec_effect` says that there is no other. -/

namespace Sys2Proof.Machine

/-- The commands that carry the CRC on. -/
abbrev crcCommands : List Instr := [.crcLoad, .crcByte, .crcHdr, .crcInfo]

/-- The commands that the busy rule refuses (R304). -/
abbrev idleCommands : List Instr :=
  [.fcsCompute, .ax25Reset, .ax25NextByte, .nrziNextBit, .rttyInit, .rttyNextBit, .txStartAprs, .txStartRtty]

/-- The locations whose writes the busy rule refuses (R304). -/
def Location.busyProtected : Location → Bool
  | .config | .startFlags | .endFlags | .rttyIdle | .rttyLen | .buf _ _ => true
  | _ => false

/-- The state after an accepted write to a register other than CMD (R282-R286); none where the write stores nothing. -/
def State.storeReg (s : State) (d : Word) : Location → Option State
  | .arg => some { s with arg := d }
  | .status => some (s.clearStatus d)
  | .config => if s.mode = .idle then some { s with config := d.extractLsb' 0 3 } else none
  | .startFlags => if s.mode = .idle then some { s with startFlags := legalFlags d } else none
  | .endFlags => if s.mode = .idle then some { s with endFlags := legalFlags d } else none
  | .rttyIdle => if s.mode = .idle then some { s with rttyIdle := d.extractLsb' 0 16 } else none
  | .rttyLen => if s.mode = .idle then some { s with rttyLen := d.extractLsb' 0 9 } else none
  | _ => none

/-- Every next state that operation `i`, by its canonical name, can answer in state `s`. -/
inductive Effect (s : State) : Instr → State → Prop where
  | illegalCmd (a : Addr) (d : Word) (h : location a = .cmd) (hd : commandOfCode (opField d) = none) :
      Effect s (.busWrite a d) (s.recordError .illegalCmd)
  | busyCommand (i : Instr) (h : i ∈ idleCommands) (hm : s.mode ≠ .idle) : Effect s i (s.recordError .busy)
  | busyWrite (a : Addr) (d : Word) (h : (location a).busyProtected = true) (hm : s.mode ≠ .idle) :
      Effect s (.busWrite a d) (s.recordError .busy)
  | latlonRange (h : Config.b91LatlonLimit ≤ s.arg.toNat) : Effect s .b91Latlon (s.recordError .latlonRange)
  | rttyLen (i : Instr) (h : i = .rttyInit ∨ i = .txStartRtty) (hm : s.mode = .idle) (hl : s.rttyLenOk = false) :
      Effect s i (s.recordError .rttyLen)
  | rttyFinished (hm : s.mode = .idle) (h : s.rtty.fin = true) : Effect s .rttyNextBit (s.recordError .rttyFinished)
  | crc (i : Instr) (h : i ∈ crcCommands) (c : BitVec 16) : Effect s i { s with crc := c }
  | fcs (hm : s.mode = .idle) (c : BitVec 16) : Effect s .fcsCompute { s with crc := c, fcs := ~~~c, fcsStale := false }
  | base91 (i : Instr) (h : i = .b91Tlm ∨ i = .b91Latlon) (v : Word) : Effect s i { s with result := v }
  | ax25Reset (hm : s.mode = .idle) : Effect s .ax25Reset s.restartFrame
  | nextByte (hm : s.mode = .idle) (o : ByteOut) (f : FrameFsm) (h : ByteArm s o f) :
      Effect s .ax25NextByte { s with ax := f, result := packByte o.byte o.st }
  | nextBit (hm : s.mode = .idle) (o : BitOut) (f : FrameFsm) (e : BitEncoder) (h : BitArm s o f e) :
      Effect s .nrziNextBit { s with ax := f, enc := e, result := packLineBit o.level o.lineBit o.stuffed }
  | rttyInit (hm : s.mode = .idle) (hl : s.rttyLenOk = true) : Effect s .rttyInit s.startMessage
  | rttyBit (hm : s.mode = .idle) (hf : s.rtty.fin = false) (b : Bool) (r : RttyFsm) (h : RttyArm s b r) :
      Effect s .rttyNextBit { s with rtty := r, result := packRttyBit b r.fin }
  | startAprs (hm : s.mode = .idle) :
      Effect s .txStartAprs
        { s.restartFrame with div := 0#5, aux := false, sym := s.nrziInit, done := false, mode := .aprs }
  | startRtty (hm : s.mode = .idle) (hl : s.rttyLenOk = true) :
      Effect s .txStartRtty { s.startMessage with sym := s.rttyIdleBit, done := false, mode := .rtty }
  | sampleIgnored (hm : s.mode ≠ .aprs) : Effect s .tickSample s
  | sampleCounted (hm : s.mode = .aprs) (h : s.div + 1#5 ≠ 22#5) :
      Effect s .tickSample { s with aux := !s.aux, div := s.div + 1#5 }
  | baudEvent (hm : s.mode = .aprs) (hd : s.div + 1#5 = 22#5) (o : BitOut) (f : FrameFsm) (e : BitEncoder)
      (h : BitArm s o f e) (t : State)
      (ht : t = { s with ax := f, enc := e, aux := !s.aux, div := 0#5, sym := o.level }) :
      Effect s .tickSample (if t.aprsEnd then t.endTransmission else t)
  | baudIgnored (hm : s.mode ≠ .rtty) : Effect s .tickBaud s
  | baudTick (hm : s.mode = .rtty) (b : Bool) (r : RttyFsm) (h : RttyArm s b r)
      (t : State) (ht : t = { s with rtty := r, sym := b }) :
      Effect s .tickBaud (if t.rtty.fin then t.endTransmission else t)
  | storeReg (a : Addr) (d : Word) (t : State) (h : s.storeReg d (location a) = some t) : Effect s (.busWrite a d) t
  | storeBuf (a : Addr) (d : Word) (b : Buf) (k : Nat) (h : location a = .buf b k) (hm : s.mode = .idle) :
      Effect s (.busWrite a d) (s.hostWriteBuf b k (d.extractLsb' 0 8))
  | ignoredWrite (a : Addr) (d : Word)
      (h : location a ∈ [Location.result, .crc, .fcs, .dbgAx25, .dbgBitenc, .dbgRtty, .dbgSched, .unmapped]) :
      Effect s (.busWrite a d) s
  | read (a : Addr) (v : Word) (h : s.readLocation (location a) = .ok v) :
      Effect s (.busRead a) { s with readData := v }
  | hwReset : Effect s .hwReset s.hardReset

theorem next_inj {s t : State} (h : (Host.Outcome.next s : Result) = .next t) : t = s := by
  injection h with h; exact h.symm

/-- An operation under the busy rule, for the inversion below. -/
theorem effect_whenIdle {i : Instr} {s t : State} {act : State → Result} (hi : i ∈ idleCommands)
    (h : whenIdle s act = .next t) (hact : s.mode = .idle → act s = .next t → Effect s i t) : Effect s i t := by
  rcases whenIdle_next h with ⟨hm, ha⟩ | ⟨hm, rfl⟩
  · exact hact hm ha
  · exact .busyCommand i hi hm

theorem effect_crcOverBuf {i : Instr} {s t : State} {b : Buf} (hi : i ∈ crcCommands) (h : crcOverBuf b s = .next t) :
    Effect s i t := by
  obtain ⟨xs, -, rfl⟩ := orFault_map_next h
  exact .crc i hi _

theorem effect_fcsCompute {s t : State} (h : execFcsCompute s = .next t) : Effect s .fcsCompute t := by
  refine effect_whenIdle (by simp) h fun hm ha => ?_
  unfold computeFcs at ha
  split at ha
  · cases ha
  · split at ha
    · cases ha
    · rw [next_inj ha]
      exact .fcs hm _

theorem effect_b91Latlon {s t : State} (h : execB91Latlon s = .next t) : Effect s .b91Latlon t := by
  unfold execB91Latlon at h
  split at h
  · rename_i hl
    rw [next_inj h]; exact .latlonRange hl
  · rw [next_inj h]; exact .base91 _ (.inr rfl) _

theorem effect_ax25Reset {s t : State} (h : execAx25Reset s = .next t) : Effect s .ax25Reset t := by
  refine effect_whenIdle (by simp) h fun hm ha => ?_
  rw [next_inj ha]; exact .ax25Reset hm

theorem effect_ax25NextByte {s t : State} (h : execAx25NextByte s = .next t) : Effect s .ax25NextByte t := by
  refine effect_whenIdle (by simp) h fun hm ha => ?_
  obtain ⟨⟨o, u⟩, hn, rfl⟩ := orFault_map_next ha
  obtain ⟨f, hf, rfl⟩ := nextByte_ok hn
  exact .nextByte hm o f hf

theorem effect_nrziNextBit {s t : State} (h : execNrziNextBit s = .next t) : Effect s .nrziNextBit t := by
  refine effect_whenIdle (by simp) h fun hm ha => ?_
  obtain ⟨⟨o, u⟩, hn, rfl⟩ := orFault_map_next ha
  obtain ⟨f, e, harm, rfl⟩ := nextBit_ok hn
  exact .nextBit hm o f e harm

theorem effect_rttyInit {s t : State} (h : execRttyInit s = .next t) : Effect s .rttyInit t := by
  refine effect_whenIdle (by simp) h fun hm ha => ?_
  unfold rttyInitThen at ha
  split at ha
  · rename_i hl
    rw [next_inj ha]; exact .rttyInit hm hl
  · rename_i hl
    rw [next_inj ha]; exact .rttyLen _ (.inl rfl) hm (by simpa using hl)

theorem effect_rttyNextBit {s t : State} (h : execRttyNextBit s = .next t) : Effect s .rttyNextBit t := by
  refine effect_whenIdle (by simp) h fun hm ha => ?_
  simp only at ha
  split at ha
  · rename_i hf
    rw [next_inj ha]; exact .rttyFinished hm hf
  · rename_i hf
    obtain ⟨⟨b, u⟩, hn, rfl⟩ := orFault_map_next ha
    obtain ⟨r, hr, rfl⟩ := rttyNextBit_arm hn
    exact .rttyBit hm (by simpa using hf) b r hr

theorem effect_txStartAprs {s t : State} (h : execTxStartAprs s = .next t) : Effect s .txStartAprs t := by
  refine effect_whenIdle (by simp) h fun hm ha => ?_
  rw [next_inj ha]; exact .startAprs hm

theorem effect_txStartRtty {s t : State} (h : execTxStartRtty s = .next t) : Effect s .txStartRtty t := by
  refine effect_whenIdle (by simp) h fun hm ha => ?_
  unfold rttyInitThen at ha
  split at ha
  · rename_i hl
    rw [next_inj ha]; exact .startRtty hm hl
  · rename_i hl
    rw [next_inj ha]; exact .rttyLen _ (.inr rfl) hm (by simpa using hl)

theorem effect_tickSample {s t : State} (h : execTickSample s = .next t) : Effect s .tickSample t := by
  unfold execTickSample at h
  split at h
  · rename_i hm
    split at h
    · rename_i hd
      unfold aprsBaudEvent at h
      obtain ⟨⟨o, u⟩, hn, rfl⟩ := orFault_map_next h
      obtain ⟨f, e, ha, rfl⟩ := nextBit_ok hn
      exact .baudEvent hm hd o f e (ha.congr rfl rfl rfl rfl rfl rfl rfl) _ rfl
    · rename_i hd
      rw [next_inj h]; exact .sampleCounted hm hd
  · rename_i hm
    rw [next_inj h]; exact .sampleIgnored hm

theorem effect_tickBaud {s t : State} (h : execTickBaud s = .next t) : Effect s .tickBaud t := by
  unfold execTickBaud at h
  split at h
  · rename_i hm
    obtain ⟨⟨b, u⟩, hn, rfl⟩ := orFault_map_next h
    obtain ⟨r, hr, rfl⟩ := rttyNextBit_arm hn
    exact .baudTick hm b r hr _ rfl
  · rename_i hm
    rw [next_inj h]; exact .baudIgnored hm

/-- Dispatch carries out the command of its OP, or raises ILLEGAL_CMD. -/
theorem dispatchCommand_of_some {d : Word} {c : Instr} (h : commandOfCode (opField d) = some c) (s : State) :
    dispatchCommand d s = exec c s ∧ c ∈ crcCommands ++ [.b91Tlm, .b91Latlon] ++ idleCommands := by
  have hm := mem_of_lookup h
  simp only [commandTable, List.mem_cons, Prod.mk.injEq, List.not_mem_nil, or_false] at hm
  unfold dispatchCommand
  rw [h]
  rcases hm with ⟨_, rfl⟩ | ⟨_, rfl⟩ | ⟨_, rfl⟩ | ⟨_, rfl⟩ | ⟨_, rfl⟩ | ⟨_, rfl⟩ | ⟨_, rfl⟩ | ⟨_, rfl⟩ | ⟨_, rfl⟩ | ⟨_, rfl⟩ |
    ⟨_, rfl⟩ | ⟨_, rfl⟩ | ⟨_, rfl⟩ | ⟨_, rfl⟩ <;> exact ⟨rfl, by simp⟩

theorem dispatchCommand_of_none {d : Word} (h : commandOfCode (opField d) = none) (s : State) :
    dispatchCommand d s = .next (s.recordError .illegalCmd) := by
  unfold dispatchCommand
  rw [h]
  rfl

/-- The operations that are no bus write. -/
theorem effect_of_exec {i : Instr} {s t : State} (hi : ∀ a d, i ≠ .busWrite a d) (h : exec i s = .next t) :
    Effect s i t := by
  cases i with
  | crcLoad => rw [next_inj h]; exact .crc _ (by simp) _
  | crcByte => rw [next_inj h]; exact .crc _ (by simp) _
  | crcHdr => exact effect_crcOverBuf (b := .hdr) (by simp) h
  | crcInfo => exact effect_crcOverBuf (b := .info) (by simp) h
  | fcsCompute => exact effect_fcsCompute h
  | b91Tlm => rw [next_inj h]; exact .base91 _ (.inl rfl) _
  | b91Latlon => exact effect_b91Latlon h
  | ax25Reset => exact effect_ax25Reset h
  | ax25NextByte => exact effect_ax25NextByte h
  | nrziNextBit => exact effect_nrziNextBit h
  | rttyInit => exact effect_rttyInit h
  | rttyNextBit => exact effect_rttyNextBit h
  | txStartAprs => exact effect_txStartAprs h
  | txStartRtty => exact effect_txStartRtty h
  | busWrite a d => exact (hi a d rfl).elim
  | busRead a =>
    obtain ⟨v, hv, rfl⟩ := orFault_map_next h
    exact .read a v hv
  | tickSample => exact effect_tickSample h
  | tickBaud => exact effect_tickBaud h
  | hwReset => rw [next_inj h]; exact .hwReset

theorem effect_busWrite {a : Addr} {d : Word} {s t : State} (hc : location a ≠ .cmd)
    (h : exec (.busWrite a d) s = .next t) : Effect s (.busWrite a d) t := by
  have idle : ∀ act : State → State, (location a).busyProtected = true →
      whenIdle s (fun s => .next (act s)) = .next t → (s.mode = .idle → Effect s (.busWrite a d) (act s)) →
      Effect s (.busWrite a d) t := by
    intro act hp hw he
    rcases whenIdle_next hw with ⟨hm, ha⟩ | ⟨hm, rfl⟩
    · rw [next_inj ha]; exact he hm
    · exact .busyWrite a d hp hm
  change execBusWrite a d s = .next t at h
  unfold execBusWrite at h
  cases hl : location a with
  | cmd => exact (hc hl).elim
  | arg | status =>
    rw [hl] at h
    rw [next_inj h]
    exact .storeReg a d _ (by rw [hl]; rfl)
  | config | startFlags | endFlags | rttyIdle | rttyLen =>
    rw [hl] at h
    exact idle _ (by rw [hl]; rfl) h fun hm => .storeReg a d _ (by rw [hl]; simp [State.storeReg, hm])
  | buf b k =>
    rw [hl] at h
    exact idle _ (by rw [hl]; rfl) h fun hm => .storeBuf a d b k hl hm
  | result | crc | fcs | dbgAx25 | dbgBitenc | dbgRtty | dbgSched | unmapped =>
    rw [hl] at h
    rw [next_inj h]
    exact .ignoredWrite a d (by rw [hl]; simp)

/-- A bus write means its canonical operation. -/
theorem exec_canon (i : Instr) (s : State) : exec i s = exec i.canon s := by
  cases i with
  | busWrite a d =>
    simp only [Instr.canon]
    split
    · rename_i hc
      rw [isCmdAddr_eq, decide_eq_true_eq] at hc
      cases hcode : commandOfCode (opField d) with
      | none => rfl
      | some c =>
        change execBusWrite a d s = exec c s
        unfold execBusWrite
        rw [location_cmd hc]
        exact (dispatchCommand_of_some hcode s).1
    · rfl
  | _ => rfl

theorem canon_canon (i : Instr) : i.canon.canon = i.canon := by
  cases i with
  | busWrite a d =>
    by_cases hc : isCmdAddr a = true
    · cases hcode : commandOfCode (opField d) with
      | none => simp [Instr.canon, hc, hcode]
      | some c =>
        have hm := (dispatchCommand_of_some hcode State.reset).2
        simp only [Instr.canon, hc, hcode, if_true, Option.getD_some]
        simp only [crcCommands, idleCommands, List.cons_append, List.nil_append, List.mem_cons, List.not_mem_nil,
          or_false] at hm
        rcases hm with rfl | rfl | rfl | rfl | rfl | rfl | rfl | rfl | rfl | rfl | rfl | rfl | rfl | rfl <;> rfl
    · simp [Instr.canon, hc]
  | _ => rfl

/-- The canonical name of an operation is a command, or the operation itself. -/
theorem canon_command_or_self (i : Instr) :
    i.canon ∈ crcCommands ++ [.b91Tlm, .b91Latlon] ++ idleCommands ∨ i.canon = i := by
  cases i with
  | busWrite a d =>
    by_cases hc : isCmdAddr a = true
    · cases hcode : commandOfCode (opField d) with
      | none => right; simp [Instr.canon, hc, hcode]
      | some c => left; simpa [Instr.canon, hc, hcode] using (dispatchCommand_of_some hcode State.reset).2
    · right; simp [Instr.canon, hc]
  | _ => exact .inr rfl

/-- An operation whose canonical name is an event or a bus access is that operation. -/
theorem eq_of_canon {i j : Instr} (h : i.canon = j)
    (hj : j ∉ crcCommands ++ [.b91Tlm, .b91Latlon] ++ idleCommands) : i = j := by
  rcases canon_command_or_self i with hm | he
  · exact (hj (h ▸ hm)).elim
  · rw [← he, h]

/-- A write that stores nothing but a register changes ARG, clears STATUS bits, or changes configuration in IDLE. -/
theorem storeReg_cases {s t : State} {d : Word} {l : Location} (h : s.storeReg d l = some t) :
    (l = .arg ∧ t = { s with arg := d }) ∨ (l = .status ∧ t = s.clearStatus d) ∨
    (s.mode = .idle ∧ ∃ c sf ef ri rl,
      t = { s with config := c, startFlags := sf, endFlags := ef, rttyIdle := ri, rttyLen := rl } ∧
      (sf = s.startFlags ∨ sf = legalFlags d) ∧ (ef = s.endFlags ∨ ef = legalFlags d)) := by
  unfold State.storeReg at h
  split at h
  · injection h with h; exact .inl ⟨rfl, h.symm⟩
  · injection h with h; exact .inr (.inl ⟨rfl, h.symm⟩)
  all_goals
    first
      | (split at h
         · rename_i hm; injection h with h; subst h; exact .inr (.inr ⟨hm, _, _, _, _, _, rfl, by simp, by simp⟩)
         · cases h)
      | cases h

/-- Every next state an operation answers is one of `Effect`. -/
theorem exec_effect {i : Instr} {s t : State} (h : exec i s = .next t) : Effect s i.canon t := by
  rw [exec_canon] at h
  have hcc := canon_canon i
  generalize i.canon = j at h hcc
  by_cases hj : ∃ a d, j = .busWrite a d
  · obtain ⟨a, d, rfl⟩ := hj
    by_cases hc : location a = .cmd
    · have ha := location_eq_cmd hc
      cases hcode : commandOfCode (opField d) with
      | none =>
        change execBusWrite a d s = .next t at h
        unfold execBusWrite at h
        rw [hc] at h
        change dispatchCommand d s = .next t at h
        rw [dispatchCommand_of_none hcode] at h
        rw [next_inj h]
        exact .illegalCmd a d hc hcode
      | some c =>
        exfalso
        have hm := (dispatchCommand_of_some hcode State.reset).2
        have : isCmdAddr a = true := by rw [isCmdAddr_eq, decide_eq_true_eq]; exact ha
        simp only [Instr.canon, this, hcode, if_true, Option.getD_some] at hcc
        subst hcc
        simp at hm
    · exact effect_busWrite hc h
  · exact effect_of_exec (fun a d e => hj ⟨a, d, e⟩) h

/-! ### The CRC commands over written buffers -/

theorem crcOverBuf_of_bytes {s : State} {b : Buf} {xs : List Byte} (h : s.needBuf b = .ok xs) :
    crcOverBuf b s = .next { s with crc := crcFold s.crc xs } := by
  simp [crcOverBuf, h, Except.map]

theorem computeFcs_of_bytes {s : State} {hs xs : List Byte} (hh : s.needBuf .hdr = .ok hs) (hx : s.needBuf .info = .ok xs) :
    computeFcs s = .next { s with
      crc := crcFold (crcFold Config.crcInit hs) xs,
      fcs := ~~~(crcFold (crcFold Config.crcInit hs) xs), fcsStale := false } := by
  simp [computeFcs, hh, hx]

/-! ### The single-step commands in IDLE, and the events that call a producer -/

theorem exec_nextByte_of_arm {s : State} {o : ByteOut} {f : FrameFsm} (hm : s.mode = .idle) (h : ByteArm s o f) :
    exec .ax25NextByte s = .next { s with ax := f, result := packByte o.byte o.st } := by
  simp only [exec, execAx25NextByte, whenIdle_idle _ hm, nextByte_of_arm h]
  rfl

theorem exec_nextByte_of_error {s : State} {x : Fault} (hm : s.mode = .idle) (h : nextByte s = .error x) :
    exec .ax25NextByte s = .fault x := by
  simp only [exec, execAx25NextByte, whenIdle_idle _ hm, h]
  rfl

theorem exec_nextBit_of_arm {s : State} {o : BitOut} {f : FrameFsm} {e : BitEncoder} (hm : s.mode = .idle)
    (h : BitArm s o f e) :
    exec .nrziNextBit s = .next { s with ax := f, enc := e, result := packLineBit o.level o.lineBit o.stuffed } := by
  simp only [exec, execNrziNextBit, whenIdle_idle _ hm, nextBit_of_arm h]
  rfl

theorem exec_nextBit_of_error {s : State} {x : Fault} (hm : s.mode = .idle) (h : nextBit s = .error x) :
    exec .nrziNextBit s = .fault x := by
  simp only [exec, execNrziNextBit, whenIdle_idle _ hm, h]
  rfl

theorem exec_rttyNextBit_of_arm {s : State} {b : Bool} {r : RttyFsm} (hm : s.mode = .idle) (hf : s.rtty.fin = false)
    (h : RttyArm s b r) : exec .rttyNextBit s = .next { s with rtty := r, result := packRttyBit b r.fin } := by
  simp only [exec, execRttyNextBit, whenIdle_idle _ hm, rttyNextBit_of_arm h]
  simp [hf, Except.map]

theorem exec_tickSample_of_arm {s : State} {o : BitOut} {f : FrameFsm} {e : BitEncoder} (hm : s.mode = .aprs)
    (hd : s.div + 1#5 = 22#5) (h : BitArm s o f e) {t : State}
    (ht : t = { s with ax := f, enc := e, aux := !s.aux, div := 0#5, sym := o.level }) :
    exec .tickSample s = .next (if t.aprsEnd then t.endTransmission else t) := by
  have ha : BitArm { s with aux := !s.aux, div := 0#5 } o f e := h.congr rfl rfl rfl rfl rfl rfl rfl
  subst ht
  simp only [exec, execTickSample, if_pos hm, Config.samplesPerBaud, aprsBaudEvent, nextBit_of_arm ha]
  rw [if_pos hd]
  rfl

theorem exec_tickBaud_of_arm {s : State} {b : Bool} {r : RttyFsm} (hm : s.mode = .rtty) (h : RttyArm s b r) {t : State}
    (ht : t = { s with rtty := r, sym := b }) :
    exec .tickBaud s = .next (if t.rtty.fin then t.endTransmission else t) := by
  subst ht
  simp only [exec, execTickBaud, if_pos hm, rttyNextBit_of_arm h]
  rfl

/-! ### The line bits of a run of NRZI_NEXT_BIT -/

theorem packLineBit_bits (level lineBit stuffed : Bool) :
    (packLineBit level lineBit stuffed).getLsbD 1 = lineBit ∧ (packLineBit level lineBit stuffed).getLsbD 2 = stuffed := by
  cases level <;> cases lineBit <;> cases stuffed <;> decide

@[simp] theorem sentBits_zero (s : State) : sentBits 0 s = [] := rfl

theorem sentBits_succ_of_arm {s : State} {o : BitOut} {f : FrameFsm} {e : BitEncoder} (hm : s.mode = .idle)
    (h : BitArm s o f e) (n : Nat) :
    sentBits (n + 1) s = (o.lineBit, o.stuffed) ::
      sentBits n { s with ax := f, enc := e, result := packLineBit o.level o.lineBit o.stuffed } := by
  have hb := packLineBit_bits o.level o.lineBit o.stuffed
  simp only [sentBits, exec_nextBit_of_arm hm h, hb.1, hb.2]

end Sys2Proof.Machine
end

