-- ==== Sys2Proof/Laws/PerInstr.lean ====
section
/-! SUPPORT. The family EncodesOwnFormat: each operation's word has the operation's own format (30_encoding.md R90-R93). -/

namespace Sys2Proof.Laws.EncodesOwnFormat

/-- A command or a bus write encodes as a bus word with RW = 1, a bus read as one with RW = 0, an event as an event. -/
def Statement : Instr → Prop
  | .tickSample => encode .tickSample = .event 0#2
  | .tickBaud => encode .tickBaud = .event 1#2
  | .hwReset => encode .hwReset = .event 2#2
  | .busRead a => ∃ w, encode (.busRead a) = .bus w ∧ w.getLsbD 44 = false
  | i => ∃ w, encode i = .bus w ∧ w.getLsbD 44 = true

theorem crcLoad : Statement .crcLoad := ⟨_, rfl, rfl⟩
theorem crcByte : Statement .crcByte := ⟨_, rfl, rfl⟩
theorem crcHdr : Statement .crcHdr := ⟨_, rfl, rfl⟩
theorem crcInfo : Statement .crcInfo := ⟨_, rfl, rfl⟩
theorem fcsCompute : Statement .fcsCompute := ⟨_, rfl, rfl⟩
theorem b91Tlm : Statement .b91Tlm := ⟨_, rfl, rfl⟩
theorem b91Latlon : Statement .b91Latlon := ⟨_, rfl, rfl⟩
theorem ax25Reset : Statement .ax25Reset := ⟨_, rfl, rfl⟩
theorem ax25NextByte : Statement .ax25NextByte := ⟨_, rfl, rfl⟩
theorem nrziNextBit : Statement .nrziNextBit := ⟨_, rfl, rfl⟩
theorem rttyInit : Statement .rttyInit := ⟨_, rfl, rfl⟩
theorem rttyNextBit : Statement .rttyNextBit := ⟨_, rfl, rfl⟩
theorem txStartAprs : Statement .txStartAprs := ⟨_, rfl, rfl⟩
theorem txStartRtty : Statement .txStartRtty := ⟨_, rfl, rfl⟩
theorem busWrite (addr : Addr) (data : Word) : Statement (.busWrite addr data) :=
  ⟨_, rfl, busWord_rw _ _ _⟩
theorem busRead (addr : Addr) : Statement (.busRead addr) := ⟨_, rfl, busWord_rw _ _ _⟩
theorem tickSample : Statement .tickSample := rfl
theorem tickBaud : Statement .tickBaud := rfl
theorem hwReset : Statement .hwReset := rfl

end Sys2Proof.Laws.EncodesOwnFormat
end

