-- ==== Sys2Proof/Tests/Slice0.lean ====
section
/-! SUPPORT. Own tests. Expected values come from the spec's words and its derived vectors (95_test_vectors.md). -/

open Sys2Proof Sys2Proof.Machine Sys2Proof.Spec

namespace Sys2Proof.Tests

/-! ### Builders -/

/-- The cells of a buffer that begins with the given bytes. -/
def cells (b : Buf) (bs : List Byte) : Memory := bs.zipIdx.map fun p => (b.addr p.2, p.1)

/-- The reset state with the three buffers loaded. -/
def loaded (hs xs cs : List Byte) : State :=
  { State.reset with mem := cells .hdr hs ++ cells .info xs ++ cells .msg cs }

/-- The example header of 95_test_vectors.md §2.3. -/
def header : List Byte :=
  [0x82, 0xA0, 0xA4, 0xA6, 0x40, 0x40, 0x60, 0x9C, 0x60, 0x86, 0x82, 0x98, 0x98, 0x78, 0xAE, 0x92, 0x88, 0x8A, 0x62, 0x40,
   0x63, 0x03, 0xF0]

/-- The example information field of §2.3. -/
def info : List Byte :=
  [0x2F, 0x30, 0x39, 0x32, 0x33, 0x34, 0x35, 0x68, 0x2F, 0x35, 0x4C, 0x21, 0x21, 0x3C, 0x2A, 0x65, 0x37, 0x4F, 0x21, 0x21,
   0x51, 0x7C, 0x21, 0x21, 0x21, 0x22, 0x21, 0x23, 0x21, 0x24, 0x7C, 0x2E]

/-- The message "AB" of §2.6. -/
def message : List Byte := [0x41, 0x42]

/-- The example buffers, with RTTY_LEN = 2 and RTTY_IDLE = 3 (vector RT-1). -/
def full : State := { loaded header info message with rttyLen := 2, rttyIdle := 3 }

/-- The example frame and message while APRS runs, one tick before a baud event. -/
def sending : State := { full with mode := .aprs, div := 21 }

/-- The same while the RTTY message runs. -/
def keying : State := { full with mode := .rtty, rtty := ⟨.idle, 0, 0, 3, false, 0, 2⟩ }

/-- Whether an operation answers a next state with a property. -/
def after (i : Instr) (s : State) (p : State → Bool) : Bool :=
  match exec i s with
  | .next t => p t
  | .fault _ | .refused _ => false

/-- Whether an operation answers a given fault. -/
def faults (i : Instr) (s : State) (x : Fault) : Bool :=
  match exec i s with
  | .fault y => decide (y = x)
  | .next _ | .refused _ => false

theorem next_of_after {i : Instr} {s : State} {p : State → Bool} (h : after i s p = true) :
    ∃ t, exec i s = .next t ∧ p t = true := by
  unfold after at h
  split at h
  · exact ⟨_, by assumption, h⟩
  · cases h
  · cases h

/-! ### WellFormed: the one ill-formed shape is refused, its neighbours are not -/

theorem test_wf_refuses_command_write : (Instr.busWrite 0x000 0x00000001).wellFormed = false := by decide
theorem test_wf_refuses_command_write_low_bits : (Instr.busWrite 0x003 0xABCDEF41).wellFormed = false := by decide
theorem test_wf_accepts_illegal_code_and_other_address :
    (Instr.busWrite 0x000 0x00000006).wellFormed = true ∧ (Instr.busWrite 0x004 0x00000001).wellFormed = true := by decide

/-! ### Decode: words written bit by bit from R91-R95. {RW, ADDR, ignored, OP} for a command, {RW, ADDR, DATA} for a bus
access, a 2-bit code for an event. -/

/-- The bus word of a command: RW = 1, address 0x000, bits 31:8 with a pattern that must be ignored, OP. -/
def commandWord (op : BitVec 8) : Input := .bus (0b1#1 ++ 0b000000000000#12 ++ 0b101000000000000000000001#24 ++ op)

theorem test_decode_crcLoad : decode (commandWord 0b00000001#8) = .ok .crcLoad := by decide
theorem test_decode_crcByte : decode (commandWord 0b00000010#8) = .ok .crcByte := by decide
theorem test_decode_crcHdr : decode (commandWord 0b00000011#8) = .ok .crcHdr := by decide
theorem test_decode_crcInfo : decode (commandWord 0b00000100#8) = .ok .crcInfo := by decide
theorem test_decode_fcsCompute : decode (commandWord 0b00000101#8) = .ok .fcsCompute := by decide
theorem test_decode_b91Tlm : decode (commandWord 0b00010000#8) = .ok .b91Tlm := by decide
theorem test_decode_b91Latlon : decode (commandWord 0b00010001#8) = .ok .b91Latlon := by decide
theorem test_decode_ax25Reset : decode (commandWord 0b00100000#8) = .ok .ax25Reset := by decide
theorem test_decode_ax25NextByte : decode (commandWord 0b00100001#8) = .ok .ax25NextByte := by decide
theorem test_decode_nrziNextBit : decode (commandWord 0b00100010#8) = .ok .nrziNextBit := by decide
theorem test_decode_rttyInit : decode (commandWord 0b00110000#8) = .ok .rttyInit := by decide
theorem test_decode_rttyNextBit : decode (commandWord 0b00110001#8) = .ok .rttyNextBit := by decide
theorem test_decode_txStartAprs : decode (commandWord 0b01000000#8) = .ok .txStartAprs := by decide
theorem test_decode_txStartRtty : decode (commandWord 0b01000001#8) = .ok .txStartRtty := by decide
theorem test_decode_busWrite :
    decode (.bus (0b1#1 ++ 0b000000000100#12 ++ 0b00000000000000000000010011010010#32)) =
      .ok (.busWrite 0x004 0x000004D2) := by decide
theorem test_decode_busRead :
    decode (.bus (0b0#1 ++ 0b001001111100#12 ++ 0b00000000000000000000000000000000#32)) = .ok (.busRead 0x27C) := by decide
theorem test_decode_tickSample : decode (.event 0b00#2) = .ok .tickSample := by decide
theorem test_decode_tickBaud : decode (.event 0b01#2) = .ok .tickBaud := by decide
theorem test_decode_hwReset : decode (.event 0b10#2) = .ok .hwReset := by decide
theorem test_decode_refuses_reserved_event : decode (.event 0b11#2) = .error .reservedEvent := by decide

/-- The words of opcode_table.json itself: the first and the last command, the two bus rows with fields, an event. -/
theorem test_table_words :
    decodeTableWord 32 0x00000001 = some .crcLoad ∧ decodeTableWord 32 0xFFFFFF41 = some .txStartRtty ∧
    decodeTableWord 48 0x100000000000 = some (.busWrite 0x000 0) ∧ decodeTableWord 48 0x1FFFFFFFFFFF =
      some (.busWrite 0xFFF 0xFFFFFFFF) ∧ decodeTableWord 48 0x0FFF00000000 = some (.busRead 0xFFF) ∧
    decodeTableWord 2 1 = some .tickBaud ∧ decodeTableWord 2 3 = none ∧ decodeTableWord 48 0x200000000000 = none := by
  decide

/-! ### One step of each operation -/

/-- 95 §2.1: with ARG = 0xABCD1234, CRC_LOAD gives 0x1234. -/
theorem test_crcLoad : after .crcLoad { full with arg := 0xABCD1234 } (fun t => t.crc == 0x1234#16) = true := by decide

/-- 95 §2.1: with CRC = 0x1234 and ARG = 0x1FF, CRC_BYTE gives 0x78CD. -/
theorem test_crcByte : after .crcByte { full with crc := 0x1234, arg := 0x1FF } (fun t => t.crc == 0x78CD#16) = true := by
  decide

/-- Vectors CRC-2 and CRC-4: from 0xFFFF the bytes 0x00 and 0x01. -/
theorem test_crcByte_from_initial : crcByte 0xFFFF 0x00 = 0x0F87#16 ∧ crcByte 0xFFFF 0x01 = 0x1E0E#16 := by decide

/-- 95 §2.3: the CRC after the example header, and after the example field. -/
theorem test_crc_of_header : crcFold 0xFFFF#16 header = 0x25FA#16 := by decide +kernel
theorem test_crc_of_info : crcFold 0x25FA#16 info = 0xA786#16 := by decide +kernel

theorem header_loaded (c : BitVec 16) : State.needBuf { full with crc := c } .hdr = .ok header := by rfl
theorem info_loaded (c : BitVec 16) : State.needBuf { full with crc := c } .info = .ok info := by rfl

/-- R126: the example header gives 0x25FA, and nothing else changes. -/
theorem test_crcHdr : exec .crcHdr full = .next { full with crc := 0x25FA#16 } := by
  rw [← test_crc_of_header]
  exact crcOverBuf_of_bytes (header_loaded 0xFFFF#16)

/-- R127: then the example field gives 0xA786. -/
theorem test_crcInfo : exec .crcInfo { full with crc := 0x25FA#16 } = .next { full with crc := 0xA786#16 } := by
  rw [← test_crc_of_info]
  exact crcOverBuf_of_bytes (info_loaded 0x25FA#16)

theorem test_crc_of_both : crcFold (crcFold Config.crcInit header) info = 0xA786#16 := by
  rw [show crcFold Config.crcInit header = 0x25FA#16 from test_crc_of_header, test_crc_of_info]

/-- R128: CRC = 0xA786 and FCS = 0x5879 from any CRC. -/
theorem test_fcsCompute :
    exec .fcsCompute { full with crc := 0x1234#16 } =
      .next { full with crc := 0xA786#16, fcs := 0x5879#16, fcsStale := false } := by
  rw [show 0x5879#16 = ~~~(0xA786#16) by decide, ← test_crc_of_both]
  exact computeFcs_of_bytes (header_loaded 0x1234#16) (info_loaded 0x1234#16)

theorem test_fcsCompute_busy :
    after .fcsCompute sending (fun t => t.err && decide (t.errCause = .busy) && t.fcs == 0#16) = true := by decide

/-- Vectors B91-T9 and B91-T6. -/
theorem test_b91Tlm_wraps :
    after .b91Tlm { full with arg := 65535 } (fun t => t.result == 0x00003074#32) = true ∧
    after .b91Tlm { full with arg := 8280 } (fun t => t.result == 0x00007B7B#32) = true := by decide

/-- Vectors B91-L10 and B91-L7. -/
theorem test_b91Latlon :
    after .b91Latlon { full with arg := 15427503 } (fun t => t.result == 0x21214C35#32) = true ∧
    after .b91Latlon { full with arg := 68574960 } (fun t => t.result == 0x7B7B7B7B#32) = true := by decide

/-- Vector B91-L11. -/
theorem test_b91Latlon_range :
    after .b91Latlon { full with arg := 68574961, result := 5 }
      (fun t => t.result == 5#32 && t.err && decide (t.errCause = .latlonRange)) = true := by decide

/-- R170: after a finished frame, AX25_RESET gives DBG_AX25 = 0 and LEVEL = NRZI_INIT. -/
theorem test_ax25Reset :
    after .ax25Reset { full with config := 1, ax := ⟨.endFlags, 2, true⟩ }
      (fun t => t.dbgAx25 == 0#32 && t.dbgBitenc == 0x00020000#32) = true := by decide

/-- Vectors AX-1 and AX-2: the flag, then HDR[0] with attribute 1. -/
theorem test_ax25NextByte :
    after .ax25NextByte full (fun t => t.result == 0x7E#32 && t.dbgAx25 == 2#32) = true ∧
    after .ax25NextByte { full with ax := ⟨.header, 0, false⟩ } (fun t => t.result == 0x182#32) = true := by decide

/-- Vector AX-5: the last closing flag sets FINISHED; the next one changes nothing. -/
theorem test_ax25NextByte_finish :
    after .ax25NextByte { full with ax := ⟨.endFlags, 1, false⟩ } (fun t => t.dbgAx25 == 0x00010206#32) = true ∧
    after .ax25NextByte { full with ax := ⟨.endFlags, 2, true⟩ } (fun t => t.dbgAx25 == 0x00010206#32) = true := by decide

/-- Vector BIT-3, first call: the flag's bit 0 toggles the level. -/
theorem test_nrziNextBit : after .nrziNextBit full (fun t => t.result == 1#32 && t.enc.sr == 0x3F#8) = true := by decide

/-- Vector BIT-4, call 194: a stuffed 0 from DBG_BITENC = 0x00035717 to 0x00010717. -/
theorem test_nrziNextBit_stuffs :
    after .nrziNextBit { full with enc := ⟨0x17, 7, 5, true, true⟩ }
      (fun t => t.result == 4#32 && t.dbgBitenc == 0x00010717#32) = true := by decide

/-- R223: RTTY_IDLE = 3 and RTTY_LEN = 2 give DBG_RTTY = 0x00030000; RTTY_LEN = 257 is refused. -/
theorem test_rttyInit :
    after .rttyInit full (fun t => t.dbgRtty == 0x00030000#32) = true ∧
    after .rttyInit { full with rttyLen := 257 } (fun t => decide (t.errCause = .rttyLen) && t.rtty.fin) = true := by decide

/-- Vector RT-2: the second call sends bit 0 of 'A', the last gives 3, and an eleventh is refused. -/
theorem test_rttyNextBit :
    after .rttyNextBit { full with rtty := ⟨.character, 0, 0, 0, false, 0x41, 1⟩ } (fun t => t.result == 1#32) = true ∧
    after .rttyNextBit { full with rtty := ⟨.stop2, 0, 0, 0, false, 0x41, 1⟩ } (fun t => t.result == 3#32) = true ∧
    after .rttyNextBit full (fun t => decide (t.errCause = .rttyFinished)) = true := by decide

/-- R251: DBG_SCHED = 1, and STATUS = 0x00000063 with FCS_STALE and R_FIN still 1. -/
theorem test_txStartAprs :
    after .txStartAprs full (fun t => t.dbgSched == 1#32 && t.statusWord == 0x63#32) = true := by decide

/-- Program P3: STATUS = 0x00000045 and DBG_RTTY = 0x00030000. -/
theorem test_txStartRtty :
    after .txStartRtty full (fun t => t.statusWord == 0x45#32 && t.dbgRtty == 0x00030000#32) = true := by decide

/-- R285, R287: a write of 0x100 to START_FLAGS stores 1; a HDR write keeps data[7:0] and sets FCS_STALE. -/
theorem test_busWrite :
    after (.busWrite 0x01C 0x100) { full with startFlags := 9 } (fun t => t.startFlags == 1#8) = true ∧
    after (.busWrite 0x15B 0xFFFFFF12) { full with fcsStale := false }
      (fun t => decide (t.readBuf .hdr 22 = some 0x12#8) && t.fcsStale) = true := by decide

/-- Program P4: a write during a transmission is refused, and an illegal OP is recorded as cause 1. -/
theorem test_busWrite_errors :
    after (.busWrite 0x200 0x41) sending (fun t => decide (t.errCause = .busy) && decide (t.mem = sending.mem)) = true ∧
    after (.busWrite 0x000 0x07) sending (fun t => decide (t.errCause = .illegalCmd)) = true := by decide +kernel

/-- R290: STATUS after reset reads 0x00000060; R64: an unmapped address reads 0. -/
theorem test_busRead :
    after (.busRead 0x00E) State.reset (fun t => t.readData == 0x60#32) = true ∧
    after (.busRead 0x02C) { full with readData := 7 } (fun t => t.readData == 0#32) = true ∧
    after (.busRead 0x27C) full (fun t => t.readData == 0x2E#32) = true := by decide

/-- Program P2: the tick after DBG_SCHED = 0x00011501 gives 0x00020001 and DBG_BITENC = 0x0002073F. -/
theorem test_tickSample :
    after .tickSample { sending with aux := true }
      (fun t => t.dbgSched == 0x00020001#32 && t.dbgBitenc == 0x0002073F#32) = true ∧
    after .tickSample { sending with div := 20 } (fun t => t.dbgSched == 0x00011501#32) = true := by decide

/-- R256: the second stop bit of the last character ends the transmission. -/
theorem test_tickBaud :
    after .tickBaud keying (fun t => t.rtty.idleLeft == 2#16 && !t.sym) = true ∧
    after .tickBaud { keying with rtty := ⟨.stop2, 1, 0, 0, false, 0x42, 2⟩ }
      (fun t => decide (t.mode = .idle) && t.done && t.sym && t.dbgRtty == 0x00008080#32) = true := by decide

/-- R330: in the middle of a transmission; DONE stays 0 and the written bits are clear. -/
theorem test_hwReset :
    after .hwReset sending (fun t => decide (t = State.reset) && decide (t.readBuf .hdr 0 = none)) = true := by decide +kernel

/-- R312: a byte that the host has not written. -/
theorem test_uninit :
    faults .crcHdr State.reset (.uninit .hdr 0) = true ∧ faults (.busRead 0x7FC) full (.uninit .msg 255) = true := by decide

/-- Every CMD row as the table fixes it, its eight OP bits alone (R95), and the events by their two bits (R93). -/
theorem test_table_bytes :
    (∀ r ∈ commands, decodeTableWord 8 r.1.toNat = some r.2.1) ∧ decodeTableWord 8 0 = some .tickSample ∧
    decodeTableWord 2 0 = some .tickSample ∧ decodeTableWord 2 2 = some .hwReset := by decide

/-- CRC_LOAD from its OP byte runs at the first step after reset: CRC takes ARG = 0. TX_START_APRS from its byte too. -/
theorem test_step_runs_a_command_byte :
    (match step (State.reset.withFetchWord 8 0x01) with | .next t => t.crc == 0#16 | _ => false) = true ∧
    (match step (State.reset.withFetchWord 8 0x40) with | .next t => decide (t.mode = .aprs) | _ => false) = true := by
  decide

theorem test_step_fetches_its_word :
    (match step (State.reset.withFetchWord 48 0x100400000007) with | .next t => t.arg == 7#32 | _ => false) = true ∧
    (match step (State.reset.withFetchWord 32 0x40) with | .next t => decide (t.mode = .aprs) | _ => false) = true := by
  decide

/-! ### Witnesses: a state and operands that meet the hypotheses of each statement, each clause at a boundary -/

/-- The message of the longest length. -/
def longMessage : List Byte := List.replicate 256 0x55

theorem header_held : full.Holds .hdr header := by decide
theorem info_held : full.Holds .info info := by decide
theorem message_held : full.Holds .msg message := by decide

theorem witness_EncodedOperationsDecodeBack :
    Instr.crcLoad.wellFormed = true ∧ (Instr.busWrite 0xFFF 0xFFFFFFFF).wellFormed = true ∧
    (Instr.busWrite 0x003 0xFFFFFF41).wellFormed = false := by decide

theorem witness_DecoderReadsCanonicalOperations :
    decode (.bus (BitVec.allOnes 45)) = .ok (.busWrite 0xFFF 0xFFFFFFFF) ∧ decode (.event 3#2) = .error .reservedEvent := by
  decide

theorem witness_BusWordsDecodeByTheirFields :
    (∃ r ∈ commands, Reaches 0x003 0 ∧ BitVec.extractLsb' 0 8 0xFFFFFF41#32 = r.1) ∧ ¬ Reaches 0x004 0 ∧
    ∀ r ∈ commands, BitVec.extractLsb' 0 8 0xFFFFFF42#32 ≠ r.1 := by decide

/-- The hypothesis of `Encodes`, which several statements use. -/
theorem witness_Encodes : BitVec.extractLsb' 0 8 0xFFFFFF05#32 = 0x05#8 := by decide

theorem witness_StepCarriesOutTheNextOperation :
    (∃ (s : State) (w : Input) (rest : List Input) (i : Instr), s.inputs = w :: rest ∧ decode w = .ok i) ∧
    (∃ (s : State) (rest : List Input), s.inputs = .event 3#2 :: rest) ∧ State.reset.inputs = [] ∧ decodeTableWord 8 0 = some .tickSample :=
  ⟨⟨{ full with inputs := [.event 2#2] }, _, [], .hwReset, rfl, rfl⟩, ⟨{ full with inputs := [.event 3#2] }, [], rfl⟩, rfl,
    by decide⟩

theorem witness_HostProgramsAssembleToTheirExpansion :
    expandAll [.cmdArg .crcLoad 0xFFFF, .hwReset] =
      some [.busWrite 0x004 0xFFFF, .busWrite 0x000 0x01, .hwReset] ∧
    (0x41#8, Instr.txStartRtty, false) ∈ commands ∧
    HostLoc.address (.named (.buf .msg 255)) = some 0x7FC ∧ HostLoc.address (.at 0x003) = some 0x003 ∧
    HostLoc.address (.named (.buf .hdr 23)) = none ∧ (Location.dbgSched, 0x03C#12) ∈ registerOffsets ∧
    header.length = 23 ∧ header[22]? = some 0xF0 ∧ info.length = 32 ∧ info[31]? = some 0x2E ∧
    1 ≤ longMessage.length ∧ longMessage.length ≤ 256 ∧ longMessage[255]? = some 0x55 := by decide +kernel

theorem witness_CommandWriteRunsTheCommand :
    Reaches 0x003 0 ∧ (0x10#8, Instr.b91Tlm, true) ∈ commands ∧ BitVec.extractLsb' 0 8 0xFFFFFF10#32 = 0x10#8 ∧
    (0x41#8, Instr.txStartRtty, false) ∈ commands ∧ BitVec.extractLsb' 0 8 0xFFFFFF41#32 = 0x41#8 ∧ sending.mode ≠ .idle ∧
    ∀ r ∈ commands, BitVec.extractLsb' 0 8 0xFFFFFFFF#32 ≠ r.1 := by decide

theorem witness_IllegalCommandIsRecordedInEveryMode :
    Reaches 0x001 0 ∧ ∀ r ∈ commands, BitVec.extractLsb' 0 8 0x0000000F#32 ≠ r.1 := by decide

theorem witness_BusyRuleRefusesExactlyTheListedOperations :
    sending.mode ≠ .idle ∧ (∃ r ∈ commands, r.2.2 = false) ∧ (∃ r ∈ commands, r.2.2 = true) ∧
    (Reaches 0x007 0x004 ∧ Reaches 0x00C 0x00C) ∧
    (∀ a ∈ [0x018#12, 0x02B#12, 0x100#12, 0x15B#12, 0x200#12, 0x27F#12, 0x400#12, 0x7FF#12], BusyProtected a) ∧
    ∃ t, exec .fcsCompute sending = .next t ∧ sending.err = false ∧ t.err = true ∧ t.errCause = .busy :=
  ⟨by decide, by decide, by decide, by decide, by decide, _, rfl, rfl, rfl, rfl⟩

theorem witness_FailedOperationChangesOnlyTheErrorRecord :
    (∃ t, exec .b91Latlon { full with arg := 68574961 } = .next t ∧ full.err = false ∧ t.err = true) ∧
    ∃ s : State, ∃ t, exec .rttyNextBit { s with err := false, errCause := .none } = .next t ∧ t.err = true ∧ s.err = true :=
  ⟨⟨_, rfl, rfl, rfl⟩, { full with err := true, errCause := .busy }, _, rfl, rfl, rfl⟩

theorem witness_ErrorRecordHoldsUntilCleared :
    StatusWrite (.busWrite 0x00F 0x80) 7 ∧
    ∃ s t, exec .tickSample s = .next t ∧ s.err = true :=
  ⟨⟨_, _, rfl, by decide, by decide⟩, { full with err := true, errCause := .busy }, _, rfl, rfl⟩

theorem witness_CrcOverBuffersCompletesOrFaults :
    (header.length = 23 ∧ full.Holds .hdr header) ∧ (info.length = 32 ∧ full.Holds .info info) ∧
    (loaded (header.take 22) [] []).readBuf .hdr 22 = none ∧ (loaded [] (info.take 31) []).readBuf .info 31 = none :=
  ⟨⟨rfl, header_held⟩, ⟨rfl, info_held⟩, by decide, by decide⟩

theorem witness_FcsComputeFromScratch :
    (∃ (s t : State), exec .hwReset s = .next t ∧ t.fcs ≠ s.fcs) ∧
    (full.mode = .idle ∧ header.length = 23 ∧ info.length = 32 ∧ full.Holds .hdr header ∧ full.Holds .info info) ∧
    sending.mode ≠ .idle ∧
    ((loaded (header.take 22) info []).mode = .idle ∧ (loaded (header.take 22) info []).readBuf .hdr 22 = none) ∧
    (loaded header (info.take 31) []).readBuf .info 31 = none :=
  ⟨⟨{ full with fcs := 1 }, _, rfl, by decide⟩, ⟨rfl, rfl, rfl, header_held, info_held⟩, by decide, ⟨rfl, by decide⟩, by decide⟩

theorem witness_CrcChainsHeaderThenInfo :
    header.length = 23 ∧ info.length = 32 ∧ full.Holds .hdr header ∧ full.Holds .info info :=
  ⟨rfl, rfl, header_held, info_held⟩

theorem witness_ReceiverFindsConstantResidue :
    full.mode = .idle ∧ header.length = 23 ∧ info.length = 32 ∧ full.Holds .hdr header ∧ full.Holds .info info ∧
    full.config.getLsbD 2 = false ∧ ∃ t, exec .fcsCompute full = .next t :=
  ⟨rfl, rfl, rfl, header_held, info_held, rfl, _, computeFcs_of_bytes (header_loaded 0xFFFF#16) (info_loaded 0xFFFF#16)⟩

theorem witness_LatlonFieldDecodesToItsValue :
    (State.arg { full with arg := 68574960 }).toNat < 68574961 ∧
    68574961 ≤ (State.arg { full with arg := 68574961 }).toNat := by decide

theorem witness_LatlonOutOfRangeIsRefused :
    68574961 ≤ (State.arg { full with arg := 68574961 }).toNat ∧ ∃ t, exec .b91Tlm full = .next t :=
  ⟨by decide, _, rfl⟩

theorem witness_Ax25ResetReinitialisesFrameAndEncoder : full.mode = .idle ∧ keying.mode ≠ .idle := by decide

theorem witness_NextByteEmitsFlags :
    (full.mode = .idle ∧ full.ax.state = .init) ∧
    (∃ s : State, s.mode = .idle ∧ s.ax.state = .startFlags ∧ s.ax.idx + 1 = s.startFlags) ∧
    (∃ s : State, s.mode = .idle ∧ s.ax.state = .endFlags ∧ s.ax.finished = false ∧ s.ax.idx + 1 = s.endFlags) ∧
    ∃ s : State, s.mode = .idle ∧ s.ax.state = .endFlags ∧ s.ax.finished = true :=
  ⟨⟨rfl, rfl⟩, ⟨{ full with ax := ⟨.startFlags, 254, false⟩, startFlags := 255 }, by decide⟩,
    ⟨{ full with ax := ⟨.endFlags, 254, false⟩, endFlags := 255 }, by decide⟩, { full with ax := ⟨.endFlags, 2, true⟩ }, by decide⟩

theorem witness_NextByteEmitsBody :
    (∃ s : State, s.mode = .idle ∧ s.ax.state = .header ∧ s.readBuf .hdr s.ax.idx.toNat = some 0xF0) ∧
    (∃ s : State, s.mode = .idle ∧ s.ax.state = .data ∧ s.readBuf .info s.ax.idx.toNat = some 0x2E) ∧
    (∃ s : State, s.mode = .idle ∧ s.ax.state = .header ∧ s.readBuf .hdr s.ax.idx.toNat = none) ∧
    (∃ s : State, s.mode = .idle ∧ s.ax.state = .data ∧ s.readBuf .info s.ax.idx.toNat = none) ∧
    (∃ s : State, s.mode = .idle ∧ s.ax.state = .fcs1) ∧ ∃ s : State, s.mode = .idle ∧ s.ax.state = .fcs2 :=
  ⟨⟨{ full with ax := ⟨.header, 22, false⟩ }, by decide⟩, ⟨{ full with ax := ⟨.data, 31, false⟩ }, by decide⟩,
    ⟨{ State.reset with ax := ⟨.header, 0, false⟩ }, by decide⟩, ⟨{ State.reset with ax := ⟨.data, 31, false⟩ }, by decide⟩,
    ⟨{ full with ax := ⟨.fcs1, 0, false⟩ }, by decide⟩, { full with ax := ⟨.fcs2, 0, false⟩ }, by decide⟩

theorem witness_FrameSequenceLaw :
    full.mode = .idle ∧ full.ax.state = .init ∧ full.ax.finished = false ∧ full.startFlags ≠ 0 ∧ full.endFlags ≠ 0 ∧
    header.length = 23 ∧ info.length = 32 ∧ full.Holds .hdr header ∧ full.Holds .info info :=
  ⟨rfl, rfl, rfl, by decide, by decide, rfl, rfl, header_held, info_held⟩

theorem witness_FrameStateMovesOnlyForward :
    ∃ s t, exec .ax25NextByte s = .next t ∧ Instr.ax25NextByte.canon ∉ [Instr.ax25Reset, .txStartAprs, .hwReset] ∧
      s.ax.state = .endFlags ∧ s.ax.finished = true :=
  ⟨{ full with ax := ⟨.endFlags, 2, true⟩ }, _, rfl, by decide, rfl, rfl⟩

theorem witness_NextBitStuffsOrSendsSourceBit :
    (∃ s : State, s.mode = .idle ∧ s.enc.stuff = true ∧ s.enc.ones = 5) ∧
    (∃ s : State, s.mode = .idle ∧ ¬ (s.enc.stuff = true ∧ s.enc.ones = 5) ∧ s.enc.bl ≠ 0 ∧ s.enc.sr.getLsbD 0 = false) ∧
    ∃ s : State, s.mode = .idle ∧ ¬ (s.enc.stuff = true ∧ s.enc.ones = 5) ∧ s.enc.bl ≠ 0 ∧ s.enc.sr.getLsbD 0 = true :=
  ⟨⟨{ full with enc := ⟨0x17, 7, 5, true, true⟩ }, by decide⟩, ⟨{ full with enc := ⟨0, 1, 5, false, true⟩ }, by decide⟩,
    { full with enc := ⟨1, 1, 7, true, true⟩ }, by decide⟩

theorem witness_NextBitPullsTheNextByte :
    (full.mode = .idle ∧ ¬ (full.enc.stuff = true ∧ full.enc.ones = 5) ∧ full.enc.bl = 0 ∧ NextByteReadable full) ∧
    ∃ (s : State) (x : Fault), s.mode = .idle ∧ ¬ (s.enc.stuff = true ∧ s.enc.ones = 5) ∧ s.enc.bl = 0 ∧
      exec .ax25NextByte s = .fault x :=
  ⟨by decide, { State.reset with ax := ⟨.header, 0, false⟩ }, _, rfl, by decide, rfl, rfl⟩

theorem witness_NrziLevelChangesExactlyOnZero : full.mode = .idle ∧ ∃ t, exec .nrziNextBit full = .next t :=
  ⟨rfl, _, rfl⟩

theorem witness_StuffedStreamHasNoSixOnes :
    full.mode = .idle ∧ full.startFlags ≠ 0 ∧ full.endFlags ≠ 0 ∧ header.length = 23 ∧ info.length = 32 ∧
    full.Holds .hdr header ∧ full.Holds .info info ∧ ∃ t, exec .ax25Reset full = .next t :=
  ⟨rfl, by decide, by decide, rfl, rfl, header_held, info_held, _, rfl⟩

theorem witness_BitProducerSendsTheStuffedFrame :
    full.mode = .idle ∧ full.startFlags ≠ 0 ∧ full.endFlags ≠ 0 ∧ header.length = 23 ∧ info.length = 32 ∧
    full.Holds .hdr header ∧ full.Holds .info info ∧ 0 < (frameLine full header info).length :=
  ⟨rfl, by decide, by decide, rfl, rfl, header_held, info_held, by decide +kernel⟩

theorem witness_RttyInitLatchesTheMessage :
    (∃ s : State, s.mode = .idle ∧ 1 ≤ s.rttyLen.toNat ∧ s.rttyLen.toNat ≤ 256) ∧
    (∃ s : State, s.mode = .idle ∧ s.rttyLen.toNat = 0) ∧ (∃ s : State, s.mode = .idle ∧ 256 < s.rttyLen.toNat) ∧
    keying.mode ≠ .idle :=
  ⟨⟨{ full with rttyLen := 256 }, by decide⟩, ⟨State.reset, by decide⟩, ⟨{ full with rttyLen := 257 }, by decide⟩, by decide⟩

theorem witness_RttyNextBitIdleAndStart :
    (∃ s : State, s.mode = .idle ∧ s.rtty.fin = false ∧ s.rtty.state = .idle ∧ s.rtty.idleLeft ≠ 0) ∧
    (∃ s : State, s.mode = .idle ∧ s.rtty.fin = false ∧ s.rtty.state = .start ∧
      s.readBuf .msg s.rtty.cidx.toNat = some 0x42) ∧
    (∃ s : State, s.mode = .idle ∧ s.rtty.fin = false ∧ (s.rtty.state = .idle ∧ s.rtty.idleLeft = 0) ∧
      s.readBuf .msg s.rtty.cidx.toNat = some 0x41) ∧
    ∃ s : State, s.mode = .idle ∧ s.rtty.fin = false ∧ s.rtty.state = .start ∧ s.readBuf .msg s.rtty.cidx.toNat = none :=
  ⟨⟨{ full with rtty := ⟨.idle, 0, 0, 1, false, 0, 2⟩ }, by decide⟩, ⟨{ full with rtty := ⟨.start, 1, 0, 0, false, 0, 2⟩ }, by decide⟩,
    ⟨{ full with rtty := ⟨.idle, 0, 0, 0, false, 0, 2⟩ }, by decide⟩,
    { full with rtty := ⟨.start, 255, 0, 0, false, 0, 256⟩ }, by decide⟩

theorem witness_RttyNextBitCharacterStopAndFinish :
    (∃ s : State, s.mode = .idle ∧ s.rtty.fin = false ∧ s.rtty.state = .character ∧ s.rtty.bidx.toNat = 6) ∧
    (∃ s : State, s.mode = .idle ∧ s.rtty.fin = false ∧ s.rtty.state = .character ∧ s.rtty.bidx.toNat < 6) ∧
    (∃ s : State, s.mode = .idle ∧ s.rtty.fin = false ∧ s.rtty.state = .stop1) ∧
    (∃ s : State, s.mode = .idle ∧ s.rtty.fin = false ∧ s.rtty.state = .stop2 ∧ s.rtty.cidx.toNat + 1 < s.rtty.len.toNat) ∧
    (∃ s : State, s.mode = .idle ∧ s.rtty.fin = false ∧ s.rtty.state = .stop2 ∧ s.rtty.cidx.toNat + 1 = s.rtty.len.toNat) ∧
    full.mode = .idle ∧ full.rtty.fin = true :=
  ⟨⟨{ full with rtty := ⟨.character, 0, 6, 0, false, 0, 2⟩ }, by decide⟩,
    ⟨{ full with rtty := ⟨.character, 0, 5, 0, false, 0, 2⟩ }, by decide⟩,
    ⟨{ full with rtty := ⟨.stop1, 0, 0, 0, false, 0, 2⟩ }, by decide⟩,
    ⟨{ full with rtty := ⟨.stop2, 254, 0, 0, false, 0, 256⟩ }, by decide⟩,
    ⟨{ full with rtty := ⟨.stop2, 255, 0, 0, false, 0, 256⟩ }, by decide⟩, rfl, rfl⟩

theorem witness_RttyFramingLaw :
    full.mode = .idle ∧ message.length = full.rttyLen.toNat ∧ message ≠ [] ∧ full.Holds .msg message ∧
    22 < full.rttyIdle.toNat + 10 * message.length :=
  ⟨rfl, rfl, by decide, message_held, by decide⟩

/-- The RTTY FSM `r` in IDLE, with the example message. -/
def inRtty (r : RttyFsm) : State := { full with rtty := r }

theorem witness_RttyStateMovesAlongItsCycle :
    (∃ t, exec .rttyNextBit (inRtty ⟨.idle, 0, 0, 1, false, 0, 2⟩) = .next t ∧ t.rtty.state = .start) ∧
    (∃ t, exec .rttyNextBit (inRtty ⟨.idle, 0, 0, 0, false, 0, 2⟩) = .next t ∧ t.rtty.state = .character) ∧
    (∃ t, exec .rttyNextBit (inRtty ⟨.start, 1, 0, 0, false, 0, 2⟩) = .next t ∧ t.rtty.state = .character) ∧
    (∃ t, exec .rttyNextBit (inRtty ⟨.character, 1, 5, 0, false, 0, 2⟩) = .next t ∧ t.rtty.state = .character) ∧
    (∃ t, exec .rttyNextBit (inRtty ⟨.character, 1, 6, 0, false, 0, 2⟩) = .next t ∧ t.rtty.state = .stop1) ∧
    (∃ t, exec .rttyNextBit (inRtty ⟨.stop1, 1, 0, 0, false, 0, 2⟩) = .next t ∧ t.rtty.state = .stop2) ∧
    (∃ t, exec .rttyNextBit (inRtty ⟨.stop2, 0, 0, 0, false, 0, 2⟩) = .next t ∧ t.rtty.state = .start) ∧
    (∃ t, exec .tickBaud { keying with rtty := ⟨.stop2, 1, 0, 0, false, 0, 2⟩ } = .next t ∧ t.rtty.state = .idle) ∧
    State.Inv (inRtty ⟨.stop2, 1, 0, 0, false, 0, 2⟩) :=
  ⟨⟨_, rfl, rfl⟩, ⟨_, rfl, rfl⟩, ⟨_, rfl, rfl⟩, ⟨_, rfl, rfl⟩, ⟨_, rfl, rfl⟩, ⟨_, rfl, rfl⟩, ⟨_, rfl, rfl⟩, ⟨_, rfl, rfl⟩,
    by decide +kernel⟩

theorem witness_AprsAndRttyPathsAreIndependent :
    ∃ mem : Memory, mem ≠ full.mem ∧ ∀ k, State.readBuf { full with mem := mem } .msg k = full.readBuf .msg k :=
  ⟨cells .hdr [0] ++ cells .msg message, by decide, fun k => by
    by_cases h : k < 256
    · have : ∀ k, k < 256 → State.readBuf { full with mem := cells .hdr [0] ++ cells .msg message } .msg k =
          full.readBuf .msg k := by decide +kernel
      exact this k h
    · simp [State.readBuf, Buf.size, Config.msgLen, h]⟩

theorem witness_TxStartAprsStartsAFrame : full.mode = .idle ∧ keying.mode ≠ .idle := by decide

theorem witness_TxStartRttyStartsAMessage :
    (∃ s : State, s.mode = .idle ∧ 1 ≤ s.rttyLen.toNat ∧ s.rttyLen.toNat ≤ 256) ∧
    (∃ s : State, s.mode = .idle ∧ s.rttyLen.toNat = 0) ∧ (∃ s : State, s.mode = .idle ∧ 256 < s.rttyLen.toNat) ∧
    sending.mode ≠ .idle :=
  ⟨⟨{ full with rttyLen := 1 }, by decide⟩, ⟨State.reset, by decide⟩, ⟨{ full with rttyLen := 511 }, by decide⟩, by decide⟩

theorem witness_IgnoredTicksChangeNothing : full.mode ≠ .aprs ∧ sending.mode ≠ .rtty := by decide

theorem witness_SampleTickTogglesAuxAndCounts :
    (∃ s : State, s.mode = .aprs ∧ s.div.toNat = 20) ∧ sending.mode = .aprs ∧ sending.div.toNat = 21 ∧
    ∃ t, exec .tickSample sending = .next t :=
  ⟨⟨{ sending with div := 20 }, by decide⟩, rfl, rfl, _, rfl⟩

theorem witness_BaudEventConsumesOneLineBit :
    (sending.mode = .aprs ∧ sending.div = 21 ∧ NextByteReadable sending) ∧
    (∃ s : State, s.mode = .aprs ∧ s.div = 21 ∧ s.enc.stuff = true ∧ s.enc.ones = 5) ∧
    (∃ s : State, s.mode = .aprs ∧ s.div = 21 ∧ s.enc.bl ≠ 0) ∧
    ∃ (s : State) (x : Fault), s.mode = .aprs ∧ s.div = 21 ∧ exec .nrziNextBit { s with mode := .idle } = .fault x :=
  ⟨by decide, ⟨{ sending with enc := ⟨0, 0, 5, true, true⟩ }, by decide⟩, ⟨{ sending with enc := ⟨1, 1, 0, false, true⟩ }, by decide⟩,
    { State.reset with mode := .aprs, div := 21, ax := ⟨.header, 0, false⟩ }, _, rfl, rfl, rfl⟩

theorem witness_BaudTickConsumesOneRttyBit :
    full.mode ≠ .rtty ∧ (∃ s : State, s.mode = .rtty ∧ s.rtty.fin = false ∧ s.rtty.state = .start ∧
      s.readBuf .msg s.rtty.cidx.toNat ≠ none) ∧
    (keying.mode = .rtty ∧ keying.rtty.fin = false ∧ ¬ (keying.rtty.state = .start ∨
      (keying.rtty.state = .idle ∧ keying.rtty.idleLeft = 0))) ∧
    ∃ (s : State) (x : Fault), s.mode = .rtty ∧ s.rtty.fin = false ∧
      exec .rttyNextBit { s with mode := .idle } = .fault x :=
  ⟨by decide, ⟨{ keying with rtty := ⟨.start, 1, 0, 0, false, 0, 2⟩ }, by decide⟩, by decide,
    { State.reset with mode := .rtty, rtty := ⟨.start, 0, 0, 0, false, 0, 2⟩ }, _, rfl, rfl, rfl⟩

theorem witness_AprsTransmissionRunsItsExactLength :
    full.mode = .idle ∧ full.startFlags ≠ 0 ∧ full.endFlags ≠ 0 ∧ header.length = 23 ∧ info.length = 32 ∧
    full.Holds .hdr header ∧ full.Holds .info info ∧ 22 ≤ 22 * (frameLine full header info).length :=
  ⟨rfl, by decide, by decide, rfl, rfl, header_held, info_held, by decide +kernel⟩

theorem witness_RttyTransmissionRunsItsExactLength :
    full.mode = .idle ∧ message.length = full.rttyLen.toNat ∧ message ≠ [] ∧ full.Holds .msg message ∧
    23 ≤ full.rttyIdle.toNat + 10 * message.length :=
  ⟨rfl, rfl, by decide, message_held, by decide⟩

theorem witness_ModeChangesOnlyAtStartEndAndReset : ∃ t, exec .txStartAprs full = .next t ∧ t.mode ≠ full.mode :=
  ⟨_, rfl, by decide⟩

theorem witness_RunningTransmissionIsUndisturbed :
    sending.mode ≠ .idle ∧ (∃ t, exec .crcLoad sending = .next t) ∧
    Instr.crcLoad ∉ [Instr.tickSample, .tickBaud, .hwReset] :=
  ⟨by decide, ⟨_, rfl⟩, by decide⟩

theorem witness_DoneIsSetAtTheEndAndClearedByTheHost :
    (∃ s t, exec .tickBaud s = .next t ∧ s.irq = false ∧ t.irq = true) ∧
    ∃ s t, exec (.busWrite 0x00C 0x08) s = .next t ∧ s.irq = true ∧ t.irq = false :=
  ⟨⟨{ keying with rtty := ⟨.stop2, 1, 0, 0, false, 0x42, 2⟩ }, _, rfl, by decide, by decide⟩,
    { full with done := true }, _, rfl, by decide, by decide⟩

theorem witness_RegisterReadsReturnTheirFields :
    (∀ o ∈ [0x000, 0x004, 0x008, 0x00C, 0x010, 0x014, 0x018, 0x01C, 0x020, 0x024, 0x028, 0x030, 0x034, 0x038, 0x03C],
      Reaches (BitVec.ofNat 12 o) o ∧ Reaches (BitVec.ofNat 12 (o + 3)) o) ∧ Unmapped 0x02C ∧ Unmapped 0xFFF := by decide

theorem witness_BufferReadsZeroExtendOrFault :
    (Reaches 0x15B (0x100 + 4 * 22) ∧ full.readBuf .hdr 22 = some 0xF0) ∧
    (Reaches 0x27F (0x200 + 4 * 31) ∧ full.readBuf .info 31 = some 0x2E) ∧
    (Reaches 0x400 (0x400 + 4 * 0) ∧ full.readBuf .msg 0 = some 0x41) ∧
    (Reaches 0x7FF (0x400 + 4 * 255) ∧ full.readBuf .msg 255 = none) := by decide

theorem witness_UnmappedAndReadOnlyWritesAreIgnored :
    (∀ a ∈ [0x02C#12, 0x02F#12, 0x040#12, 0x0FF#12, 0x15C#12, 0x1FF#12, 0x280#12, 0x3FF#12, 0x800#12, 0xFFF#12], Unmapped a) ∧
    ∀ a ∈ [0x008#12, 0x00B#12, 0x010#12, 0x017#12, 0x030#12, 0x03F#12], ReadOnly a := by decide

theorem witness_AccessesOutsideCmdAreIdempotent :
    (∃ t, exec (.busRead 0x004) full = .next t) ∧ ¬ Reaches 0x004 0 ∧
    (∃ t, exec (.busWrite 0x004 7) full = .next t) ∧ ∃ t, exec (.busWrite 0x100 7) sending = .next t :=
  ⟨⟨_, rfl⟩, by decide, ⟨_, rfl⟩, _, rfl⟩

theorem witness_RegisterWritesStoreTheirSlice :
    full.mode = .idle ∧ Reaches 0x007 0x004 ∧ Reaches 0x00F 0x00C ∧ Reaches 0x01B 0x018 ∧ Reaches 0x01F 0x01C ∧
    Reaches 0x023 0x020 ∧ Reaches 0x027 0x024 ∧ Reaches 0x02B 0x028 ∧
    (sending.mode ≠ .idle ∧ 0x018 ≤ (0x018#12).toNat ∧ (0x02B#12).toNat < 0x02C) := by decide

theorem witness_BufferWriteStoresExactlyOneByte :
    full.mode = .idle ∧ 22 < Buf.size .hdr ∧ Reaches 0x15B (0x100 + 4 * 22) ∧ 31 < Buf.size .info ∧
    Reaches 0x27C (0x200 + 4 * 31) ∧ 255 < Buf.size .msg ∧ Reaches 0x7FF (0x400 + 4 * 255) ∧ sending.mode ≠ .idle := by
  decide

theorem witness_ReadAfterWriteReturnsMaskedData :
    Reaches 0x004 0x004 ∧ full.mode = .idle ∧ Reaches 0x018 0x018 ∧ Reaches 0x027 0x024 ∧ Reaches 0x028 0x028 ∧
    Reaches 0x01C 0x01C ∧ Reaches 0x023 0x020 ∧ (BusyProtected 0x15B ∧ 0x100 ≤ (0x15B#12).toNat) ∧
    (sending.mode ≠ .idle ∧ BusyProtected 0x27C) ∧ ∃ u, exec (.busRead 0x27C) sending = .next u :=
  ⟨by decide, by decide, by decide, by decide, by decide, by decide, by decide, by decide, by decide, _, rfl⟩

theorem witness_OnlyHostWritesChangeBufferBytes :
    (∃ t, exec .hwReset full = .next t ∧ t.readBuf .hdr 0 ≠ full.readBuf .hdr 0) ∧
    ∃ t, exec (.busWrite 0x7FC 1) full = .next t ∧ t.readBuf .msg 255 ≠ full.readBuf .msg 255 :=
  ⟨⟨_, rfl, by decide⟩, _, rfl, by decide⟩

theorem witness_OnlyNamedOperationsWriteResultCrcFcs :
    (∃ t, exec .b91Tlm full = .next t ∧ t.result ≠ full.result) ∧
    (∃ t, exec .crcLoad full = .next t ∧ t.crc ≠ full.crc) ∧
    (∃ s t, exec .hwReset s = .next t ∧ t.fcs ≠ s.fcs) ∧
    (∃ t, exec .fcsCompute full = .next t ∧ full.fcsStale = true ∧ t.fcsStale = false) ∧
    ∃ s t, exec (.busWrite 0x200 0) s = .next t ∧ s.fcsStale = false ∧ t.fcsStale = true :=
  ⟨⟨_, rfl, by decide⟩, ⟨_, rfl, by decide⟩, ⟨{ full with fcs := 1 }, _, rfl, by decide⟩,
    ⟨_, computeFcs_of_bytes (header_loaded 0xFFFF#16) (info_loaded 0xFFFF#16), rfl, rfl⟩,
    { full with fcsStale := false }, _, rfl, rfl, rfl⟩

theorem witness_EncoderFlagsHaveOnlyTheirWriters :
    (∃ s t, exec .ax25NextByte s = .next t ∧ t.ax.finished ≠ s.ax.finished) ∧
    (∃ t, exec .nrziNextBit full = .next t ∧ t.enc.level ≠ full.enc.level) ∧
    (∃ s t, exec .ax25Reset s = .next t ∧ t.enc.stuff ≠ s.enc.stuff) ∧
    (∃ t, exec .rttyInit full = .next t ∧ full.rtty.fin = true ∧ t.rtty.fin = false) ∧
    ∃ s t, exec .rttyNextBit s = .next t ∧ s.rtty.fin = false ∧ t.rtty.fin = true :=
  ⟨⟨{ full with ax := ⟨.endFlags, 1, false⟩ }, _, rfl, by decide⟩, ⟨_, rfl, by decide⟩,
    ⟨{ full with enc := ⟨0, 0, 0, true, false⟩ }, _, rfl, by decide⟩, ⟨_, rfl, rfl, rfl⟩,
    { full with rtty := ⟨.stop2, 1, 0, 0, false, 0, 2⟩ }, _, rfl, rfl, by decide⟩

theorem witness_EveryStepKeepsTheInvariant :
    State.Inv { full with inputs := [.event 0#2] } ∧ ∃ t, step { full with inputs := [.event 0#2] } = .next t :=
  ⟨by decide +kernel, _, rfl⟩

/-- The invariant holds in the middle of a frame and of a message too. -/
theorem witness_invariant_while_transmitting : sending.Inv ∧ keying.Inv := by decide +kernel

end Sys2Proof.Tests
end

section
/-! PROOFS. The hardware reset and the output pins (10_state.md R41, R50; 70_reset_and_hazards.md R330, R331). -/

open Sys2Proof.Spec

namespace Sys2Proof.Machine

/-! ### Output pins -/

@[simp] theorem State.symbolPin_eq (s : State) : s.symbolPin = s.sym := rfl

@[simp] theorem State.auxPin_eq (s : State) : s.auxPin = s.aux := rfl

@[simp] theorem State.irq_eq (s : State) : s.irq = s.done := rfl

@[simp] theorem State.txActive_eq_true_iff (s : State) : s.txActive = true ↔ s.mode ≠ .idle := by
  simp only [State.txActive, decide_eq_true_eq]

@[simp] theorem State.txActive_eq_false_iff (s : State) : s.txActive = false ↔ s.mode = .idle := by
  simp only [State.txActive, decide_eq_false_iff_not, not_not]

/-! ### Hardware reset -/

/-- R330: the reset has no premise on the mode and cannot stop. -/
@[simp] theorem exec_hwReset (s : State) : exec .hwReset s = .next s.hardReset := rfl

/-- With no byte listed, every buffer byte is unwritten (R40). -/
theorem readBuf_eq_none_of_mem_nil {s : State} (h : s.mem = []) (b : Buf) (i : Nat) : s.readBuf b i = none := by
  simp only [State.readBuf, h, Memory.read_nil, ite_self]

/-- The reset state is a fixed point of the hardware reset, so what holds after every reset holds of it too. -/
theorem hardReset_reset : State.reset.hardReset = State.reset := rfl

/-- The table of R50 holds after a hardware reset of any state: the registers by their values, the buffers because no byte
is listed, the pins because MODE is IDLE and SYM, AUX and DONE are 0. -/
theorem atReset_hardReset (s : State) : AtReset s.hardReset := by
  have hmem : s.hardReset.mem = [] := rfl
  have htx : s.hardReset.txActive = false := (State.txActive_eq_false_iff _).2 rfl
  exact ⟨rfl, rfl, rfl, rfl, rfl, rfl, rfl, rfl, rfl, rfl, rfl, rfl, rfl, rfl, rfl, rfl, rfl, rfl, rfl, rfl,
    readBuf_eq_none_of_mem_nil hmem, rfl, rfl, htx, rfl⟩

theorem atReset_reset : AtReset State.reset := hardReset_reset ▸ atReset_hardReset State.reset

/-! ### The obligations -/

/-- Settles O57: HW_RESET answers `State.hardReset`, which meets the reset table from every state. -/
theorem hardwareResetReachesTheResetTable : Obligations.HardwareResetReachesTheResetTable :=
  ⟨atReset_reset, fun s => ⟨s.hardReset, exec_hwReset s, atReset_hardReset s⟩⟩

/-- Settles O58: each pin by its own lemma. -/
theorem outputPinsFollowState : Obligations.OutputPinsFollowState := fun s =>
  ⟨s.symbolPin_eq, s.auxPin_eq, s.txActive_eq_true_iff, s.irq_eq⟩

end Sys2Proof.Machine
end

section
/-! PROOFS. Command dispatch (30_encoding.md R95-R97; 46_host_bus.md R281). -/

open Sys2Proof.Spec

namespace Sys2Proof.Machine

/-! ### The command table -/

/-- The statements' table and the model's list the same codes in the same order. -/
theorem map_fst_commands : commands.map Prod.fst = commandCodes := rfl

theorem commandOfCode_of_mem_commands : ∀ r ∈ commands, commandOfCode r.1 = some r.2.1 := by decide

theorem commandOfCode_eq_none_of_forall_commands {op : Byte} (h : ∀ r ∈ commands, op ≠ r.1) : commandOfCode op = none := by
  refine commandOfCode_none fun hop => ?_
  rw [← map_fst_commands, List.mem_map] at hop
  obtain ⟨r, hr, hop⟩ := hop
  exact h r hr hop.symm

theorem mem_idleCommands_of_mem_commands : ∀ r ∈ commands, r.2.2 = false → r.2.1 ∈ idleCommands := by decide

/-! ### Writes to CMD and the busy rule -/

theorem lt_four_of_reaches_zero {a : Addr} (h : Reaches a 0) : a.toNat < 4 := by
  change a.toNat / 4 * 4 = 0 at h
  omega

theorem exec_busWrite_cmd {a : Addr} (h : Reaches a 0) (d : Word) (s : State) :
    exec (.busWrite a d) s = dispatchCommand d s := by
  change execBusWrite a d s = dispatchCommand d s
  unfold execBusWrite
  rw [location_cmd (lt_four_of_reaches_zero h)]

/-- The busy rule (R304) for the commands, whether they arrive by a write to CMD or by name. -/
theorem exec_idleCommand_busy {i : Instr} (hi : i ∈ idleCommands) {s : State} (hm : s.mode ≠ .idle) :
    exec i s = .next (s.recordError .busy) := by
  simp only [idleCommands, List.mem_cons, List.not_mem_nil, or_false] at hi
  rcases hi with rfl | rfl | rfl | rfl | rfl | rfl | rfl | rfl <;>
    simp only [exec, execFcsCompute, execAx25Reset, execAx25NextByte, execNrziNextBit, execRttyInit, execRttyNextBit,
      execTxStartAprs, execTxStartRtty, whenIdle_busy _ hm]

theorem exec_busWrite_of_illegal_code {a : Addr} (ha : Reaches a 0) {d : Word}
    (hd : ∀ r ∈ commands, d.extractLsb' 0 8 ≠ r.1) (s : State) :
    exec (.busWrite a d) s = .next (s.recordError .illegalCmd) := by
  rw [exec_busWrite_cmd ha, dispatchCommand_of_none (commandOfCode_eq_none_of_forall_commands hd)]

theorem exec_busWrite_of_command {a : Addr} (ha : Reaches a 0) {d : Word} {r : Byte × Instr × Bool} (hr : r ∈ commands)
    (hd : d.extractLsb' 0 8 = r.1) (s : State) : exec (.busWrite a d) s = exec r.2.1 s := by
  have hcode : commandOfCode (opField d) = some r.2.1 := by
    rw [opField, hd, commandOfCode_of_mem_commands r hr]
  rw [exec_busWrite_cmd ha, (dispatchCommand_of_some hcode s).1]

/-! ### The obligation -/

/-- Settles O7: a listed code runs its command, whose own rule is BUSY outside IDLE where the table says so. -/
theorem commandWriteRunsTheCommand : Obligations.CommandWriteRunsTheCommand := by
  intro a d s ha
  refine ⟨fun hd => exec_busWrite_of_illegal_code ha hd s, fun r hr hd => ?_⟩
  rw [exec_busWrite_of_command ha hr hd]
  split
  · next h => exact exec_idleCommand_busy (mem_idleCommands_of_mem_commands r hr h.2) h.1
  · rfl

end Sys2Proof.Machine
end

section
/-! PROOFS. The CRC-16 commands (40_crc16.md R121-R128). -/

open Sys2Proof.Spec

namespace Sys2Proof.Machine

/-! ### The words of the commands -/

/-- A CMD word is the BUS_WRITE of it to offset 0x000 (R90, R91). -/
theorem decode_cmdWord (d : Word) : decode (.bus (1#1 ++ 0x000#12 ++ d)) = .ok (Instr.busWrite 0x000#12 d).canon :=
  decode_write 0x000#12 d

/-- Every row of the command table is encoded by its OP code (R95). -/
theorem encodes_of_mem_commands {r : Byte × Instr × Bool} (hr : r ∈ commands) : Encodes r.1 r.2.1 := by
  intro d hd
  have hcode : commandOfCode (opField d) = some r.2.1 := by
    rw [opField, hd, commandOfCode_of_mem_commands r hr]
  rw [decode_cmdWord, Instr.canon, if_pos (by decide), hcode, Option.getD_some]

/-! ### One bit and one byte -/

/-- R121, as the spec writes it: the feedback is applied exactly when the low bit differs from the data bit. -/
theorem crcBit_eq (s : BitVec 16) (b : Bool) :
    crcBit s b = if s.getLsbD 0 = b then s >>> 1 else (s >>> 1) ^^^ 0x8408#16 := by
  unfold crcBit
  by_cases h : s.getLsbD 0 = b
  · rw [if_pos h, if_neg (by rw [h, bne_self_eq_false]; decide)]
  · rw [if_neg h, if_pos (bne_iff_ne.2 h), Config.crcPoly]

/-! ### Buffers with and without an unwritten byte -/

/-- A buffer with no unwritten byte can be read whole. -/
theorem needBuf_ok_of_written {s : State} {b : Buf} (h : ¬ ∃ k, k < b.size ∧ s.readBuf b k = none) :
    ∃ vs, s.needBuf b = .ok vs := by
  refine ⟨(List.range b.size).map fun k => (s.readBuf b k).getD 0, needBuf_of_holds (by simp) ⟨by simp, fun k hk => ?_⟩⟩
  have hk : k < b.size := by simpa using hk
  obtain ⟨v, hv⟩ := Option.ne_none_iff_exists'.1 fun hn => h ⟨k, hk, hn⟩
  simp [hv, hk]

theorem crcOverBuf_of_unwritten {s : State} {b : Buf} (h : ∃ k, k < b.size ∧ s.readBuf b k = none) :
    ∃ k, k < b.size ∧ s.readBuf b k = none ∧ crcOverBuf b s = .fault (.uninit b k) := by
  obtain ⟨k, hk, hn, he⟩ := needBuf_error h
  exact ⟨k, hk, hn, by simp [crcOverBuf, he, Except.map]⟩

/-- The header is read first, so the information field decides only when the header is written (R128, R312). -/
theorem computeFcs_of_unwritten {s : State}
    (h : (∃ k, k < Buf.size .hdr ∧ s.readBuf .hdr k = none) ∨ ∃ k, k < Buf.size .info ∧ s.readBuf .info k = none) :
    ∃ b k, k < b.size ∧ s.readBuf b k = none ∧ computeFcs s = .fault (.uninit b k) := by
  by_cases hh : ∃ k, k < Buf.size .hdr ∧ s.readBuf .hdr k = none
  · obtain ⟨k, hk, hn, he⟩ := needBuf_error hh
    exact ⟨.hdr, k, hk, hn, by simp [computeFcs, he]⟩
  · obtain ⟨vs, hv⟩ := needBuf_ok_of_written hh
    obtain ⟨k, hk, hn, he⟩ := needBuf_error (h.resolve_left hh)
    exact ⟨.info, k, hk, hn, by simp [computeFcs, hv, he]⟩

/-! ### The commands -/

theorem exec_crcHdr (s : State) : exec .crcHdr s = crcOverBuf .hdr s := rfl

theorem exec_crcInfo (s : State) : exec .crcInfo s = crcOverBuf .info s := rfl

theorem exec_fcsCompute_idle {s : State} (hm : s.mode = .idle) : exec .fcsCompute s = computeFcs s :=
  whenIdle_idle computeFcs hm

/-- Of all effects only FCS_COMPUTE's own and the reset's touch FCS. -/
theorem Effect.fcs_eq_or {s t : State} {i : Instr} (h : Effect s i t) :
    t.fcs = s.fcs ∨ i = .fcsCompute ∨ i = .hwReset := by
  cases h with
  | fcs => exact .inr (.inl rfl)
  | hwReset => exact .inr (.inr rfl)
  | storeReg a d t h =>
    left
    rcases storeReg_cases h with ⟨-, rfl⟩ | ⟨-, rfl⟩ | ⟨-, c, sf, ef, ri, rl, rfl, -⟩
    · rfl
    · exact clearStatus_fcs s d
    · rfl
  | baudEvent hm hd o f e h t ht => left; rw [endTransmission_if, ht]
  | baudTick hm b r h t ht => left; rw [endTransmission_if, ht]
  | _ => exact .inl rfl

theorem canon_eq_of_fcs_ne {i : Instr} {s t : State} (h : exec i s = .next t) (hne : t.fcs ≠ s.fcs) :
    i.canon = .fcsCompute ∨ i = .hwReset :=
  ((exec_effect h).fcs_eq_or.resolve_left hne).imp_right fun hr => eq_of_canon hr (by decide)

/-! ### The obligations -/

/-- Settles O13: a whole buffer is folded, and an unwritten byte stops the command before CRC changes. -/
theorem crcOverBuffersCompletesOrFaults : Obligations.CrcOverBuffersCompletesOrFaults := by
  refine ⟨encodes_of_mem_commands (r := (0x03, .crcHdr, true)) (by decide),
    encodes_of_mem_commands (r := (0x04, .crcInfo, true)) (by decide), fun s => ?_⟩
  simp only [exec_crcHdr, exec_crcInfo]
  refine ⟨?_, ?_, ?_, ?_⟩
  · exact fun hs hl h => crcOverBuf_of_bytes (needBuf_of_holds hl h)
  · exact fun xs hl h => crcOverBuf_of_bytes (needBuf_of_holds hl h)
  · exact crcOverBuf_of_unwritten (b := .hdr)
  · exact crcOverBuf_of_unwritten (b := .info)

/-- Settles O14: the fold starts from `Config.crcInit`, not from CRC; FCS has no other writer by `Effect.fcs_eq_or`. -/
theorem fcsComputeFromScratch : Obligations.FcsComputeFromScratch := by
  refine ⟨encodes_of_mem_commands (r := (0x05, .fcsCompute, false)) (by decide),
    fun i s t => canon_eq_of_fcs_ne, fun s => ⟨?_, ?_, ?_⟩⟩
  · intro hs xs hm hhl hxl hh hx
    rw [exec_fcsCompute_idle hm]
    exact computeFcs_of_bytes (needBuf_of_holds hhl hh) (needBuf_of_holds hxl hx)
  · exact exec_idleCommand_busy (by simp)
  · intro hm h
    rw [exec_fcsCompute_idle hm]
    exact computeFcs_of_unwritten h

/-- Settles O12: both commands are one update of CRC in every state, and the byte's fold over its bit numbers is eight
applications of the bit. -/
theorem crcLoadAndByteUpdateCrcAlone : Obligations.CrcLoadAndByteUpdateCrcAlone :=
  ⟨encodes_of_mem_commands (r := (0x01, .crcLoad, true)) (by decide),
    encodes_of_mem_commands (r := (0x02, .crcByte, true)) (by decide),
    fun _ => ⟨rfl, rfl⟩, crcBit_eq, fun _ _ => rfl⟩

end Sys2Proof.Machine
end

section
/-! PROOFS. The AX.25 frame commands (42_ax25_frame.md R162-R171). -/

open Sys2Proof.Spec

namespace Sys2Proof.Machine

/-! ### The frame FSM's counters -/

/-- R163-R165: the count with the three fields of the FSM written out. -/
theorem FrameFsm.count_of_state {f : FrameFsm} {st : AxState} (h : f.state = st) (limit : BitVec 8) (next : AxState) :
    f.count limit next =
      if f.idx + 1 = limit then ⟨next, 0, f.finished⟩ else ⟨st, f.idx + 1, f.finished⟩ := by
  rw [← h]
  rfl

/-- R168: an unfinished frame counts one more closing flag. -/
theorem FrameFsm.countEnd_of_unfinished {f : FrameFsm} (h : f.finished = false) (limit : BitVec 8) :
    f.countEnd limit = { f with idx := f.idx + 1, finished := decide (f.idx + 1 = limit) } := by
  rw [FrameFsm.countEnd, h]
  rfl

/-- R169: a finished frame holds its FSM. -/
theorem FrameFsm.countEnd_of_finished {f : FrameFsm} (h : f.finished = true) (limit : BitVec 8) :
    f.countEnd limit = f := by
  rw [FrameFsm.countEnd, if_pos h]

/-- R162, R163: the first flag of a frame is counted from 0, whatever AX_IDX held. -/
theorem FrameFsm.enter_count_of_init {f : FrameFsm} (h : f.state = .init) (limit : BitVec 8) (next : AxState) :
    f.enter.count limit next = if 1 = limit then ⟨next, 0, f.finished⟩ else ⟨.startFlags, 1, f.finished⟩ := by
  rw [FrameFsm.enter_of_init h]
  rfl

/-! ### AX25_RESET in IDLE -/

theorem exec_ax25Reset_idle {s : State} (hm : s.mode = .idle) : exec .ax25Reset s = .next s.restartFrame :=
  whenIdle_idle (fun s => .next s.restartFrame) hm

/-! ### AX25_NEXT_BYTE by the kind of byte -/

theorem packByte_true (v : Byte) : packByte v true = 0#23 ++ 1#1 ++ v := by
  rw [packByte, show BitVec.ofBool true = 1#1 from rfl]

/-- A flag goes out with attribute 0 (R161, R171). -/
theorem exec_nextByte_of_flag {s : State} {f : FrameFsm} (hm : s.mode = .idle)
    (h : ByteArm s ⟨Config.flagByte, false⟩ f) :
    exec .ax25NextByte s = .next { s with ax := f, result := 0x7E } :=
  exec_nextByte_of_arm hm h

/-- A byte of the frame's body goes out with attribute 1 (R161, R171). -/
theorem exec_nextByte_of_body {s : State} {v : Byte} {f : FrameFsm} (hm : s.mode = .idle) (h : ByteArm s ⟨v, true⟩ f) :
    exec .ax25NextByte s = .next { s with ax := f, result := 0#23 ++ 1#1 ++ v } := by
  rw [exec_nextByte_of_arm hm h, packByte_true]

/-- Outside Init the producer runs the arm of the state it is called in. -/
theorem nextByte_of_ne_init {s : State} (h : s.ax.state ≠ .init) : nextByte s = emitByte s := by
  rw [nextByte, FrameFsm.enter_of_ne_init h]

/-- R312: an unwritten header byte stops the producer. -/
theorem nextByte_of_unwritten_header {s : State} (hs : s.ax.state = .header)
    (hn : s.readBuf .hdr s.ax.idx.toNat = none) : nextByte s = .error (.uninit .hdr s.ax.idx.toNat) := by
  simp only [nextByte_of_ne_init (s := s) (by simp [hs]), emitByte, hs]
  exact emitBufByte_of_none _ hn

/-- R312: an unwritten information byte stops the producer. -/
theorem nextByte_of_unwritten_data {s : State} (hs : s.ax.state = .data)
    (hn : s.readBuf .info s.ax.idx.toNat = none) : nextByte s = .error (.uninit .info s.ax.idx.toNat) := by
  simp only [nextByte_of_ne_init (s := s) (by simp [hs]), emitByte, hs]
  exact emitBufByte_of_none _ hn

/-! ### The obligations -/

/-- Settles O20: in IDLE the command is `State.restartFrame`, and the busy rule answers for the other modes. -/
theorem ax25ResetReinitialisesFrameAndEncoder : Obligations.Ax25ResetReinitialisesFrameAndEncoder :=
  ⟨encodes_of_mem_commands (r := (0x20, .ax25Reset, false)) (by decide), fun _ =>
    ⟨exec_ax25Reset_idle, exec_idleCommand_busy (by simp)⟩⟩

/-- Settles O21: the two flag arms of the producer, split by where the counter starts and by FINISHED. -/
theorem nextByteEmitsFlags : Obligations.NextByteEmitsFlags := by
  refine ⟨encodes_of_mem_commands (r := (0x21, .ax25NextByte, false)) (by decide), fun s hm => ⟨?_, ?_, ?_, ?_⟩⟩
  · intro hs
    rw [exec_nextByte_of_flag hm (.openFlag (.inl hs)), FrameFsm.enter_count_of_init hs]
  · intro hs
    have hne : s.ax.state ≠ .init := by simp [hs]
    rw [exec_nextByte_of_flag hm (.openFlag (.inr hs)), FrameFsm.enter_of_ne_init hne, FrameFsm.count_of_state hs]
  · intro hs hf
    rw [exec_nextByte_of_flag hm (.closeFlag hs), FrameFsm.countEnd_of_unfinished hf, hs]
  · intro hs hf
    rw [exec_nextByte_of_flag hm (.closeFlag hs), FrameFsm.countEnd_of_finished hf]

/-- Settles O22: one arm of the producer for each body state, and the fault where the buffer byte is unwritten. -/
theorem nextByteEmitsBody : Obligations.NextByteEmitsBody := by
  refine fun s hm => ⟨?_, ?_, ?_, ?_, ?_, ?_⟩
  · intro v hs hv
    rw [exec_nextByte_of_body hm (.header v hs hv), FrameFsm.count_of_state hs]
    rfl
  · intro v hs hv
    rw [exec_nextByte_of_body hm (.data v hs hv), FrameFsm.count_of_state hs]
    rfl
  · exact fun hs hn => exec_nextByte_of_error hm (nextByte_of_unwritten_header hs hn)
  · exact fun hs hn => exec_nextByte_of_error hm (nextByte_of_unwritten_data hs hn)
  · exact fun hs => exec_nextByte_of_body hm (.fcs1 hs)
  · exact fun hs => exec_nextByte_of_body hm (.fcs2 hs)

end Sys2Proof.Machine
end

section
/-! PROOFS. NRZI_NEXT_BIT: bit stuffing and NRZI (43_bitstuff_nrzi.md R191-R199). -/

open Sys2Proof.Spec

namespace Sys2Proof.Machine

/-! ### The line code -/

/-- R196 as one equation: a line bit of 0 inverts the level. -/
theorem nrzi_eq_xor (lineBit level : Bool) : nrzi lineBit level = xor level (!lineBit) := by
  cases lineBit <;> cases level <;> rfl

/-- RESULT bit 0 is the level (R199). -/
theorem packLineBit_level (level lineBit stuffed : Bool) :
    (packLineBit level lineBit stuffed).getLsbD 0 = level := by
  cases level <;> cases lineBit <;> cases stuffed <;> decide

/-- Every arm of the bit producer reports the level it leaves, which is the line code of its line bit. -/
theorem BitArm.level_eq {s : State} {o : BitOut} {f : FrameFsm} {e : BitEncoder} (h : BitArm s o f e) :
    e.level = o.level ∧ o.level = nrzi o.lineBit s.enc.level := by
  cases h with
  | stuffed h => exact ⟨rfl, rfl⟩
  | unsent h hb => exact ⟨rfl, rfl⟩
  | loaded h hb b f ha => exact ⟨rfl, rfl⟩

/-- In IDLE a call that answers a next state ran an arm of the bit producer. -/
theorem exec_nextBit_idle_next {s t : State} (hm : s.mode = .idle) (h : exec .nrziNextBit s = .next t) :
    ∃ o f e, BitArm s o f e ∧
      t = { s with ax := f, enc := e, result := packLineBit o.level o.lineBit o.stuffed } := by
  rcases nextBit_cases s with ⟨o, f, e, ha⟩ | ⟨-, -, x, -, hx⟩
  · exact ⟨o, f, e, ha, next_inj ((exec_nextBit_of_arm hm ha).symm.trans h)⟩
  · rw [exec_nextBit_of_error hm hx] at h
    cases h

/-! ### The bit encoder after one line bit -/

theorem stuffPending_eq_false {e : BitEncoder} (h : ¬ (e.stuff = true ∧ e.ones = 5)) : e.stuffPending = false :=
  Bool.eq_false_iff.2 fun hp => h ((stuffPending_iff e).1 hp)

/-- R194: the ones counter saturates at 7. -/
theorem onesAfter_true : ∀ ones : BitVec 3, onesAfter true ones = BitVec.ofNat 3 (min (ones.toNat + 1) 7) := by decide

/-- R195, R196: a stuffed 0 clears the ones counter, inverts the level and keeps the byte. -/
theorem BitEncoder.insertStuffed_eq (e : BitEncoder) : e.insertStuffed = ⟨e.sr, e.bl, 0, e.stuff, !e.level⟩ := rfl

/-- R193, R194, R196: a source bit of 0 clears the ones counter and inverts the level. -/
theorem BitEncoder.sendBit_of_zero {e : BitEncoder} (h : e.sr.getLsbD 0 = false) :
    e.sendBit = ⟨e.sr >>> 1, e.bl - 1, 0, e.stuff, !e.level⟩ := by
  simp only [BitEncoder.sendBit, h]
  rfl

/-- R193, R194, R196: a source bit of 1 is counted and keeps the level. -/
theorem BitEncoder.sendBit_of_one {e : BitEncoder} (h : e.sr.getLsbD 0 = true) :
    e.sendBit = ⟨e.sr >>> 1, e.bl - 1, BitVec.ofNat 3 (min (e.ones.toNat + 1) 7), e.stuff, e.level⟩ := by
  simp only [BitEncoder.sendBit, h, onesAfter_true]
  rfl

/-! ### The obligations -/

/-- Settles O27: every arm of the bit producer obeys the line code, and RESULT reports its line bit and level. -/
theorem nrziLevelChangesExactlyOnZero : Obligations.NrziLevelChangesExactlyOnZero := by
  intro s t hm h
  obtain ⟨o, f, e, ha, rfl⟩ := exec_nextBit_idle_next hm h
  obtain ⟨he, ho⟩ := ha.level_eq
  obtain ⟨hline, -⟩ := packLineBit_bits o.level o.lineBit o.stuffed
  refine ⟨?_, ?_⟩
  · rw [hline, he, ho, nrzi_eq_xor]
  · rw [packLineBit_level, he]

/-- Settles O25: the stuffed arm, and the unsent arm by the source bit. -/
theorem nextBitStuffsOrSendsSourceBit : Obligations.NextBitStuffsOrSendsSourceBit := by
  refine ⟨encodes_of_mem_commands (r := (0x22, .nrziNextBit, false)) (by decide), fun s hm => ⟨?_, ?_, ?_⟩⟩
  · intro hst h5
    have hp : s.enc.stuffPending = true := (stuffPending_iff s.enc).2 ⟨hst, h5⟩
    rw [exec_nextBit_of_arm hm (.stuffed hp), BitEncoder.insertStuffed_eq]
    rfl
  · intro hp hb h0
    rw [exec_nextBit_of_arm hm (.unsent (stuffPending_eq_false hp) hb), h0, BitEncoder.sendBit_of_zero h0]
    rfl
  · intro hp hb h1
    rw [exec_nextBit_of_arm hm (.unsent (stuffPending_eq_false hp) hb), h1, BitEncoder.sendBit_of_one h1]
    rfl

end Sys2Proof.Machine
end

section
/-! PROOFS. RTTY_INIT and RTTY_NEXT_BIT: the character encoder (44_rtty.md R222-R230). -/

open Sys2Proof.Spec

namespace Sys2Proof.Machine

/-! ### RTTY_INIT in IDLE -/

/-- R222: a legal length starts the message. -/
theorem rttyInitThen_of_legal (act : State → State) {s : State} (h1 : 1 ≤ s.rttyLen.toNat)
    (h256 : s.rttyLen.toNat ≤ 256) : rttyInitThen act s = .next (act s.startMessage) :=
  if_pos ((rttyLenOk_iff s).2 ⟨h1, h256⟩)

/-- R306: with a length of 0 or above 256 only the error is recorded. -/
theorem rttyInitThen_of_illegal (act : State → State) {s : State}
    (h : s.rttyLen.toNat = 0 ∨ 256 < s.rttyLen.toNat) : rttyInitThen act s = .next (s.recordError .rttyLen) := by
  refine if_neg fun hok => ?_
  obtain ⟨h1, h256⟩ := (rttyLenOk_iff s).1 hok
  omega

theorem exec_rttyInit_idle {s : State} (hm : s.mode = .idle) : exec .rttyInit s = rttyInitThen id s :=
  whenIdle_idle (rttyInitThen id) hm

/-! ### RTTY_NEXT_BIT in IDLE, where no arm runs -/

theorem exec_rttyNextBit_of_error {s : State} {x : Fault} (hm : s.mode = .idle) (hf : s.rtty.fin = false)
    (h : rttyNextBit s = .error x) : exec .rttyNextBit s = .fault x := by
  simp only [exec, execRttyNextBit, whenIdle_idle _ hm, hf, h]
  rfl

/-- R307: a finished message is refused. -/
theorem exec_rttyNextBit_of_finished {s : State} (hm : s.mode = .idle) (hf : s.rtty.fin = true) :
    exec .rttyNextBit s = .next (s.recordError .rttyFinished) := by
  simp only [exec, execRttyNextBit, whenIdle_idle _ hm, if_pos hf, raiseError_eq]

/-! ### RESULT and the FSM after one bit -/

/-- R230: before the end of the message RESULT holds the line bit alone. -/
theorem packRttyBit_unfinished {fin : Bool} (h : fin = false) (b : Bool) :
    packRttyBit b fin = 0#30 ++ 0#1 ++ BitVec.ofBool b := by
  rw [h]
  rfl

/-- R230: the last bit of a message is a stop bit, reported with RESULT bit 1 set. -/
theorem packRttyBit_last : packRttyBit true true = 3 := by decide

/-- R226: the seventh data bit, by its number. -/
theorem RttyFsm.afterDataBit_eq (r : RttyFsm) :
    r.afterDataBit =
      if r.bidx.toNat = 6 then { r with bidx := 0, state := .stop1 } else { r with bidx := r.bidx + 1 } := by
  have h6 : r.bidx = 6#3 ↔ r.bidx.toNat = 6 := BitVec.toNat_inj.symm
  simp only [RttyFsm.afterDataBit, h6]
  rfl

theorem RttyFsm.afterDataBit_fin (r : RttyFsm) : r.afterDataBit.fin = r.fin := by
  unfold RttyFsm.afterDataBit
  split <;> rfl

/-- R228: with characters left, the next one starts. -/
theorem RttyFsm.afterStop2_of_more {r : RttyFsm} (h : r.cidx.toNat + 1 < r.len.toNat) :
    r.afterStop2 = { r with cidx := r.cidx + 1, state := .start } :=
  if_pos (show r.cidx + 1#9 < r.len by bv_omega)

/-- R228, R229: after the last character the message is finished. -/
theorem RttyFsm.afterStop2_of_last {r : RttyFsm} (h : r.cidx.toNat + 1 = r.len.toNat) :
    r.afterStop2 = { r with cidx := r.cidx + 1, state := .idle, fin := true } :=
  if_neg (show ¬ r.cidx + 1#9 < r.len by bv_omega)

/-! ### The obligations -/

/-- Settles O30: in IDLE the length decides between `State.startMessage` and RTTY_LEN, and the busy rule answers for the
other modes. -/
theorem rttyInitLatchesTheMessage : Obligations.RttyInitLatchesTheMessage := by
  refine ⟨encodes_of_mem_commands (r := (0x30, .rttyInit, false)) (by decide), fun s => ⟨?_, ?_, ?_⟩⟩
  · intro hm h1 h256
    rw [exec_rttyInit_idle hm, rttyInitThen_of_legal id h1 h256]
    rfl
  · intro hm h
    rw [exec_rttyInit_idle hm]
    exact rttyInitThen_of_illegal id h
  · exact exec_idleCommand_busy (by simp)

/-- Settles O31: the idle arm and the start arm of the producer, and the fault where the character is unwritten. -/
theorem rttyNextBitIdleAndStart : Obligations.RttyNextBitIdleAndStart := by
  refine ⟨encodes_of_mem_commands (r := (0x31, .rttyNextBit, false)) (by decide), fun s hm hf => ⟨?_, ?_, ?_⟩⟩
  · intro hs hi
    rw [exec_rttyNextBit_of_arm hm hf (.idleBit hs hi), packRttyBit_unfinished hf]
    simp only [BitVec.sub_eq_iff_eq_add, BitVec.zero_add]
    rfl
  · intro v hs hv
    rw [exec_rttyNextBit_of_arm hm hf (.startBit v hs hv), packRttyBit_unfinished hf]
    rfl
  · exact fun hs hn => exec_rttyNextBit_of_error hm hf (rttyNextBit_of_start_none hs hn)

/-- Settles O32: one arm of the producer for each state, Stop2 split by whether characters are left. -/
theorem rttyNextBitCharacterStopAndFinish : Obligations.RttyNextBitCharacterStopAndFinish := by
  refine fun s hm => ⟨?_, ?_, ?_, ?_, ?_⟩
  · intro hf hs _
    rw [exec_rttyNextBit_of_arm hm hf (.dataBit hs), packRttyBit_unfinished (s.rtty.afterDataBit_fin.trans hf),
      RttyFsm.afterDataBit_eq]
  · intro hf hs
    rw [exec_rttyNextBit_of_arm hm hf (.firstStop hs), packRttyBit_unfinished hf]
    rfl
  · intro hf hs hmore
    rw [exec_rttyNextBit_of_arm hm hf (.secondStop hs), RttyFsm.afterStop2_of_more hmore, packRttyBit_unfinished hf]
    rfl
  · intro hf hs hlast
    rw [exec_rttyNextBit_of_arm hm hf (.secondStop hs), RttyFsm.afterStop2_of_last hlast, packRttyBit_last]
  · exact fun hf => exec_rttyNextBit_of_finished hm hf

end Sys2Proof.Machine
end

section
/-! PROOFS. The scheduler: the transmit commands and the ticks (45_scheduler.md R251-R260). -/

open Sys2Proof.Spec

namespace Sys2Proof.Machine

/-! ### The transmit commands in IDLE -/

theorem exec_txStartRtty_idle {s : State} (hm : s.mode = .idle) :
    exec .txStartRtty s = rttyInitThen (fun s => { s with sym := s.rttyIdleBit, done := false, mode := .rtty }) s :=
  whenIdle_idle (rttyInitThen _) hm

theorem exec_txStartAprs_idle {s : State} (hm : s.mode = .idle) :
    exec .txStartAprs s =
      .next { s.restartFrame with div := 0#5, aux := false, sym := s.nrziInit, done := false, mode := .aprs } := by
  rw [exec, execTxStartAprs, whenIdle_idle _ hm]

/-! ### A tick in a mode that does not use it -/

theorem exec_tickSample_of_ne_aprs {s : State} (hm : s.mode ≠ .aprs) : exec .tickSample s = .next s := if_neg hm

theorem exec_tickBaud_of_ne_rtty {s : State} (hm : s.mode ≠ .rtty) : exec .tickBaud s = .next s := if_neg hm

/-! ### Where the bit producer answers and where it faults -/

/-- R312: an error of the byte producer depends on the frame FSM and on memory alone. -/
theorem nextByte_error_congr {s t : State} {x : Fault} (h : nextByte s = .error x) (hax : t.ax = s.ax)
    (hmem : t.mem = s.mem) : nextByte t = .error x := by
  rcases nextByte_error h with ⟨hs, hn, rfl⟩ | ⟨hs, hn, rfl⟩
  · rw [← hax] at hs hn ⊢
    exact nextByte_of_unwritten_header hs ((readBuf_congr hmem _ _).trans hn)
  · rw [← hax] at hs hn ⊢
    exact nextByte_of_unwritten_data hs ((readBuf_congr hmem _ _).trans hn)

/-- The bit producer faults exactly where it loads a byte that the byte producer cannot give. -/
theorem nextBit_eq_error_iff {s : State} {x : Fault} :
    nextBit s = .error x ↔ s.enc.stuffPending = false ∧ s.enc.bl = 0 ∧ nextByte s = .error x := by
  constructor
  · intro h
    rcases nextBit_cases s with ⟨o, f, e, ha⟩ | ⟨hp, hb, y, hy, hbit⟩
    · rw [nextBit_of_arm ha] at h
      cases h
    · rw [hbit] at h
      cases h
      exact ⟨hp, hb, hy⟩
  · rintro ⟨hp, hb, hy⟩
    simp [nextBit, loadIfEmpty, hp, hb, hy, Except.map]

theorem nextBit_error_congr {s t : State} {x : Fault} (h : nextBit s = .error x) (henc : t.enc = s.enc)
    (hax : t.ax = s.ax) (hmem : t.mem = s.mem) : nextBit t = .error x := by
  obtain ⟨hp, hb, hy⟩ := nextBit_eq_error_iff.1 h
  exact nextBit_eq_error_iff.2 ⟨henc ▸ hp, henc ▸ hb, nextByte_error_congr hy hax hmem⟩

theorem nextByte_ne_error_of_readable {s : State} (h : NextByteReadable s) (x : Fault) : nextByte s ≠ .error x := by
  obtain ⟨hhdr, hinfo⟩ := h
  intro hx
  rcases nextByte_error hx with ⟨hs, hn, -⟩ | ⟨hs, hn, -⟩
  · exact hhdr hs hn
  · exact hinfo hs hn

/-- R312: with a stuffed bit, an unsent bit or a readable byte there is a line bit to send. -/
theorem exists_bitArm_of_ready {s : State}
    (h : (s.enc.stuff = true ∧ s.enc.ones = 5) ∨ s.enc.bl ≠ 0 ∨ NextByteReadable s) : ∃ o f e, BitArm s o f e := by
  rcases nextBit_cases s with ha | ⟨hp, hb, x, hx, -⟩
  · exact ha
  · rcases h with hst | hbl | hr
    · exact absurd ((stuffPending_iff s.enc).2 hst) (Bool.eq_false_iff.1 hp)
    · exact absurd hb hbl
    · exact absurd hx (nextByte_ne_error_of_readable hr x)

theorem exec_nextBit_idle_fault {s : State} {x : Fault} (hm : s.mode = .idle) (h : exec .nrziNextBit s = .fault x) :
    nextBit s = .error x := by
  rcases nextBit_cases s with ⟨o, f, e, ha⟩ | ⟨-, -, y, -, hy⟩
  · rw [exec_nextBit_of_arm hm ha] at h
    cases h
  · rw [exec_nextBit_of_error hm hy] at h
    cases h
    exact hy

/-! ### The APRS baud event -/

/-- R254, R255: the baud event that sends a line bit, with MODE and DONE written out. -/
theorem exec_tickSample_baud_of_arm {s : State} {o : BitOut} {f : FrameFsm} {e : BitEncoder} (hm : s.mode = .aprs)
    (hd : s.div = 21) (h : BitArm s o f e) :
    exec .tickSample s = .next { s with
      ax := f, enc := e, aux := !s.aux, div := 0, sym := e.level,
      mode := if f.finished = true ∧ e.bl = 0 ∧ ¬ (e.stuff = true ∧ e.ones = 5) then .idle else .aprs,
      done := if f.finished = true ∧ e.bl = 0 ∧ ¬ (e.stuff = true ∧ e.ones = 5) then true else s.done } := by
  have hd22 : s.div + 1#5 = 22#5 := by rw [hd]; rfl
  obtain ⟨hlevel, -⟩ := h.level_eq
  rw [exec_tickSample_of_arm hm hd22 h rfl, endTransmission_if]
  simp only [aprsEnd_iff, hlevel, hm]
  rfl

theorem exec_tickSample_baud_of_error {s : State} {x : Fault} (hm : s.mode = .aprs) (hd : s.div = 21)
    (h : nextBit s = .error x) : exec .tickSample s = .fault x := by
  have hd22 : s.div + 1#5 = BitVec.ofNat 5 Config.samplesPerBaud := by rw [hd]; rfl
  have hbit : nextBit { s with aux := !s.aux, div := 0#5 } = .error x := nextBit_error_congr h rfl rfl rfl
  simp only [exec, execTickSample, if_pos hm, if_pos hd22, aprsBaudEvent, hbit]
  rfl

/-! ### The RTTY baud tick -/

/-- RESULT bit 0 is the line bit (R230). -/
theorem packRttyBit_lineBit (b fin : Bool) : (packRttyBit b fin).getLsbD 0 = b := by
  cases b <;> cases fin <;> decide

/-- R312: outside the start of an unwritten character there is a bit to send. -/
theorem exists_rttyArm_of_ready {s : State}
    (h : s.rtty.state = .start ∨ (s.rtty.state = .idle ∧ s.rtty.idleLeft = 0) →
      s.readBuf .msg s.rtty.cidx.toNat ≠ none) : ∃ b r, RttyArm s b r :=
  (rttyNextBit_cases s).resolve_right fun ⟨hs, hn⟩ => h hs hn

/-- What an RTTY arm reads: the RTTY FSM, the idle bit of CONFIG, and memory. -/
theorem RttyArm.congr {s t : State} {b : Bool} {r : RttyFsm} (h : RttyArm s b r) (hr : t.rtty = s.rtty)
    (hc : t.config = s.config) (hmem : t.mem = s.mem) : RttyArm t b r := by
  have hidle : t.rttyIdleBit = s.rttyIdleBit := by rw [State.rttyIdleBit, hc, State.rttyIdleBit]
  cases h with
  | idleBit h hi => rw [← hr, ← hidle]; exact .idleBit (hr ▸ h) (hr ▸ hi)
  | startBit v h hv => rw [← hr]; exact .startBit v (hr ▸ h) (by rw [hr, readBuf_congr hmem]; exact hv)
  | dataBit h => rw [← hr]; exact .dataBit (hr ▸ h)
  | firstStop h => rw [← hr]; exact .firstStop (hr ▸ h)
  | secondStop h => rw [← hr]; exact .secondStop (hr ▸ h)

/-- The RTTY producer faults exactly where it starts on an unwritten character. -/
theorem rttyNextBit_eq_error_iff {s : State} {x : Fault} :
    rttyNextBit s = .error x ↔
      (s.rtty.state = .start ∨ (s.rtty.state = .idle ∧ s.rtty.idleLeft = 0)) ∧
        s.readBuf .msg s.rtty.cidx.toNat = none ∧ x = .uninit .msg s.rtty.cidx.toNat := by
  constructor
  · intro h
    rcases rttyNextBit_cases s with ⟨b, r, ha⟩ | ⟨hs, hn⟩
    · rw [rttyNextBit_of_arm ha] at h
      cases h
    · rw [rttyNextBit_of_start_none hs hn] at h
      cases h
      exact ⟨hs, hn, rfl⟩
  · rintro ⟨hs, hn, rfl⟩
    exact rttyNextBit_of_start_none hs hn

theorem rttyNextBit_error_congr {s t : State} {x : Fault} (h : rttyNextBit s = .error x) (hr : t.rtty = s.rtty)
    (hmem : t.mem = s.mem) : rttyNextBit t = .error x := by
  rw [rttyNextBit_eq_error_iff] at h ⊢
  rwa [hr, readBuf_congr hmem]

theorem exec_rttyNextBit_idle_fault {s : State} {x : Fault} (hm : s.mode = .idle) (hf : s.rtty.fin = false)
    (h : exec .rttyNextBit s = .fault x) : rttyNextBit s = .error x := by
  rcases rttyNextBit_cases s with ⟨b, r, ha⟩ | ⟨hs, hn⟩
  · rw [exec_rttyNextBit_of_arm hm hf ha] at h
    cases h
  · have hbit := rttyNextBit_of_start_none hs hn
    rw [exec_rttyNextBit_of_error hm hf hbit] at h
    cases h
    exact hbit

/-- R255, R256: the baud tick that sends a bit, with MODE and DONE written out. -/
theorem exec_tickBaud_rtty_of_arm {s : State} {b : Bool} {r : RttyFsm} (hm : s.mode = .rtty) (h : RttyArm s b r) :
    exec .tickBaud s = .next { s with
      rtty := r, sym := b, mode := if r.fin then .idle else .rtty, done := if r.fin then true else s.done } := by
  rw [exec_tickBaud_of_arm hm h rfl, endTransmission_if, hm]

theorem exec_tickBaud_of_error {s : State} {x : Fault} (hm : s.mode = .rtty) (h : rttyNextBit s = .error x) :
    exec .tickBaud s = .fault x := by
  simp only [exec, execTickBaud, if_pos hm, h]
  rfl

/-! ### The obligations -/

/-- Settles O40: a baud event and NRZI_NEXT_BIT run the same arm of the bit producer, and fault on the same byte. -/
theorem baudEventConsumesOneLineBit : Obligations.BaudEventConsumesOneLineBit := by
  refine fun s hm hd => ⟨fun hready => ?_, fun x hx => ?_⟩
  · obtain ⟨o, f, e, ha⟩ := exists_bitArm_of_ready hready
    have hidle : BitArm { s with mode := .idle } o f e := ha.congr rfl rfl rfl rfl rfl rfl rfl
    exact ⟨_, exec_nextBit_of_arm rfl hidle, exec_tickSample_baud_of_arm hm hd ha⟩
  · have hbit : nextBit { s with mode := .idle } = .error x := exec_nextBit_idle_fault rfl hx
    exact exec_tickSample_baud_of_error hm hd (nextBit_error_congr hbit rfl rfl rfl)

/-- Settles O41: a baud tick and RTTY_NEXT_BIT run the same arm of the RTTY producer, and fault on the same character. -/
theorem baudTickConsumesOneRttyBit : Obligations.BaudTickConsumesOneRttyBit := by
  refine ⟨fun _ => exec_tickBaud_of_ne_rtty, fun s hm hf => ⟨fun hready => ?_, fun x hx => ?_⟩⟩
  · obtain ⟨b, r, ha⟩ := exists_rttyArm_of_ready hready
    have hidle : RttyArm { s with mode := .idle } b r := ha.congr rfl rfl rfl
    refine ⟨_, exec_rttyNextBit_of_arm (s := { s with mode := .idle }) rfl hf hidle, ?_⟩
    rw [exec_tickBaud_rtty_of_arm hm ha, packRttyBit_lineBit]
  · have hbit : rttyNextBit { s with mode := .idle } = .error x :=
      exec_rttyNextBit_idle_fault (s := { s with mode := .idle }) rfl hf hx
    exact exec_tickBaud_of_error hm (rttyNextBit_error_congr hbit rfl rfl)

/-- Settles O36: in IDLE the command is `State.restartFrame` with the scheduler's fields set, and the busy rule answers for
the other modes. -/
theorem txStartAprsStartsAFrame : Obligations.TxStartAprsStartsAFrame :=
  ⟨encodes_of_mem_commands (r := (0x40, .txStartAprs, false)) (by decide), fun _ =>
    ⟨exec_txStartAprs_idle, exec_idleCommand_busy (by simp)⟩⟩

/-- Settles O37: in IDLE the length decides between `State.startMessage` and RTTY_LEN, and the busy rule answers for the
other modes. -/
theorem txStartRttyStartsAMessage : Obligations.TxStartRttyStartsAMessage := by
  refine ⟨encodes_of_mem_commands (r := (0x41, .txStartRtty, false)) (by decide), fun s => ⟨?_, ?_, ?_⟩⟩
  · intro hm h1 h256
    rw [exec_txStartRtty_idle hm, rttyInitThen_of_legal _ h1 h256]
    rfl
  · intro hm h
    rw [exec_txStartRtty_idle hm]
    exact rttyInitThen_of_illegal _ h
  · exact exec_idleCommand_busy (by simp)

/-- Settles O38: each tick's own mode test. -/
theorem ignoredTicksChangeNothing : Obligations.IgnoredTicksChangeNothing := fun _ =>
  ⟨exec_tickSample_of_ne_aprs, exec_tickBaud_of_ne_rtty⟩

end Sys2Proof.Machine
end

section
/-! PROOFS. Writes on the host bus (46_host_bus.md R280-R288; 60_exceptions.md R304). -/

open Sys2Proof.Spec

namespace Sys2Proof.Machine

/-! ### What a write does, by its location -/

/-- R304: outside IDLE a write to a protected location records BUSY and does nothing else. -/
theorem exec_busWrite_busy {a : Addr} {s : State} (h : (location a).busyProtected = true) (hm : s.mode ≠ .idle) (d : Word) :
    exec (.busWrite a d) s = .next (s.recordError .busy) := by
  rw [exec, execBusWrite]
  cases hl : location a with
  | config | startFlags | endFlags | rttyIdle | rttyLen | buf => exact whenIdle_busy _ hm
  | cmd | arg | status | result | crc | fcs | dbgAx25 | dbgBitenc | dbgRtty | dbgSched | unmapped =>
    rw [hl] at h
    cases h

/-- R282-R286: the write to a register that stores something. -/
theorem exec_busWrite_of_storeReg {a : Addr} {d : Word} {s t : State} (h : s.storeReg d (location a) = some t) :
    exec (.busWrite a d) s = .next t := by
  rw [exec, execBusWrite]
  cases hl : location a with
  | arg | status =>
    rw [hl] at h
    cases h
    rfl
  | config | startFlags | endFlags | rttyIdle | rttyLen =>
    rw [hl] at h
    obtain ⟨hm, ht⟩ := Option.ite_none_right_eq_some.1 h
    cases ht
    exact whenIdle_idle _ hm
  | cmd | result | crc | fcs | dbgAx25 | dbgBitenc | dbgRtty | dbgSched | buf | unmapped =>
    rw [hl] at h
    cases h

theorem exec_busWrite_register {a : Addr} {o : Nat} {l : Location} {d : Word} {s t : State} (ha : Reaches a o)
    (hl : registerMap.lookup o = some l) (ht : s.storeReg d l = some t) : exec (.busWrite a d) s = .next t :=
  exec_busWrite_of_storeReg (by rw [location_reg ha hl, ht])

theorem exec_busWrite_buf {a : Addr} {b : Buf} {k : Nat} {s : State} (h : location a = .buf b k) (hm : s.mode = .idle)
    (d : Word) : exec (.busWrite a d) s = .next (s.hostWriteBuf b k (d.extractLsb' 0 8)) := by
  rw [exec, execBusWrite]
  rw [h]
  exact whenIdle_idle _ hm

/-- The locations a write leaves alone (R288). -/
abbrev ignoredLocations : List Location := [.result, .crc, .fcs, .dbgAx25, .dbgBitenc, .dbgRtty, .dbgSched, .unmapped]

theorem exec_busWrite_ignored {a : Addr} (h : location a ∈ ignoredLocations) (d : Word) (s : State) :
    exec (.busWrite a d) s = .next s := by
  rw [exec, execBusWrite]
  cases hl : location a with
  | result | crc | fcs | dbgAx25 | dbgBitenc | dbgRtty | dbgSched | unmapped => rfl
  | cmd | arg | status | config | startFlags | endFlags | rttyIdle | rttyLen | buf =>
    rw [hl] at h
    simp at h

/-! ### The address ranges of the map -/

/-- CONFIG to RTTY_LEN stand in one range of addresses (R62). -/
theorem busyProtected_of_config_range {a : Addr} (h1 : 0x018 ≤ a.toNat) (h2 : a.toNat < 0x02C) :
    (location a).busyProtected = true := by
  have ho : Reaches a 0x018 ∨ Reaches a 0x01C ∨ Reaches a 0x020 ∨ Reaches a 0x024 ∨ Reaches a 0x028 := by omega
  rcases ho with ho | ho | ho | ho | ho <;> (rw [location_reg ho rfl]; rfl)

theorem location_mem_ignored_of_readOnly {a : Addr} (h : ReadOnly a) : location a ∈ ignoredLocations := by
  have ho : Reaches a 0x008 ∨ Reaches a 0x010 ∨ Reaches a 0x014 ∨ Reaches a 0x030 ∨ Reaches a 0x034 ∨ Reaches a 0x038 ∨
      Reaches a 0x03C := by omega
  rcases ho with ho | ho | ho | ho | ho | ho | ho <;> (rw [location_reg ho rfl]; decide)

/-! ### What is stored -/

/-- R285: the flag count is 0 exactly where the low byte of the data is. -/
theorem legalFlags_eq (d : Word) : legalFlags d = if d.toNat % 256 = 0 then 1 else d.extractLsb' 0 8 := by
  have h0 : d.extractLsb' 0 8 = 0#8 ↔ d.toNat % 256 = 0 := by simp [← BitVec.toNat_inj]
  simp only [legalFlags, h0]
  rfl

theorem readBuf_hostWriteBuf_same (s : State) {b : Buf} {i : Nat} (v : Byte) (hi : i < b.size) :
    (s.hostWriteBuf b i v).readBuf b i = some v :=
  (readBuf_congr rfl b i).trans (readBuf_writeBuf_same s b i v hi)

theorem readBuf_hostWriteBuf_other (s : State) {b b' : Buf} {i i' : Nat} (v : Byte) (hi : i < b.size)
    (h : ¬ (b' = b ∧ i' = i)) : (s.hostWriteBuf b i v).readBuf b' i' = s.readBuf b' i' :=
  (readBuf_congr rfl b' i').trans (readBuf_writeBuf_other s b b' i i' v hi h)

/-! ### The obligations -/

/-- Settles O52: the address selects byte k of the buffer; the busy rule answers outside IDLE, and in IDLE
`State.hostWriteBuf` stores that byte alone. -/
theorem bufferWriteStoresExactlyOneByte : Obligations.BufferWriteStoresExactlyOneByte := by
  intro s a d b k hk ha
  have hl : location a = .buf b k := location_buf hk (ha.trans (by cases b <;> rfl))
  refine ⟨fun hm => exec_busWrite_busy (by rw [hl]; rfl) hm d, fun hm => ?_⟩
  refine ⟨_, exec_busWrite_buf hl hm d, rfl, readBuf_hostWriteBuf_same s _ hk,
    fun b' k' => readBuf_hostWriteBuf_other s _ hk, ?_⟩
  cases b <;> rfl

/-- Settles O49: the ranges select only locations whose writes are ignored. -/
theorem unmappedAndReadOnlyWritesAreIgnored : Obligations.UnmappedAndReadOnlyWritesAreIgnored := by
  rintro s a d (hu | hr)
  · exact exec_busWrite_ignored (by simp [location_unmapped hu]) d s
  · exact exec_busWrite_ignored (location_mem_ignored_of_readOnly hr) d s

/-- Settles O51: each register's own store, the five protected ones under the busy rule. -/
theorem registerWritesStoreTheirSlice : Obligations.RegisterWritesStoreTheirSlice := by
  refine fun s a d => ⟨fun ha => exec_busWrite_register ha rfl rfl, fun ha => ?status, fun hm => ?idle, fun hm h1 h2 =>
    exec_busWrite_busy (busyProtected_of_config_range h1 h2) hm d⟩
  case status => exact exec_busWrite_register ha rfl (congrArg some (clearStatus_eq s d))
  case idle =>
    rw [← legalFlags_eq]
    refine ⟨?_, ?_, ?_, ?_, ?_⟩ <;> exact fun ha => exec_busWrite_register ha rfl (if_pos hm)

end Sys2Proof.Machine
end

section
/-! PROOFS. The error record: which operations raise an error, and what clears it (60_exceptions.md R301-R310; 46_host_bus.md
R283). -/

open Sys2Proof.Spec

namespace Sys2Proof.Machine

/-! ### Which operations raise an error -/

/-- In state `s` the operation with the canonical name `i` raises the error `c` (R302-R308). No premise reads the error
record. -/
inductive RaisesError (s : State) : Instr → ErrCause → Prop where
  | illegalCmd (a : Addr) (d : Word) (ha : location a = .cmd) (hd : commandOfCode (opField d) = none) :
      RaisesError s (.busWrite a d) .illegalCmd
  | busyCommand (i : Instr) (hi : i ∈ idleCommands) (hm : s.mode ≠ .idle) : RaisesError s i .busy
  | busyWrite (a : Addr) (d : Word) (ha : (location a).busyProtected = true) (hm : s.mode ≠ .idle) :
      RaisesError s (.busWrite a d) .busy
  | latlonRange (h : Config.b91LatlonLimit ≤ s.arg.toNat) : RaisesError s .b91Latlon .latlonRange
  | rttyLen (i : Instr) (hi : i = .rttyInit ∨ i = .txStartRtty) (hm : s.mode = .idle) (hl : s.rttyLenOk = false) :
      RaisesError s i .rttyLen
  | rttyFinished (hm : s.mode = .idle) (hf : s.rtty.fin = true) : RaisesError s .rttyNextBit .rttyFinished

theorem RaisesError.cause_ne_none {s : State} {i : Instr} {c : ErrCause} (h : RaisesError s i c) : c ≠ .none := by
  cases h <;> decide

/-- The recorded error decides nothing: what raises an error with the record cleared raises it as the record stands. -/
theorem RaisesError.of_clearError {s : State} {i : Instr} {c : ErrCause} (h : RaisesError s.clearError i c) :
    RaisesError s i c := by
  cases h with
  | illegalCmd a d ha hd => exact .illegalCmd a d ha hd
  | busyCommand _ hi hm => exact .busyCommand i hi hm
  | busyWrite a d ha hm => exact .busyWrite a d ha hm
  | latlonRange h => exact .latlonRange h
  | rttyLen _ hi hm hl => exact .rttyLen i hi hm hl
  | rttyFinished hm hf => exact .rttyFinished hm hf

/-- R305: a value of 91⁴ or more is refused in every mode. -/
theorem exec_b91Latlon_of_limit_le {s : State} (h : Config.b91LatlonLimit ≤ s.arg.toNat) :
    exec .b91Latlon s = .next (s.recordError .latlonRange) :=
  if_pos h

/-- R301: an operation that raises an error records it and does nothing else. -/
theorem RaisesError.exec_eq {s : State} {i : Instr} {c : ErrCause} (h : RaisesError s i c) :
    exec i s = .next (s.recordError c) := by
  cases h with
  | illegalCmd a d ha hd =>
    rw [exec, execBusWrite, ha]
    exact dispatchCommand_of_none hd s
  | busyCommand _ hi hm => exact exec_idleCommand_busy hi hm
  | busyWrite a d ha hm => exact exec_busWrite_busy ha hm d
  | latlonRange h => exact exec_b91Latlon_of_limit_le h
  | rttyLen _ hi hm hl =>
    have hinit : ∀ act, rttyInitThen act s = .next (s.recordError .rttyLen) := fun _ => if_neg (Bool.eq_false_iff.1 hl)
    rcases hi with rfl | rfl
    · exact (exec_rttyInit_idle hm).trans (hinit _)
    · exact (exec_txStartRtty_idle hm).trans (hinit _)
  | rttyFinished hm hf => exact exec_rttyNextBit_of_finished hm hf

/-- While ERR is 1 a later error changes nothing: the first code is kept (R301). -/
theorem recordError_of_err {s : State} (h : s.err = true) (c : ErrCause) : s.recordError c = s := by
  cases s
  cases h
  rfl

/-! ### What clears the record -/

/-- STATUS stands at one offset of the map (R62). -/
theorem reaches_of_location_status {a : Addr} (h : location a = .status) : Reaches a 0x00C := by
  rcases location_cases a with hr | ⟨b, k, hb⟩ | hu
  · rw [h] at hr
    simpa [registerMap] using hr
  · rw [h] at hb
    cases hb
  · rw [h] at hu
    cases hu

/-- R283: bit 7 of the data clears the record, and without it the record stands. -/
theorem clearStatus_record (s : State) (d : Word) :
    (d.getLsbD 7 = true ∧ (s.clearStatus d).err = false ∧ (s.clearStatus d).errCause = .none) ∨
      ((s.clearStatus d).err = s.err ∧ (s.clearStatus d).errCause = s.errCause) := by
  rw [clearStatus_err, clearStatus_errCause]
  cases d.getLsbD 7 with
  | true => exact .inl ⟨rfl, rfl, rfl⟩
  | false => exact .inr ⟨rfl, rfl⟩

theorem exec_statusWrite {i : Instr} (h : StatusWrite i 7) (s : State) :
    ∃ t, exec i s = .next t ∧ t.err = false ∧ t.errCause = .none := by
  obtain ⟨a, d, rfl, ha, hd⟩ := h
  refine ⟨s.clearStatus d, exec_busWrite_register ha rfl rfl, ?_, ?_⟩
  · rw [clearStatus_err, if_pos hd]
  · rw [clearStatus_errCause, if_pos hd]

/-! ### What an operation does to the record -/

/-- An effect raises an error, clears the record, or leaves it as it is. -/
theorem Effect.record_cases {s t : State} {i : Instr} (h : Effect s i t) :
    (∃ c, RaisesError s i c ∧ t = s.recordError c) ∨ ((StatusWrite i 7 ∨ i = .hwReset) ∧ t.err = false) ∨
      (t.err = s.err ∧ t.errCause = s.errCause) := by
  cases h with
  | illegalCmd a d ha hd => exact .inl ⟨_, .illegalCmd a d ha hd, rfl⟩
  | busyCommand _ hi hm => exact .inl ⟨_, .busyCommand i hi hm, rfl⟩
  | busyWrite a d ha hm => exact .inl ⟨_, .busyWrite a d ha hm, rfl⟩
  | latlonRange h => exact .inl ⟨_, .latlonRange h, rfl⟩
  | rttyLen _ hi hm hl => exact .inl ⟨_, .rttyLen i hi hm hl, rfl⟩
  | rttyFinished hm hf => exact .inl ⟨_, .rttyFinished hm hf, rfl⟩
  | hwReset => exact .inr (.inl ⟨.inr rfl, rfl⟩)
  | storeReg a d _ h =>
    rcases storeReg_cases h with ⟨-, rfl⟩ | ⟨hl, rfl⟩ | ⟨-, c, sf, ef, ri, rl, rfl, -⟩
    · exact .inr (.inr ⟨rfl, rfl⟩)
    · rcases clearStatus_record s d with ⟨hd, herr, -⟩ | hkept
      · exact .inr (.inl ⟨.inl ⟨a, d, rfl, reaches_of_location_status hl, hd⟩, herr⟩)
      · exact .inr (.inr hkept)
    · exact .inr (.inr ⟨rfl, rfl⟩)
  | baudEvent hm hd o f e h u hu => rw [endTransmission_if, hu]; exact .inr (.inr ⟨rfl, rfl⟩)
  | baudTick hm b r h u hu => rw [endTransmission_if, hu]; exact .inr (.inr ⟨rfl, rfl⟩)
  | _ => exact .inr (.inr ⟨rfl, rfl⟩)

/-- A STATUS write is no command, so it is its own canonical name. -/
theorem statusWrite_of_canon {i : Instr} {k : Nat} (h : StatusWrite i.canon k) : StatusWrite i k := by
  obtain ⟨a, d, hi, hr⟩ := h
  exact ⟨a, d, eq_of_canon hi (by simp), hr⟩

/-- Every operation raises an error, clears the record, or leaves it as it is. -/
theorem exec_record_cases {i : Instr} {s t : State} (h : exec i s = .next t) :
    (∃ c, RaisesError s i.canon c ∧ t = s.recordError c) ∨ ((StatusWrite i 7 ∨ i = .hwReset) ∧ t.err = false) ∨
      (t.err = s.err ∧ t.errCause = s.errCause) :=
  (exec_effect h).record_cases.imp_right <| Or.imp_left <| And.imp_left <|
    Or.imp statusWrite_of_canon fun hr => eq_of_canon hr (by decide)

/-- ERR goes from 0 to 1 only by an error that the operation raises. -/
theorem raisesError_of_err {i : Instr} {s t : State} (h : exec i s = .next t) (hs : s.err = false) (ht : t.err = true) :
    ∃ c, RaisesError s i.canon c ∧ t = s.recordError c := by
  rcases exec_record_cases h with hraise | ⟨-, hclear⟩ | ⟨hkept, -⟩
  · exact hraise
  · exact Bool.noConfusion (hclear.symm.trans ht)
  · exact Bool.noConfusion (hs.symm.trans (hkept.symm.trans ht))

/-! ### The obligations -/

/-- Settles O10: an operation that sets ERR is one that raises an error, which records it and does nothing else; with the
record cleared it raises the same error, and then the first one is kept. -/
theorem failedOperationChangesOnlyTheErrorRecord : Obligations.FailedOperationChangesOnlyTheErrorRecord := by
  refine ⟨fun i s t h hs ht => ?_, fun i s t h ht hs => ?_⟩
  · obtain ⟨c, hc, rfl⟩ := raisesError_of_err h hs ht
    have hcause : (s.recordError c).errCause = c := by rw [recordError_errCause, hs]; rfl
    rw [hcause]
    exact ⟨hc.cause_ne_none, rfl⟩
  · obtain ⟨c, hc, -⟩ := raisesError_of_err h rfl ht
    rw [exec_canon, hc.of_clearError.exec_eq, recordError_of_err hs]

/-- Settles O11: the two clearing operations by their own rules, and no other effect changes a recorded error. -/
theorem errorRecordHoldsUntilCleared : Obligations.ErrorRecordHoldsUntilCleared := by
  refine ⟨fun i s hi => ?_, fun i s t h hs => ?_⟩
  · rcases hi with hst | rfl
    · exact exec_statusWrite hst s
    · exact ⟨s.hardReset, exec_hwReset s, rfl, rfl⟩
  · rcases exec_record_cases h with ⟨c, -, rfl⟩ | ⟨hclear, -⟩ | ⟨herr, hcause⟩
    · rw [recordError_of_err hs]
      exact .inl ⟨hs, rfl⟩
    · exact .inr hclear
    · exact .inl ⟨herr.trans hs, hcause⟩

/-- Settles O8: dispatch finds no command for the code, and the codes are counted. -/
theorem illegalCommandIsRecordedInEveryMode : Obligations.IllegalCommandIsRecordedInEveryMode :=
  ⟨fun _ _ s ha hd => exec_busWrite_of_illegal_code ha hd s, by decide +kernel⟩

/-- Settles O19: B91_LATLON tests its range first, and B91_TLM writes RESULT alone. -/
theorem latlonOutOfRangeIsRefused : Obligations.LatlonOutOfRangeIsRefused := by
  refine ⟨fun s => exec_b91Latlon_of_limit_le, fun s t h => ?_⟩
  cases h
  exact ⟨rfl, rfl⟩

end Sys2Proof.Machine
end

section
/-! PROOFS. The decoder, the step and the host's programs (30_encoding.md R90-R102; 00_scope.md R12). -/

open Sys2Proof.Spec

namespace Sys2Proof.Machine

/-! ### The canonical name of a bus write -/

theorem isCmdAddr_iff_reaches {a : Addr} : isCmdAddr a = true ↔ Reaches a 0 := by
  rw [isCmdAddr_eq, decide_eq_true_iff]
  omega

/-- R90, R95: a write to offset 0x000 with a listed OP is that command. -/
theorem canon_busWrite_of_command {a : Addr} (ha : Reaches a 0) {d : Word} {r : Byte × Instr × Bool} (hr : r ∈ commands)
    (hd : d.extractLsb' 0 8 = r.1) : (Instr.busWrite a d).canon = r.2.1 := by
  rw [Instr.canon, if_pos (isCmdAddr_iff_reaches.2 ha), opField, hd, commandOfCode_of_mem_commands r hr, Option.getD_some]

/-- R99: a write elsewhere, or with an OP that is not listed, is itself. -/
theorem canon_busWrite_of_not_command {a : Addr} {d : Word}
    (h : ¬ Reaches a 0 ∨ ∀ r ∈ commands, d.extractLsb' 0 8 ≠ r.1) : (Instr.busWrite a d).canon = .busWrite a d := by
  rw [Instr.canon]
  split
  · next hc =>
    have hd := h.resolve_left (not_not_intro (isCmdAddr_iff_reaches.1 hc))
    rw [opField, commandOfCode_eq_none_of_forall_commands hd, Option.getD_none]
  · rfl

/-- The one ill-formed shape is a write that carries a listed command. -/
theorem wellFormed_busWrite_eq_false_iff {a : Addr} {d : Word} :
    (Instr.busWrite a d).wellFormed = false ↔ Reaches a 0 ∧ ∃ r ∈ commands, d.extractLsb' 0 8 = r.1 := by
  have hcode : commandCodes.contains (d.extractLsb' 0 8) = true ↔ ∃ r ∈ commands, d.extractLsb' 0 8 = r.1 := by
    rw [List.contains_iff_mem, ← map_fst_commands, List.mem_map]
    simp only [eq_comm]
  rw [Instr.wellFormed, Bool.not_eq_false', Bool.and_eq_true, hcode, ← isCmdAddr_iff_reaches, isCmdAddr]

/-- An operation is well formed exactly when it is its own canonical name. -/
theorem wellFormed_iff_canon_eq {i : Instr} : i.wellFormed = true ↔ i.canon = i := by
  cases i with
  | busWrite a d =>
    by_cases h : Reaches a 0 ∧ ∃ r ∈ commands, d.extractLsb' 0 8 = r.1
    · obtain ⟨ha, r, hr, hd⟩ := h
      have hne : ∀ r ∈ commands, r.2.1 ≠ .busWrite a d := by simp [commands]
      rw [canon_busWrite_of_command ha hr hd, wellFormed_busWrite_eq_false_iff.2 ⟨ha, r, hr, hd⟩]
      exact ⟨nofun, fun he => absurd he (hne r hr)⟩
    · rw [← Bool.not_eq_false, wellFormed_busWrite_eq_false_iff]
      have hc := canon_busWrite_of_not_command ((not_and_or.1 h).imp_right fun hn r hr hd => hn ⟨r, hr, hd⟩)
      exact ⟨fun _ => hc, fun _ => h⟩
  | _ => exact ⟨fun _ => rfl, fun _ => rfl⟩

/-! ### Decoding -/

/-- The word of an operation decodes to its canonical name. -/
@[simp] theorem decode_encode (i : Instr) : decode (encode i) = .ok i.canon := by
  cases i with
  | busWrite a d => exact decode_write a d
  | busRead a => exact decode_read a 0
  | _ => rfl

/-- R92: a written bus word, its fields written out. -/
theorem decode_writeWord (a : Addr) (d : Word) : decode (.bus (1#1 ++ a ++ d)) = .ok (Instr.busWrite a d).canon :=
  decode_write a d

/-- R92: a read's bus word, its fields written out. -/
theorem decode_readWord (a : Addr) (d : Word) : decode (.bus (0#1 ++ a ++ d)) = .ok (.busRead a) :=
  decode_read a d

/-- The decoder reads canonical names only. -/
theorem canon_eq_of_decode {w : Input} {i : Instr} (h : decode w = .ok i) : i.canon = i := by
  cases w with
  | bus word =>
    rw [eq_busWord word] at h
    cases hrw : word.getLsbD 44 with
    | true =>
      rw [hrw, decode_write] at h
      cases h
      exact canon_canon _
    | false =>
      rw [hrw, decode_read] at h
      cases h
      rfl
  | event code =>
    have hev : ∀ c : BitVec 2, decode (.event c) = .ok .tickSample ∨ decode (.event c) = .ok .tickBaud ∨
        decode (.event c) = .ok .hwReset ∨ decode (.event c) = .error .reservedEvent := by decide
    rcases hev code with he | he | he | he <;> rw [he] at h <;> cases h <;> rfl

theorem decode_event_eq_error_iff :
    ∀ c : BitVec 2, decode (.event c) = .error .reservedEvent ↔ c = 3#2 := by decide

/-! ### The step -/

/-- R12: the first pending operation is carried out, on the state with it taken off. -/
theorem step_of_decode_ok {s : State} {w : Input} {rest : List Input} {i : Instr} (hs : s.inputs = w :: rest)
    (hw : decode w = .ok i) : step s = exec i { s with inputs := rest } := by
  simp only [step, State.fetch, hs, hw]

theorem step_of_reservedEvent {s : State} {rest : List Input} (hs : s.inputs = .event 3#2 :: rest) :
    step s = .refused .reservedEvent := by
  have hw : decode (.event 3#2) = .error .reservedEvent := rfl
  simp only [step, State.fetch, hs, hw]

/-- R320: with no operation pending the block holds its state. -/
theorem step_of_inputs_nil {s : State} (hs : s.inputs = []) : step s = .next s := by
  simp only [step, State.fetch, hs]

/-- An operation placed first is carried out by the next step. -/
theorem step_withNext {w : Input} {i : Instr} (hw : decode w = .ok i) (s : State) : step (s.withNext w) = exec i s :=
  step_of_decode_ok (withNext_inputs s w) hw

/-- A table word is read through the input it stands for (log entry 6). -/
theorem exists_input_of_decodeTableWord {nbits w : Nat} {i : Instr} (h : decodeTableWord nbits w = some i) :
    ∃ input, Input.ofTableWord nbits w = some input ∧ decode input = .ok i := by
  unfold decodeTableWord at h
  cases hin : Input.ofTableWord nbits w with
  | none =>
    rw [hin] at h
    cases h
  | some input =>
    rw [hin] at h
    refine ⟨input, rfl, ?_⟩
    cases hd : decode input with
    | error e =>
      simp [hd, Except.toOption] at h
    | ok j =>
      simp [hd, Except.toOption] at h
      rw [h]

/-! ### Host programs -/

/-- R100: a word value with only its low byte set. -/
theorem setWidth_byte (v : Byte) : v.setWidth 32 = 0#24 ++ v := by
  have hv := v.isLt
  apply BitVec.eq_of_toNat_eq
  simp only [BitVec.toNat_setWidth, BitVec.toNat_append, BitVec.toNat_ofNat, Nat.zero_mod, Nat.zero_shiftLeft, Nat.zero_or]
  omega

@[simp] theorem length_bufWrites (b : Buf) (bs : List Byte) : (bufWrites b bs).length = bs.length := by
  simp [bufWrites]

/-- R101: the k-th write of a load stores byte k at its own address. -/
theorem getElem?_bufWrites {b : Buf} {bs : List Byte} {k : Nat} {v : Byte} (h : bs[k]? = some v) :
    (bufWrites b bs)[k]? = some (.busWrite (BitVec.ofNat 12 (b.addr k)) (0#24 ++ v)) := by
  simp [bufWrites, h, setWidth_byte]

/-- R101, R102: a command is written to CMD as its OP. -/
theorem cmdWrite_of_mem_commands : ∀ r ∈ commands, cmdWrite r.2.1 = some (.busWrite 0x000 (0#24 ++ r.1)) := by decide

theorem registerOffsets_address : ∀ r ∈ registerOffsets, HostLoc.address (.named r.1) = some r.2 := by decide

theorem expand_loadMsg {bs : List Byte} (h1 : 1 ≤ bs.length) (h256 : bs.length ≤ 256) :
    HostOp.expand (.loadMsg bs) = some (bufWrites .msg bs ++ [.busWrite 0x028#12 (BitVec.ofNat 32 bs.length)]) :=
  if_pos ⟨h1, h256⟩

/-! ### The obligations -/

/-- Settles O1: every word decodes to its operation's canonical name, which is the operation itself where it is well formed,
and the listed command where it is not. -/
theorem encodedOperationsDecodeBack : Obligations.EncodedOperationsDecodeBack := by
  refine ⟨fun i hi => ?_, fun a d hwf => ?_⟩
  · rw [decode_encode, wellFormed_iff_canon_eq.1 hi]
  · obtain ⟨ha, r, hr, hd⟩ := wellFormed_busWrite_eq_false_iff.1 hwf
    exact ⟨r, hr, hd.symm, by rw [decode_encode, canon_busWrite_of_command ha hr hd]⟩

/-- Settles O2: what is decoded is a canonical name, and of the inputs only an event can be refused. -/
theorem decoderReadsCanonicalOperations : Obligations.DecoderReadsCanonicalOperations := by
  refine ⟨fun w i h => ?_, fun w => ?_⟩
  · have hc := canon_eq_of_decode h
    exact ⟨wellFormed_iff_canon_eq.2 hc, by rw [decode_encode, hc]⟩
  · cases w with
    | bus word => exact ⟨nofun, nofun⟩
    | event code => rw [decode_event_eq_error_iff, Input.event.injEq]

/-- Settles O3: the two forms of a bus word, and the canonical name of the write. -/
theorem busWordsDecodeByTheirFields : Obligations.BusWordsDecodeByTheirFields := by
  refine fun a d => ⟨decode_readWord a d, fun r hr ha hd => ?_, fun h => ?_⟩
  · rw [decode_writeWord, canon_busWrite_of_command ha hr hd]
  · rw [decode_writeWord, canon_busWrite_of_not_command h]

/-- Settles O6: word by word through `decode_encode`, and form by form through the address map and the command table. -/
theorem hostProgramsAssembleToTheirExpansion : Obligations.HostProgramsAssembleToTheirExpansion := by
  refine ⟨fun ps is h => ?program, fun l a v h => ⟨?_, ?_⟩, fun l v h => ⟨?_, ?_⟩, registerOffsets_address,
    fun b k => ?buffer, rfl, fun _ => rfl, rfl, rfl, rfl, fun r hr v => ⟨?_, ?_⟩, fun bs hl => ?header,
    fun bs hl => ?field, fun bs h1 h256 => ?message, fun n => ⟨rfl, rfl⟩, rfl⟩
  case program =>
    refine ⟨is.map encode, by rw [assemble, h, Option.map_some], ?_⟩
    rw [List.map_map]
    exact List.map_congr_left fun i _ => decode_encode i
  case buffer => cases b <;> rfl
  case header =>
    refine ⟨bufWrites .hdr bs, if_pos hl, by rw [length_bufWrites, hl], fun k v hk => getElem?_bufWrites hk⟩
  case field =>
    refine ⟨bufWrites .info bs, if_pos hl, by rw [length_bufWrites, hl], fun k v hk => getElem?_bufWrites hk⟩
  case message =>
    refine ⟨_, expand_loadMsg h1 h256, by simp, ?_, fun k v hk => ?_⟩
    · rw [List.getElem?_append_right (by simp), length_bufWrites, Nat.sub_self]
      rfl
    · have hlt : k < bs.length := (List.getElem?_eq_some_iff.1 hk).1
      rw [List.getElem?_append_left (by simpa using hlt)]
      exact getElem?_bufWrites hk
  all_goals simp [HostOp.expand, cmdWrite_of_mem_commands, *]

/-- Settles O5: each clause is one equation of `step`; a table word stands for an input that decodes to its operation. -/
theorem stepCarriesOutTheNextOperation : Obligations.StepCarriesOutTheNextOperation := by
  refine ⟨fun _ _ _ _ => step_of_decode_ok, fun _ _ => step_of_reservedEvent, fun _ => step_of_inputs_nil,
    fun s nbits w i h => ?_⟩
  obtain ⟨input, hin, hd⟩ := exists_input_of_decodeTableWord h
  rw [State.withFetchWord, hin, Option.getD_some, step_withNext hd]

/-- Settles O4: the words are closed terms of the decoder. -/
theorem opcodeTableWordsDecode : Obligations.OpcodeTableWordsDecode := by
  unfold Obligations.OpcodeTableWordsDecode
  decide

end Sys2Proof.Machine
end

section
/-! PROOFS. What an operation can do to each part of the state, read off `Effect`, and the rules about writers, modes and
flags that follow (10_state.md R22-R46; 42_ax25_frame.md R173; 44_rtty.md R232; 45_scheduler.md R250-R263). -/

open Sys2Proof.Spec

namespace Sys2Proof.Machine

/-! ### The shared shapes of an effect -/

/-- R282-R286: a register write keeps everything but ARG, the configuration and the STATUS bits. -/
theorem storeReg_frame {s t : State} {d : Word} {l : Location} (h : s.storeReg d l = some t) :
    t = { s with
      arg := t.arg, config := t.config, startFlags := t.startFlags, endFlags := t.endFlags, rttyIdle := t.rttyIdle,
      rttyLen := t.rttyLen, done := t.done, err := t.err, errCause := t.errCause } := by
  rcases storeReg_cases h with ⟨-, rfl⟩ | ⟨-, rfl⟩ | ⟨-, c, sf, ef, ri, rl, rfl, -⟩
  · rfl
  · rw [clearStatus_eq]
  · rfl

/-- A bit arm leaves the frame FSM alone, or moves it by a byte arm. -/
theorem BitArm.ax_eq_or {s : State} {o : BitOut} {f : FrameFsm} {e : BitEncoder} (h : BitArm s o f e) :
    f = s.ax ∨ ∃ b, ByteArm s b f := by
  cases h with
  | stuffed => exact .inl rfl
  | unsent => exact .inl rfl
  | loaded _ _ b f ha => exact .inr ⟨b, ha⟩

/-! ### The parts of the state -/

theorem Effect.result_eq_or {s t : State} {i : Instr} (h : Effect s i t) :
    t.result = s.result ∨ i ∈ [Instr.b91Tlm, .b91Latlon, .ax25NextByte, .nrziNextBit, .rttyNextBit, .hwReset] := by
  cases h with
  | storeReg a d _ h => rw [storeReg_frame h]; exact .inl rfl
  | baudEvent hm hd o f e h u hu => rw [endTransmission_if, hu]; exact .inl rfl
  | baudTick hm b r h u hu => rw [endTransmission_if, hu]; exact .inl rfl
  | base91 i hi v => rcases hi with rfl | rfl <;> exact .inr (by simp)
  | nextByte | nextBit | rttyBit | hwReset => exact .inr (by simp)
  | _ => exact .inl rfl

theorem Effect.crc_eq_or {s t : State} {i : Instr} (h : Effect s i t) :
    t.crc = s.crc ∨ i ∈ [Instr.crcLoad, .crcByte, .crcHdr, .crcInfo, .fcsCompute, .hwReset] := by
  cases h with
  | storeReg a d _ h => rw [storeReg_frame h]; exact .inl rfl
  | baudEvent hm hd o f e h u hu => rw [endTransmission_if, hu]; exact .inl rfl
  | baudTick hm b r h u hu => rw [endTransmission_if, hu]; exact .inl rfl
  | crc i hi c => exact .inr (List.mem_append_left [Instr.fcsCompute, .hwReset] hi)
  | fcs | hwReset => exact .inr (by simp)
  | _ => exact .inl rfl

/-- R28: FCS_STALE falls by FCS_COMPUTE and rises by a reset or an accepted write to HDR or INFO. -/
theorem Effect.fcsStale_cases {s t : State} {i : Instr} (h : Effect s i t) :
    t.fcsStale = s.fcsStale ∨ (i = .fcsCompute ∧ t.fcsStale = false) ∨ (i = .hwReset ∧ t.fcsStale = true) ∨
      ∃ a d b k, i = .busWrite a d ∧ s.mode = .idle ∧ location a = .buf b k ∧ b ≠ .msg ∧ t.fcsStale = true := by
  cases h with
  | storeReg a d _ h => rw [storeReg_frame h]; exact .inl rfl
  | baudEvent hm hd o f e h u hu => rw [endTransmission_if, hu]; exact .inl rfl
  | baudTick hm b r h u hu => rw [endTransmission_if, hu]; exact .inl rfl
  | fcs => exact .inr (.inl ⟨rfl, rfl⟩)
  | hwReset => exact .inr (.inr (.inl ⟨rfl, rfl⟩))
  | storeBuf a d b k ha hm =>
    by_cases hb : b = .msg
    · exact .inl (if_pos hb)
    · exact .inr (.inr (.inr ⟨a, d, b, k, rfl, hm, ha, hb, if_neg hb⟩))
  | _ => exact .inl rfl

/-- R40: memory changes by a reset, or by an accepted write to one buffer byte. -/
theorem Effect.mem_cases {s t : State} {i : Instr} (h : Effect s i t) :
    t.mem = s.mem ∨ (i = .hwReset ∧ t.mem = []) ∨
      ∃ a d b k, i = .busWrite a d ∧ s.mode = .idle ∧ location a = .buf b k ∧
        t = s.hostWriteBuf b k (d.extractLsb' 0 8) := by
  cases h with
  | storeReg a d _ h => rw [storeReg_frame h]; exact .inl rfl
  | baudEvent hm hd o f e h u hu => rw [endTransmission_if, hu]; exact .inl rfl
  | baudTick hm b r h u hu => rw [endTransmission_if, hu]; exact .inl rfl
  | hwReset => exact .inr (.inl ⟨rfl, rfl⟩)
  | storeBuf a d b k ha hm => exact .inr (.inr ⟨a, d, b, k, rfl, hm, ha, rfl⟩)
  | _ => exact .inl rfl

/-- R36: the frame FSM is kept, reset, or moved by a byte arm. -/
theorem Effect.ax_cases {s t : State} {i : Instr} (h : Effect s i t) :
    t.ax = s.ax ∨ (i ∈ [Instr.ax25Reset, .txStartAprs, .hwReset] ∧ t.ax = FrameFsm.reset) ∨
      (i ∈ [Instr.ax25NextByte, .nrziNextBit, .tickSample] ∧ ∃ o, ByteArm s o t.ax) := by
  cases h with
  | storeReg a d _ h => rw [storeReg_frame h]; exact .inl rfl
  | baudTick hm b r h u hu => rw [endTransmission_if, hu]; exact .inl rfl
  | ax25Reset | startAprs | hwReset => exact .inr (.inl ⟨by simp, rfl⟩)
  | nextByte hm o f h => exact .inr (.inr ⟨by simp, o, h⟩)
  | nextBit hm o f e h => exact h.ax_eq_or.imp_right fun hb => .inr ⟨by simp, hb⟩
  | baudEvent hm hd o f e h u hu =>
    rw [endTransmission_if, hu]
    exact h.ax_eq_or.imp_right fun hb => .inr ⟨by simp, hb⟩
  | _ => exact .inl rfl

/-- R37: the bit encoder is kept, reset, or moved by a bit arm. -/
theorem Effect.enc_cases {s t : State} {i : Instr} (h : Effect s i t) :
    t.enc = s.enc ∨ (i ∈ [Instr.ax25Reset, .txStartAprs, .hwReset] ∧ ∃ level, t.enc = BitEncoder.reset level) ∨
      (i ∈ [Instr.nrziNextBit, .tickSample] ∧ ∃ o f, BitArm s o f t.enc) := by
  cases h with
  | storeReg a d _ h => rw [storeReg_frame h]; exact .inl rfl
  | baudTick hm b r h u hu => rw [endTransmission_if, hu]; exact .inl rfl
  | ax25Reset | startAprs | hwReset => exact .inr (.inl ⟨by simp, _, rfl⟩)
  | nextBit hm o f e h => exact .inr (.inr ⟨by simp, o, f, h⟩)
  | baudEvent hm hd o f e h u hu => rw [endTransmission_if, hu]; exact .inr (.inr ⟨by simp, o, f, h⟩)
  | _ => exact .inl rfl

/-- The calls of the RTTY bit producer that an operation makes (R230, R256). -/
abbrev RttyCall (s : State) (i : Instr) : Prop :=
  i = .rttyNextBit ∧ s.mode = .idle ∧ s.rtty.fin = false ∨ i = .tickBaud ∧ s.mode = .rtty

/-- R38: the RTTY FSM is kept, started on a message, reset, or moved by an arm of its producer. -/
theorem Effect.rtty_cases {s t : State} {i : Instr} (h : Effect s i t) :
    t.rtty = s.rtty ∨ (i ∈ [Instr.rttyInit, .txStartRtty] ∧ s.rttyLenOk = true ∧ t.rtty = s.startMessage.rtty) ∨
      (i = .hwReset ∧ t.rtty = RttyFsm.reset) ∨ (RttyCall s i ∧ ∃ b, RttyArm s b t.rtty) := by
  cases h with
  | storeReg a d _ h => rw [storeReg_frame h]; exact .inl rfl
  | baudEvent hm hd o f e h u hu => rw [endTransmission_if, hu]; exact .inl rfl
  | rttyInit hm hl => exact .inr (.inl ⟨by simp, hl, rfl⟩)
  | startRtty hm hl => exact .inr (.inl ⟨by simp, hl, rfl⟩)
  | hwReset => exact .inr (.inr (.inl ⟨rfl, rfl⟩))
  | rttyBit hm hf b r h => exact .inr (.inr (.inr ⟨.inl ⟨rfl, hm, hf⟩, b, h⟩))
  | baudTick hm b r h u hu => rw [endTransmission_if, hu]; exact .inr (.inr (.inr ⟨.inr ⟨rfl, hm⟩, b, h⟩))
  | _ => exact .inl rfl

/-- A call of the RTTY bit producer that completes runs one of its arms. -/
theorem Effect.rttyArm_of_call {s t : State} {i : Instr} (h : Effect s i t) (hc : RttyCall s i) :
    ∃ b, RttyArm s b t.rtty := by
  rcases hc with ⟨rfl, hm, hf⟩ | ⟨rfl, hm⟩
  · cases h with
    | busyCommand _ _ hb => exact absurd hm hb
    | rttyLen _ hi => simp at hi
    | rttyFinished _ hf' => exact absurd (hf.symm.trans hf') nofun
    | crc _ hi => simp at hi
    | base91 _ hi => simp at hi
    | rttyBit _ _ b r h => exact ⟨b, h⟩
  · cases h with
    | busyCommand _ hi => simp at hi
    | rttyLen _ hi => simp at hi
    | crc _ hi => simp at hi
    | base91 _ hi => simp at hi
    | baudIgnored hb => exact absurd hm hb
    | baudTick _ b r h u hu => rw [endTransmission_if, hu]; exact ⟨b, h⟩

/-- R25, R26: MODE and DONE are kept, or changed by a STATUS write, a start in IDLE, a reset, or the end of the running
transmission, which records no error. -/
theorem Effect.mode_cases {s t : State} {i : Instr} (h : Effect s i t) :
    (t.mode = s.mode ∧ (t.done = s.done ∨ StatusWrite i 3 ∧ t.done = false)) ∨
      (i = .txStartAprs ∧ s.mode = .idle ∧ t.mode = .aprs ∧ t.done = false) ∨
      (i = .txStartRtty ∧ s.mode = .idle ∧ t.mode = .rtty ∧ t.done = false) ∨ (i = .hwReset ∧ t.done = false) ∨
      ((i = .tickSample ∧ s.mode = .aprs ∨ i = .tickBaud ∧ s.mode = .rtty) ∧
        t = { t with mode := .idle, done := true, err := s.err, errCause := s.errCause }) := by
  cases h with
  | storeReg a d _ h =>
    left
    rcases storeReg_cases h with ⟨-, rfl⟩ | ⟨hl, rfl⟩ | ⟨-, c, sf, ef, ri, rl, rfl, -⟩
    · exact ⟨rfl, .inl rfl⟩
    · refine ⟨clearStatus_mode s d, ?_⟩
      rw [clearStatus_done]
      cases h3 : d.getLsbD 3 with
      | true => exact .inr ⟨⟨a, d, rfl, reaches_of_location_status hl, h3⟩, rfl⟩
      | false => exact .inl rfl
    · exact ⟨rfl, .inl rfl⟩
  | startAprs hm => exact .inr (.inl ⟨rfl, hm, rfl, rfl⟩)
  | startRtty hm hl => exact .inr (.inr (.inl ⟨rfl, hm, rfl, rfl⟩))
  | hwReset => exact .inr (.inr (.inr (.inl ⟨rfl, rfl⟩)))
  | baudEvent hm hd o f e h u hu =>
    rw [hu]
    split
    · exact .inr (.inr (.inr (.inr ⟨.inl ⟨rfl, hm⟩, rfl⟩)))
    · exact .inl ⟨rfl, .inl rfl⟩
  | baudTick hm b r h u hu =>
    rw [hu]
    split
    · exact .inr (.inr (.inr (.inr ⟨.inr ⟨rfl, hm⟩, rfl⟩)))
    · exact .inl ⟨rfl, .inl rfl⟩
  | _ => exact .inl ⟨rfl, .inl rfl⟩

/-- An operation whose canonical name is an event is that event. -/
theorem canon_eq_of_mem_events {i : Instr} (h : i.canon ∈ [Instr.tickSample, .tickBaud, .hwReset]) : i.canon = i :=
  have hdisj : ∀ j ∈ [Instr.tickSample, .tickBaud, .hwReset],
      j ∉ crcCommands ++ [.b91Tlm, .b91Latlon] ++ idleCommands := by decide
  (canon_command_or_self i).resolve_left (hdisj _ h)

/-! ### The moves of the two FSMs -/

theorem FrameFsm.count_state (f : FrameFsm) (limit : BitVec 8) (next : AxState) :
    (f.count limit next).state = next ∨ (f.count limit next).state = f.state := by
  unfold FrameFsm.count
  split
  · exact .inl rfl
  · exact .inr rfl

theorem FrameFsm.countEnd_state (f : FrameFsm) (limit : BitVec 8) : (f.countEnd limit).state = f.state := by
  unfold FrameFsm.countEnd
  split <;> rfl

theorem FrameFsm.enter_state {f : FrameFsm} (h : f.state = .init ∨ f.state = .startFlags) :
    f.enter.state = .startFlags := by
  rcases h with h | h
  · rw [FrameFsm.enter_of_init h]
  · rw [FrameFsm.enter_of_ne_init (by simp [h]), h]

/-- R173: a byte arm moves AX_STATE forward or keeps it. -/
theorem ByteArm.axNumber_le {s : State} {o : ByteOut} {f : FrameFsm} (h : ByteArm s o f) :
    axNumber s.ax.state ≤ axNumber f.state := by
  cases h with
  | openFlag h =>
    have he := FrameFsm.enter_state h
    rcases s.ax.enter.count_state s.startFlags .header with hc | hc <;> rcases h with h | h <;> simp [hc, he, h, axNumber]
  | header v h hv =>
    rcases s.ax.count_state (BitVec.ofNat 8 Config.hdrLen) .data with hc | hc <;> simp [hc, h, axNumber]
  | data v h hv =>
    rcases s.ax.count_state (BitVec.ofNat 8 Config.infoLen) .fcs1 with hc | hc <;> simp [hc, h, axNumber]
  | fcs1 h => simp [h, axNumber]
  | fcs2 h => simp [h, axNumber]
  | closeFlag h => rw [FrameFsm.countEnd_state]

/-- R169: a finished frame stays where it is. -/
theorem ByteArm.eq_of_finished {s : State} {o : ByteOut} {f : FrameFsm} (h : ByteArm s o f) (hs : s.ax.state = .endFlags)
    (hf : s.ax.finished = true) : f = s.ax := by
  cases h with
  | closeFlag _ => exact FrameFsm.countEnd_of_finished hf _
  | openFlag h => simp [hs] at h
  | header _ h | data _ h | fcs1 h | fcs2 h => rw [hs] at h; cases h

theorem RttyFsm.afterDataBit_cases (r : RttyFsm) :
    (r.bidx = 6 ∧ r.afterDataBit = { r with bidx := 0, state := .stop1 }) ∨
      (r.bidx ≠ 6 ∧ r.afterDataBit = { r with bidx := r.bidx + 1 }) := by
  unfold RttyFsm.afterDataBit
  split
  · next h => exact .inl ⟨h, rfl⟩
  · next h => exact .inr ⟨h, rfl⟩

/-- R228: after Stop2 the next character starts, or the message is finished. -/
theorem RttyFsm.afterStop2_cases (r : RttyFsm) :
    (r.cidx + 1 < r.len ∧ r.afterStop2 = { r with cidx := r.cidx + 1, state := .start }) ∨
      (r.len ≤ r.cidx + 1 ∧ r.afterStop2 = { r with cidx := r.cidx + 1, state := .idle, fin := true }) := by
  unfold RttyFsm.afterStop2
  split
  · next h => exact .inl ⟨h, rfl⟩
  · next h => exact .inr ⟨BitVec.not_lt.1 h, rfl⟩

/-- R232: where an arm of the RTTY producer that leaves its state goes. -/
theorem RttyArm.state_cases {s : State} {b : Bool} {r : RttyFsm} (h : RttyArm s b r) (hne : r.state ≠ s.rtty.state) :
    (s.rtty.state = .idle ∧ s.rtty.idleLeft = 1 ∧ r.state = .start) ∨
    (s.rtty.state = .idle ∧ s.rtty.idleLeft = 0 ∧ r.state = .character ∧ r.bidx = 0) ∨
    (s.rtty.state = .start ∧ r.state = .character ∧ r.bidx = 0) ∨
    (s.rtty.state = .character ∧ s.rtty.bidx = 6 ∧ r.state = .stop1) ∨
    (s.rtty.state = .stop1 ∧ r.state = .stop2) ∨
    (s.rtty.state = .stop2 ∧ s.rtty.cidx + 1 < s.rtty.len ∧ r.state = .start ∧ r.fin = s.rtty.fin) ∨
    (s.rtty.state = .stop2 ∧ s.rtty.len ≤ s.rtty.cidx + 1 ∧ r.state = .idle ∧ r.fin = true) := by
  cases h with
  | idleBit hs hi =>
    by_cases h0 : s.rtty.idleLeft - 1#16 = 0#16
    · exact .inl ⟨hs, (BitVec.sub_eq_iff_eq_add.1 h0).trans (BitVec.zero_add _), if_pos h0⟩
    · exact absurd ((if_neg h0).trans hs.symm) hne
  | startBit v hs hv =>
    rcases hs with hs | ⟨hs, hi⟩
    · exact .inr (.inr (.inl ⟨hs, rfl, rfl⟩))
    · exact .inr (.inl ⟨hs, hi, rfl, rfl⟩)
  | dataBit hs =>
    rcases s.rtty.afterDataBit_cases with ⟨h6, he⟩ | ⟨-, he⟩
    · exact .inr (.inr (.inr (.inl ⟨hs, h6, by rw [he]⟩)))
    · rw [he] at hne
      exact absurd rfl hne
  | firstStop hs => exact .inr (.inr (.inr (.inr (.inl ⟨hs, rfl⟩))))
  | secondStop hs =>
    rcases s.rtty.afterStop2_cases with ⟨hlt, he⟩ | ⟨hle, he⟩ <;> rw [he]
    · exact .inr (.inr (.inr (.inr (.inr (.inl ⟨hs, hlt, rfl, rfl⟩)))))
    · exact .inr (.inr (.inr (.inr (.inr (.inr ⟨hs, hle, rfl, rfl⟩)))))

/-- R226: a data bit that does not end the character is counted. -/
theorem RttyArm.eq_of_character {s : State} {b : Bool} {r : RttyFsm} (h : RttyArm s b r) (hs : s.rtty.state = .character)
    (hr : r.state = .character) : r = { s.rtty with bidx := s.rtty.bidx + 1 } := by
  cases h with
  | dataBit _ =>
    rcases s.rtty.afterDataBit_cases with ⟨-, he⟩ | ⟨-, he⟩
    · rw [he] at hr
      cases hr
    · exact he
  | startBit v h hv => simp [hs] at h
  | idleBit h _ | firstStop h | secondStop h => rw [hs] at h; cases h

/-- R229: R_FIN is set by an arm or kept. -/
theorem RttyArm.fin_of_fin {s : State} {b : Bool} {r : RttyFsm} (h : RttyArm s b r) (hf : s.rtty.fin = true) :
    r.fin = true := by
  cases h with
  | dataBit _ => rw [RttyFsm.afterDataBit_fin, hf]
  | secondStop _ => rcases s.rtty.afterStop2_cases with ⟨-, he⟩ | ⟨-, he⟩ <;> simp [he, hf]
  | idleBit | startBit | firstStop => exact hf

/-! ### A running transmission -/

/-- What a transmission reads or has reached (R77, R263): nothing of it differs between the two states. -/
structure SameTransmission (s t : State) : Prop where
  mode : t.mode = s.mode
  ax : t.ax = s.ax
  enc : t.enc = s.enc
  rtty : t.rtty = s.rtty
  fcs : t.fcs = s.fcs
  config : t.config = s.config
  startFlags : t.startFlags = s.startFlags
  endFlags : t.endFlags = s.endFlags
  rttyIdle : t.rttyIdle = s.rttyIdle
  rttyLen : t.rttyLen = s.rttyLen
  div : t.div = s.div
  aux : t.aux = s.aux
  sym : t.sym = s.sym
  mem : t.mem = s.mem

/-- Outside IDLE every effect but a tick's and the reset's keeps the transmission. -/
theorem Effect.sameTransmission {s t : State} {i : Instr} (h : Effect s i t) (hm : s.mode ≠ .idle)
    (hi : i ∉ [Instr.tickSample, .tickBaud, .hwReset]) : SameTransmission s t := by
  cases h with
  | fcs hb | ax25Reset hb | nextByte hb | nextBit hb | rttyInit hb | rttyBit hb | startAprs hb | startRtty hb
  | storeBuf _ _ _ _ _ hb => exact absurd hb hm
  | sampleIgnored | sampleCounted | baudEvent | baudIgnored | baudTick | hwReset => simp at hi
  | storeReg a d _ h =>
    rcases storeReg_cases h with ⟨-, rfl⟩ | ⟨-, rfl⟩ | ⟨hb, -⟩
    · constructor <;> rfl
    · constructor <;> simp
    · exact absurd hb hm
  | _ => constructor <;> rfl

/-! ### The obligations -/

/-- Settles O24: the byte arms move forward, and nothing else but the resets moves the frame FSM. -/
theorem frameStateMovesOnlyForward : Obligations.FrameStateMovesOnlyForward := by
  intro i s t h hi
  rcases (exec_effect h).ax_cases with he | ⟨hreset, -⟩ | ⟨-, o, ha⟩
  · rw [he]
    exact ⟨le_rfl, fun _ _ => rfl⟩
  · exact absurd hreset hi
  · exact ⟨ha.axNumber_le, ha.eq_of_finished⟩

/-- Settles O44: the cases of `Effect.mode_cases` in which MODE differs. -/
theorem modeChangesOnlyAtStartEndAndReset : Obligations.ModeChangesOnlyAtStartEndAndReset := by
  intro i s t h hne
  rcases (exec_effect h).mode_cases with
    ⟨he, -⟩ | ⟨hi, hm, ht, -⟩ | ⟨hi, hm, ht, -⟩ | ⟨hi, -⟩ | ⟨⟨hi, hm⟩ | ⟨hi, hm⟩, ht⟩
  · exact absurd he hne
  · exact .inl ⟨hi, hm, ht⟩
  · exact .inr (.inl ⟨hi, hm, ht⟩)
  · exact .inr (.inr (.inr (.inr (eq_of_canon hi (by decide)))))
  · exact .inr (.inr (.inl ⟨eq_of_canon hi (by decide), hm, by rw [ht], by rw [ht]⟩))
  · exact .inr (.inr (.inr (.inl ⟨eq_of_canon hi (by decide), hm, by rw [ht], by rw [ht]⟩)))

/-- Settles O46: the cases of `Effect.mode_cases` in which DONE differs. -/
theorem doneIsSetAtTheEndAndClearedByTheHost : Obligations.DoneIsSetAtTheEndAndClearedByTheHost := by
  intro i s t h
  simp only [State.irq_eq]
  rcases (exec_effect h).mode_cases with
    ⟨-, he | ⟨hst, hd⟩⟩ | ⟨hi, -, -, hd⟩ | ⟨hi, -, -, hd⟩ | ⟨hi, hd⟩ | ⟨htick, ht⟩
  · rw [he]
    exact ⟨fun h0 h1 => absurd (h0.symm.trans h1) nofun, fun h1 h0 => absurd (h0.symm.trans h1) nofun⟩
  · exact ⟨fun _ h1 => absurd (hd.symm.trans h1) nofun, fun _ _ => .inr (.inr (.inl (statusWrite_of_canon hst)))⟩
  · exact ⟨fun _ h1 => absurd (hd.symm.trans h1) nofun, fun _ _ => .inl hi⟩
  · exact ⟨fun _ h1 => absurd (hd.symm.trans h1) nofun, fun _ _ => .inr (.inl hi)⟩
  · exact ⟨fun _ h1 => absurd (hd.symm.trans h1) nofun,
      fun _ _ => .inr (.inr (.inr (eq_of_canon hi (by decide))))⟩
  · rw [ht]
    refine ⟨fun _ _ => ?_, nofun⟩
    rcases htick with ⟨hi, hm⟩ | ⟨hi, hm⟩
    · exact ⟨.inl (eq_of_canon hi (by decide)), by simp [hm], rfl, rfl, rfl⟩
    · exact ⟨.inr (eq_of_canon hi (by decide)), by simp [hm], rfl, rfl, rfl⟩

/-- Settles O45: outside IDLE only the effects of ticks and of the reset touch the transmission. -/
theorem runningTransmissionIsUndisturbed : Obligations.RunningTransmissionIsUndisturbed := by
  intro i s t hm h hi
  have hc : i.canon ∉ [Instr.tickSample, .tickBaud, .hwReset] := fun hmem => hi (canon_eq_of_mem_events hmem ▸ hmem)
  obtain ⟨h1, h2, h3, h4, h5, h6, h7, h8, h9, h10, h11, h12, h13, hmem⟩ := (exec_effect h).sameTransmission hm hc
  exact ⟨h1, h2, h3, h4, h5, h6, h7, h8, h9, h10, h11, h12, h13, readBuf_congr hmem⟩

/-- Settles O54: memory changes by a reset, or by an accepted write, which leaves every other byte alone. -/
theorem onlyHostWritesChangeBufferBytes : Obligations.OnlyHostWritesChangeBufferBytes := by
  intro i s t b k h hne
  rcases (exec_effect h).mem_cases with he | ⟨hi, he⟩ | ⟨a, d, b', k', hi, hm, ha, rfl⟩
  · exact absurd (readBuf_congr he b k) hne
  · exact .inl ⟨eq_of_canon hi (by decide), readBuf_eq_none_of_mem_nil he b k⟩
  · obtain ⟨hk', hreach⟩ := location_eq_buf ha
    have hsame : b = b' ∧ k = k' := by
      by_contra hn
      exact hne (readBuf_hostWriteBuf_other s _ hk' hn)
    obtain ⟨rfl, rfl⟩ := hsame
    exact .inr ⟨a, d, eq_of_canon hi (by simp), hm, hk', hreach.trans (by cases b <;> rfl),
      readBuf_hostWriteBuf_same s _ hk'⟩

/-- HDR and INFO stand between 0x100 and 0x280 (R62). -/
theorem header_or_field_range {a : Addr} {b : Buf} {k : Nat} (h : location a = .buf b k) (hb : b ≠ .msg) :
    BusyProtected a ∧ 0x100 ≤ a.toNat ∧ a.toNat < 0x280 := by
  obtain ⟨hk, ha⟩ := location_eq_buf h
  cases b with
  | msg => exact absurd rfl hb
  | hdr | info =>
    simp only [Buf.size, Buf.addr, Buf.base, Config.hdrLen, Config.infoLen] at hk ha
    omega

/-- Settles O55: each register by the effects that write it. -/
theorem onlyNamedOperationsWriteResultCrcFcs : Obligations.OnlyNamedOperationsWriteResultCrcFcs := by
  intro i s t h
  have he := exec_effect h
  refine ⟨he.result_eq_or.resolve_left, he.crc_eq_or.resolve_left, fun hne => ?_, fun h1 h0 => ?_, fun h0 h1 => ?_⟩
  · rcases he.fcs_eq_or.resolve_left hne with hi | hi <;> simp [hi]
  · rcases he.fcsStale_cases with hk | ⟨hi, -⟩ | ⟨-, hd⟩ | ⟨a, d, b, k, -, -, -, -, hd⟩
    · exact absurd (h0.symm.trans (hk.trans h1)) nofun
    · exact hi
    · exact absurd (h0.symm.trans hd) nofun
    · exact absurd (h0.symm.trans hd) nofun
  · rcases he.fcsStale_cases with hk | ⟨-, hd⟩ | ⟨hi, -⟩ | ⟨a, d, b, k, hi, hm, ha, hb, -⟩
    · exact absurd (h1.symm.trans (hk.trans h0)) nofun
    · exact absurd (hd.symm.trans h1) nofun
    · exact .inl (eq_of_canon hi (by decide))
    · exact .inr ⟨a, d, eq_of_canon hi (by simp), hm, header_or_field_range ha hb⟩

/-- Settles O56: each flag by the effects that move its FSM. -/
theorem encoderFlagsHaveOnlyTheirWriters : Obligations.EncoderFlagsHaveOnlyTheirWriters := by
  intro i s t h
  have he := exec_effect h
  refine ⟨fun hne => ?_, fun hne => ?_, fun h1 h0 => ?_, fun h0 h1 => ?_⟩
  · rcases he.ax_cases with hk | ⟨hi, -⟩ | ⟨hi, -⟩
    · exact absurd (by rw [hk]) hne
    all_goals
      simp only [List.mem_cons, List.not_mem_nil, or_false] at hi ⊢
      tauto
  · rcases he.enc_cases with hk | ⟨hi, -⟩ | ⟨hi, -⟩
    · simp [hk] at hne
    all_goals
      simp only [List.mem_cons, List.not_mem_nil, or_false] at hi ⊢
      tauto
  · rcases he.rtty_cases with hk | ⟨hi, -⟩ | ⟨-, hr⟩ | ⟨-, b, ha⟩
    · rw [hk, h1] at h0
      cases h0
    · simpa using hi
    · rw [hr] at h0
      cases h0
    · rw [ha.fin_of_fin h1] at h0
      cases h0
  · rcases he.rtty_cases with hk | ⟨-, -, hr⟩ | ⟨hi, -⟩ | ⟨hi, -⟩
    · rw [hk, h0] at h1
      cases h1
    · rw [hr] at h1
      cases h1
    · simp [hi]
    · rcases hi with ⟨hi, -⟩ | ⟨hi, -⟩ <;> simp [hi]

end Sys2Proof.Machine
end

section
/-! PROOFS. The invariant: each condition of `State.Inv` by the parts of the state it reads (10_state.md R27-R39;
43_bitstuff_nrzi.md R203; 44_rtty.md R232). -/

open Sys2Proof.Spec

namespace Sys2Proof.Machine

/-! ### The frame FSM -/

theorem FrameFsm.ok_reset : FrameFsm.reset.ok = true := rfl

/-- R163-R168: a byte arm keeps AX_IDX an index of the buffer it walks, and sets FINISHED in EndFlags only. -/
theorem ByteArm.ok {s : State} {o : ByteOut} {f : FrameFsm} (h : ByteArm s o f) (hok : s.ax.ok = true) : f.ok = true := by
  cases h with
  | openFlag hs =>
    have hf : s.ax.finished = false := by rcases hs with hs | hs <;> simp [FrameFsm.ok, hs] at hok <;> simp [hok]
    have he : s.ax.enter.finished = false ∧ s.ax.enter.state = .startFlags := by
      refine ⟨?_, FrameFsm.enter_state hs⟩
      rcases hs with hs | hs
      · rw [FrameFsm.enter_of_init hs, hf]
      · rw [FrameFsm.enter_of_ne_init (by simp [hs]), hf]
    rw [FrameFsm.count_of_state he.2, he.1]
    split <;> rfl
  | header v hs hv =>
    simp only [FrameFsm.ok, hs, Bool.and_eq_true, decide_eq_true_iff, Bool.not_eq_true'] at hok
    obtain ⟨hidx, hf⟩ := hok
    rw [FrameFsm.count_of_state hs, hf]
    split
    · rfl
    · next hne =>
      simp only [FrameFsm.ok, Bool.and_eq_true, decide_eq_true_iff]
      rw [Config.hdrLen] at hidx hne ⊢
      exact ⟨by bv_omega, rfl⟩
  | data v hs hv =>
    simp only [FrameFsm.ok, hs, Bool.and_eq_true, decide_eq_true_iff, Bool.not_eq_true'] at hok
    obtain ⟨hidx, hf⟩ := hok
    rw [FrameFsm.count_of_state hs, hf]
    split
    · rfl
    · next hne =>
      simp only [FrameFsm.ok, Bool.and_eq_true, decide_eq_true_iff]
      rw [Config.infoLen] at hidx hne ⊢
      exact ⟨by bv_omega, rfl⟩
  | fcs1 hs =>
    simp only [FrameFsm.ok, hs] at hok
    simpa only [FrameFsm.ok] using hok
  | fcs2 hs => rfl
  | closeFlag hs => simp only [FrameFsm.ok, FrameFsm.countEnd_state, hs]

theorem Effect.ax_ok {s t : State} {i : Instr} (h : Effect s i t) (hok : s.ax.ok = true) : t.ax.ok = true := by
  rcases h.ax_cases with he | ⟨-, he⟩ | ⟨-, o, ha⟩
  · rw [he, hok]
  · rw [he, FrameFsm.ok_reset]
  · exact ha.ok hok

/-! ### The bit encoder -/

theorem BitEncoder.ok_reset (level : Bool) : (BitEncoder.reset level).ok = true := by cases level <;> rfl

/-- A byte with stuffing on: at most five 1s are counted, and the unsent bits are right-aligned. -/
theorem BitEncoder.ok_iff_of_stuff {e : BitEncoder} (h : e.stuff = true) :
    e.ok = true ↔ e.bl.toNat ≤ 7 ∧ e.ones.toNat ≤ 5 ∧ e.sr.toNat < 2 ^ e.bl.toNat := by
  simp only [BitEncoder.ok, h, if_true, Bool.and_eq_true, decide_eq_true_eq]

/-- A flag: SR and ONES are what the number of unsent bits says (R203). -/
theorem BitEncoder.ok_iff_of_flag {e : BitEncoder} (h : e.stuff = false) :
    e.ok = true ↔ e.bl.toNat ≤ 7 ∧ e.sr = Config.flagByte >>> (8 - e.bl.toNat) ∧
      e.ones.toNat = if e.bl.toNat = 0 then 0 else 7 - e.bl.toNat := by
  simp only [BitEncoder.ok, h, Bool.false_eq_true, if_false, Bool.and_eq_true, decide_eq_true_eq, beq_iff_eq]

theorem onesAfter_le_succ : ∀ (b : Bool) (ones : BitVec 3), (onesAfter b ones).toNat ≤ ones.toNat + 1 := by decide

/-- With no stuffed bit pending, one more source bit makes at most five 1s. -/
theorem BitEncoder.ones_le_four {e : BitEncoder} (hok : e.ok = true) (hp : e.stuffPending = false)
    (h : e.stuff = true ∨ e.bl = 0) : e.ones.toNat ≤ 4 := by
  cases hst : e.stuff with
  | true =>
    obtain ⟨-, h5, -⟩ := (BitEncoder.ok_iff_of_stuff hst).1 hok
    have hne : e.ones ≠ 5#3 := fun he => absurd ((stuffPending_iff e).2 ⟨hst, he⟩) (by simp [hp])
    bv_omega
  | false =>
    obtain ⟨-, -, h0⟩ := (BitEncoder.ok_iff_of_flag hst).1 hok
    have hbl : e.bl = 0 := h.resolve_left (by simp [hst])
    rw [hbl, if_pos (by rfl)] at h0
    omega

/-- A source bit of a flag, for each number of unsent bits: SR, and the 1s counted. -/
theorem flag_sendBit : ∀ bl : BitVec 4, bl ≠ 0 → bl.toNat ≤ 7 →
    (Config.flagByte >>> (8 - bl.toNat)) >>> 1 = Config.flagByte >>> (8 - (bl - 1#4).toNat) ∧
    ∀ ones : BitVec 3, ones.toNat = 7 - bl.toNat →
      (onesAfter ((Config.flagByte >>> (8 - bl.toNat)).getLsbD 0) ones).toNat =
        if (bl - 1#4).toNat = 0 then 0 else 7 - (bl - 1#4).toNat := by decide

theorem BitEncoder.ok_insertStuffed {e : BitEncoder} (hok : e.ok = true) (hp : e.stuffPending = true) :
    e.insertStuffed.ok = true := by
  obtain ⟨hst, -⟩ := (stuffPending_iff e).1 hp
  obtain ⟨h7, -, hsr⟩ := (BitEncoder.ok_iff_of_stuff hst).1 hok
  exact (BitEncoder.ok_iff_of_stuff (e := e.insertStuffed) hst).2 ⟨h7, Nat.zero_le 5, hsr⟩

theorem BitEncoder.ok_sendBit {e : BitEncoder} (hok : e.ok = true) (hp : e.stuffPending = false) (hb : e.bl ≠ 0) :
    e.sendBit.ok = true := by
  cases hst : e.stuff with
  | true =>
    obtain ⟨h7, -, hsr⟩ := (BitEncoder.ok_iff_of_stuff hst).1 hok
    have h4 := BitEncoder.ones_le_four hok hp (.inl hst)
    have hones := onesAfter_le_succ (e.sr.getLsbD 0) e.ones
    have hbl : (e.bl - 1#4).toNat + 1 = e.bl.toNat := by bv_omega
    refine (BitEncoder.ok_iff_of_stuff (e := e.sendBit) hst).2 ⟨?_, ?_, ?_⟩
    · show (e.bl - 1#4).toNat ≤ 7
      omega
    · show (onesAfter (e.sr.getLsbD 0) e.ones).toNat ≤ 5
      omega
    · show (e.sr >>> 1).toNat < 2 ^ (e.bl - 1#4).toNat
      rw [← hbl, pow_succ] at hsr
      rw [BitVec.toNat_ushiftRight, Nat.shiftRight_eq_div_pow]
      omega
  | false =>
    obtain ⟨h7, hsr, hones⟩ := (BitEncoder.ok_iff_of_flag hst).1 hok
    have hb0 : e.bl.toNat ≠ 0 := fun h0 => hb (BitVec.eq_of_toNat_eq h0)
    rw [if_neg hb0] at hones
    obtain ⟨hsr', hones'⟩ := flag_sendBit e.bl hb h7
    refine (BitEncoder.ok_iff_of_flag (e := e.sendBit) hst).2 ⟨?_, ?_, ?_⟩
    · show (e.bl - 1#4).toNat ≤ 7
      bv_omega
    · show e.sr >>> 1 = _
      rw [hsr]
      exact hsr'
    · show (onesAfter (e.sr.getLsbD 0) e.ones).toNat = _
      rw [hsr]
      exact hones' e.ones hones

/-- A byte without stuffing is a flag. -/
theorem ByteArm.byte_eq_flag {s : State} {o : ByteOut} {f : FrameFsm} (h : ByteArm s o f) (hst : o.st = false) :
    o.byte = Config.flagByte := by
  cases h with
  | openFlag | closeFlag => rfl
  | header | data | fcs1 | fcs2 => cases hst

/-- The byte just loaded and its first bit sent (R192-R194). -/
theorem BitEncoder.load_sendBit (e : BitEncoder) (o : ByteOut) :
    (e.load o).sendBit =
      ⟨o.byte >>> 1, 7, onesAfter (o.byte.getLsbD 0) e.ones, o.st, nrzi (o.byte.getLsbD 0) e.level⟩ := by
  rw [BitEncoder.load, BitEncoder.sendBit, show 8#4 - 1#4 = 7 by decide]

theorem BitEncoder.ok_load {e : BitEncoder} (hok : e.ok = true) (hp : e.stuffPending = false) (hb : e.bl = 0) {o : ByteOut}
    (ho : o.st = false → o.byte = Config.flagByte) : (e.load o).sendBit.ok = true := by
  have h4 := BitEncoder.ones_le_four hok hp (.inr hb)
  rw [BitEncoder.load_sendBit]
  cases hst : o.st with
  | true =>
    have hones := onesAfter_le_succ (o.byte.getLsbD 0) e.ones
    have hbyte := o.byte.isLt
    refine (BitEncoder.ok_iff_of_stuff rfl).2 ⟨by simp, ?_, ?_⟩
    · show (onesAfter (o.byte.getLsbD 0) e.ones).toNat ≤ 5
      omega
    · show (o.byte >>> 1).toNat < 2 ^ 7
      rw [BitVec.toNat_ushiftRight, Nat.shiftRight_eq_div_pow]
      omega
  | false =>
    rw [ho hst]
    exact (BitEncoder.ok_iff_of_flag rfl).2 ⟨by simp, rfl, rfl⟩

theorem BitArm.ok {s : State} {o : BitOut} {f : FrameFsm} {e : BitEncoder} (h : BitArm s o f e) (hok : s.enc.ok = true) :
    e.ok = true := by
  cases h with
  | stuffed hp => exact BitEncoder.ok_insertStuffed hok hp
  | unsent hp hb => exact BitEncoder.ok_sendBit hok hp hb
  | loaded hp hb b f ha => exact BitEncoder.ok_load hok hp hb ha.byte_eq_flag

theorem Effect.enc_ok {s t : State} {i : Instr} (h : Effect s i t) (hok : s.enc.ok = true) : t.enc.ok = true := by
  rcases h.enc_cases with he | ⟨-, level, he⟩ | ⟨-, o, f, ha⟩
  · rw [he, hok]
  · rw [he, BitEncoder.ok_reset]
  · exact ha.ok hok

/-! ### The RTTY FSM -/

/-- Where a running message stands, by R_STATE (R38, R224-R228). -/
def RttyFsm.placed (r : RttyFsm) : Prop :=
  match r.state with
  | .idle => r.cidx = 0#9 ∧ r.bidx = 0#3
  | .start | .stop1 | .stop2 => r.idleLeft = 0#16 ∧ r.bidx = 0#3
  | .character => r.idleLeft = 0#16 ∧ r.bidx.toNat ≤ 6

/-- The invariant of a running message. -/
theorem RttyFsm.ok_iff_of_running {r : RttyFsm} (hf : r.fin = false) :
    r.ok = true ↔ r.len.toNat ≤ 256 ∧ r.cidx.toNat < r.len.toNat ∧ r.placed := by
  have hpos : r.cidx.toNat < r.len.toNat → 0 < r.len.toNat := Nat.zero_lt_of_lt
  have h256 : decide (r.len.toNat ≤ Config.msgLen) = true ↔ r.len.toNat ≤ 256 := decide_eq_true_iff
  cases hs : r.state <;>
    simp only [RttyFsm.ok, RttyFsm.placed, hf, hs, Bool.and_eq_true, h256, decide_eq_true_iff, beq_iff_eq,
      Bool.false_eq_true, if_false] <;> tauto

theorem RttyFsm.ok_reset : RttyFsm.reset.ok = true := rfl

theorem startMessage_ok {s : State} (hl : s.rttyLenOk = true) : s.startMessage.rtty.ok = true := by
  obtain ⟨h1, h256⟩ := (rttyLenOk_iff s).1 hl
  exact (RttyFsm.ok_iff_of_running rfl).2 ⟨h256, h1, rfl, rfl⟩

/-- R224-R228: an arm keeps a running message in its place, or finishes it with every character counted. -/
theorem RttyArm.ok {s : State} {b : Bool} {r : RttyFsm} (h : RttyArm s b r) (hf : s.rtty.fin = false)
    (hok : s.rtty.ok = true) : r.ok = true := by
  obtain ⟨h256, hlt, hplace⟩ := (RttyFsm.ok_iff_of_running hf).1 hok
  cases h with
  | idleBit hs hi =>
    simp only [RttyFsm.placed, hs] at hplace
    obtain ⟨h0, hb0⟩ := hplace
    refine (RttyFsm.ok_iff_of_running (by exact hf)).2 ⟨h256, hlt, ?_⟩
    split
    · next hleft => exact ⟨hleft, hb0⟩
    · exact ⟨h0, hb0⟩
  | startBit v hs hv =>
    refine (RttyFsm.ok_iff_of_running (by exact hf)).2 ⟨h256, hlt, ?_, Nat.zero_le 6⟩
    rcases hs with hs | ⟨-, hi⟩
    · simp only [RttyFsm.placed, hs] at hplace
      exact hplace.1
    · exact hi
  | dataBit hs =>
    simp only [RttyFsm.placed, hs] at hplace
    obtain ⟨hl0, h6⟩ := hplace
    rcases s.rtty.afterDataBit_cases with ⟨-, he⟩ | ⟨hne, he⟩ <;> rw [he]
    · exact (RttyFsm.ok_iff_of_running (by exact hf)).2 ⟨h256, hlt, hl0, rfl⟩
    · refine (RttyFsm.ok_iff_of_running (by exact hf)).2 ⟨h256, hlt, ?_⟩
      simp only [RttyFsm.placed, hs]
      exact ⟨hl0, by bv_omega⟩
  | firstStop hs =>
    simp only [RttyFsm.placed, hs] at hplace
    exact (RttyFsm.ok_iff_of_running (by exact hf)).2 ⟨h256, hlt, hplace⟩
  | secondStop hs =>
    simp only [RttyFsm.placed, hs] at hplace
    obtain ⟨hl0, hb0⟩ := hplace
    rcases s.rtty.afterStop2_cases with ⟨hmore, he⟩ | ⟨hlast, he⟩ <;> rw [he]
    · exact (RttyFsm.ok_iff_of_running (by exact hf)).2 ⟨h256, by bv_omega, hl0, hb0⟩
    · have hlen : s.rtty.cidx + 1 = s.rtty.len := by bv_omega
      rw [hlen]
      simp [RttyFsm.ok, Config.msgLen, h256, hl0, hb0]

theorem State.rtty_fin_of_call {s : State} {i : Instr} (hc : RttyCall s i) (hs : s.schedOk = true) :
    s.rtty.fin = false := by
  rcases hc with ⟨-, -, hf⟩ | ⟨-, hm⟩
  · exact hf
  · simp [State.schedOk, hm] at hs
    exact hs.2.2

theorem Effect.rtty_ok {s t : State} {i : Instr} (h : Effect s i t) (hok : s.rtty.ok = true) (hs : s.schedOk = true) :
    t.rtty.ok = true := by
  rcases h.rtty_cases with he | ⟨-, hl, he⟩ | ⟨-, he⟩ | ⟨hc, b, ha⟩
  · rw [he, hok]
  · rw [he, startMessage_ok hl]
  · rw [he, RttyFsm.ok_reset]
  · exact ha.ok (State.rtty_fin_of_call hc hs) hok

/-! ### The scheduler -/

/-- R253-R256: DIV is a count of a baud, and a running transmission is not at its end, with DONE = 0. -/
theorem State.schedOk_iff (s : State) :
    s.schedOk = true ↔ s.div.toNat < 22 ∧ (s.mode = .aprs → s.done = false ∧ s.aprsEnd = false) ∧
      (s.mode = .rtty → s.done = false ∧ s.rtty.fin = false) := by
  have hdiv : decide (s.div.toNat < Config.samplesPerBaud) = true ↔ s.div.toNat < 22 := decide_eq_true_iff
  cases hm : s.mode <;> simp [State.schedOk, hm, hdiv]

/-- What the scheduler's condition reads; clearing DONE keeps it. -/
theorem State.schedOk_congr {s t : State} (h : s.schedOk = true) (hd : t.div = s.div) (hm : t.mode = s.mode)
    (hax : t.ax = s.ax) (henc : t.enc = s.enc) (hr : t.rtty = s.rtty) (hdone : t.done = s.done ∨ t.done = false) :
    t.schedOk = true := by
  obtain ⟨hdiv, haprs, hrtty⟩ := s.schedOk_iff.1 h
  have hend : t.aprsEnd = s.aprsEnd := by rw [State.aprsEnd, State.aprsEnd, hax, henc]
  have hdone' : s.done = false → t.done = false := fun h0 => hdone.elim (fun he => he.trans h0) id
  rw [State.schedOk_iff, hd, hm, hr, hend]
  exact ⟨hdiv, fun ha => (haprs ha).imp_left hdone', fun hr => (hrtty hr).imp_left hdone'⟩

theorem storeReg_done {s t : State} {d : Word} {l : Location} (h : s.storeReg d l = some t) :
    t.done = s.done ∨ t.done = false := by
  rcases storeReg_cases h with ⟨-, rfl⟩ | ⟨-, rfl⟩ | ⟨-, c, sf, ef, ri, rl, rfl, -⟩
  · exact .inl rfl
  · rw [clearStatus_done]
    split
    · exact .inr rfl
    · exact .inl rfl
  · exact .inl rfl

/-- In IDLE only DIV is constrained. -/
theorem State.schedOk_of_idle {s : State} (hm : s.mode = .idle) (hd : s.div.toNat < 22) : s.schedOk = true := by
  rw [State.schedOk_iff]
  simp [hm, hd]

theorem aprsEnd_of_unfinished {s : State} (h : s.ax.finished = false) : s.aprsEnd = false := by
  simp [State.aprsEnd, h]

theorem Effect.schedOk {s t : State} {i : Instr} (h : Effect s i t) (hok : s.schedOk = true) : t.schedOk = true := by
  obtain ⟨hdiv, haprs, hrtty⟩ := s.schedOk_iff.1 hok
  cases h with
  | ax25Reset hm | nextByte hm | nextBit hm | rttyInit hm | rttyBit hm =>
    exact State.schedOk_of_idle hm hdiv
  | startAprs hm =>
    rw [State.schedOk_iff]
    exact ⟨by simp, fun _ => ⟨rfl, aprsEnd_of_unfinished rfl⟩, nofun⟩
  | startRtty hm hl =>
    rw [State.schedOk_iff]
    exact ⟨hdiv, nofun, fun _ => ⟨rfl, rfl⟩⟩
  | sampleCounted hm hne =>
    rw [State.schedOk_iff]
    exact ⟨by bv_omega, haprs, hrtty⟩
  | baudEvent hm hd o f e h u hu =>
    have hdone := (haprs hm).1
    have hu0 : u.div = 0 ∧ u.mode = .aprs ∧ u.done = false := by rw [hu]; exact ⟨rfl, hm, hdone⟩
    split
    · exact State.schedOk_of_idle rfl (by simp [hu0.1])
    · next hend =>
      rw [State.schedOk_iff]
      exact ⟨by simp [hu0.1], fun _ => ⟨hu0.2.2, Bool.eq_false_iff.2 hend⟩, fun hr => by simp [hu0.2.1] at hr⟩
  | baudTick hm b r h u hu =>
    have hdone := (hrtty hm).1
    have hu0 : u.div = s.div ∧ u.mode = .rtty ∧ u.done = false := by rw [hu]; exact ⟨rfl, hm, hdone⟩
    split
    · exact State.schedOk_of_idle rfl (by simp [hu0.1, hdiv])
    · next hend =>
      rw [State.schedOk_iff]
      exact ⟨by simp [hu0.1, hdiv], fun ha => by simp [hu0.2.1] at ha, fun _ => ⟨hu0.2.2, Bool.eq_false_iff.2 hend⟩⟩
  | storeReg a d _ h =>
    have he := storeReg_frame h
    exact State.schedOk_congr hok (by rw [he]) (by rw [he]) (by rw [he]) (by rw [he]) (by rw [he]) (storeReg_done h)
  | hwReset => rfl
  | _ => exact State.schedOk_congr hok rfl rfl rfl rfl rfl (.inl rfl)

/-! ### The flag counts and the error record -/

theorem State.recordOk_iff (s : State) :
    s.recordOk = true ↔ s.startFlags ≠ 0 ∧ s.endFlags ≠ 0 ∧ (s.err = true ↔ s.errCause ≠ .none) := by
  rw [State.recordOk, Bool.and_eq_true, Bool.and_eq_true, bne_iff_ne, bne_iff_ne, beq_iff_eq, Bool.eq_iff_iff,
    decide_eq_true_iff, and_assoc]
  rfl

/-- R285: a count of 0 is never stored. -/
theorem legalFlags_ne_zero (d : Word) : legalFlags d ≠ 0 := by
  unfold legalFlags
  split
  · decide
  · next h => exact h

/-- R32, R33: the flag counts are kept, stored as legal counts, or reset. -/
theorem Effect.flags_ne_zero {s t : State} {i : Instr} (h : Effect s i t) (hs : s.startFlags ≠ 0) (he : s.endFlags ≠ 0) :
    t.startFlags ≠ 0 ∧ t.endFlags ≠ 0 := by
  cases h with
  | storeReg a d _ h =>
    rcases storeReg_cases h with ⟨-, rfl⟩ | ⟨-, rfl⟩ | ⟨-, c, sf, ef, ri, rl, rfl, hsf, hef⟩
    · exact ⟨hs, he⟩
    · rw [clearStatus_startFlags, clearStatus_endFlags]
      exact ⟨hs, he⟩
    · refine ⟨?_, ?_⟩
      · rcases hsf with rfl | rfl
        · exact hs
        · exact legalFlags_ne_zero d
      · rcases hef with rfl | rfl
        · exact he
        · exact legalFlags_ne_zero d
  | baudEvent hm hd o f e h u hu => rw [endTransmission_if, hu]; exact ⟨hs, he⟩
  | baudTick hm b r h u hu => rw [endTransmission_if, hu]; exact ⟨hs, he⟩
  | hwReset => simp [State.reset]
  | _ => exact ⟨hs, he⟩

/-- R301, R302, R310: a cause is held exactly while ERR is 1. -/
theorem exec_err_iff {i : Instr} {s t : State} (h : exec i s = .next t) (hs : s.err = true ↔ s.errCause ≠ .none) :
    t.err = true ↔ t.errCause ≠ .none := by
  rcases exec_record_cases h with ⟨c, hc, rfl⟩ | ⟨hclear, -⟩ | ⟨herr, hcause⟩
  · have hcause : (s.recordError c).errCause ≠ .none := by
      rw [recordError_errCause]
      split
      · next herr => exact hs.1 herr
      · exact hc.cause_ne_none
    exact ⟨fun _ => hcause, fun _ => rfl⟩
  · obtain ⟨u, hu, herr, hcause⟩ := errorRecordHoldsUntilCleared.1 i s hclear
    rw [next_inj (hu.symm.trans h), herr, hcause]
    exact ⟨nofun, fun hne => absurd rfl hne⟩
  · rw [herr, hcause, hs]

theorem exec_recordOk {i : Instr} {s t : State} (h : exec i s = .next t) (hok : s.recordOk = true) : t.recordOk = true := by
  obtain ⟨hsf, hef, hr⟩ := s.recordOk_iff.1 hok
  obtain ⟨hsf', hef'⟩ := (exec_effect h).flags_ne_zero hsf hef
  exact t.recordOk_iff.2 ⟨hsf', hef', exec_err_iff h hr⟩

/-! ### Memory -/

/-- R40: memory stays canonical, as a write at a buffer location keeps it so. -/
theorem Effect.mem_wf {s t : State} {i : Instr} (h : Effect s i t) (hwf : Memory.wf s.mem = true) :
    Memory.wf t.mem = true := by
  rcases h.mem_cases with he | ⟨-, he⟩ | ⟨a, d, b, k, -, -, ha, rfl⟩
  · rw [he, hwf]
  · rw [he]
    rfl
  · exact wf_hostWriteBuf hwf ha

/-! ### The obligations -/

theorem inv_of_exec {i : Instr} {s t : State} (hs : s.Inv) (h : exec i s = .next t) : t.Inv := by
  obtain ⟨hmem, hax, henc, hrtty, hsched, hrec⟩ := hs
  have he := exec_effect h
  exact ⟨he.mem_wf hmem, he.ax_ok hax, he.enc_ok henc, he.rtty_ok hrtty hsched, he.schedOk hsched, exec_recordOk h hrec⟩

/-- No condition of the invariant reads the pending operations. -/
theorem inv_with_inputs {s : State} (hs : s.Inv) (rest : List Input) : State.Inv { s with inputs := rest } := hs

/-- A step holds the state, or carries out one operation on the state with its input taken off. -/
theorem step_next_cases {s t : State} (h : step s = .next t) :
    t = s ∨ ∃ i rest, exec i { s with inputs := rest } = .next t := by
  cases hin : s.inputs with
  | nil => exact .inl (next_inj ((step_of_inputs_nil hin).symm.trans h))
  | cons w rest =>
    cases hw : decode w with
    | ok i => exact .inr ⟨i, rest, (step_of_decode_ok hin hw).symm.trans h⟩
    | error e =>
      cases e
      rw [(decoderReadsCanonicalOperations.2 w).1 hw] at hin
      rw [step_of_reservedEvent hin] at h
      cases h

/-- Settles O60: the six conditions, each by the part of the state that an effect changes. -/
theorem everyStepKeepsTheInvariant : Obligations.EveryStepKeepsTheInvariant := by
  intro s t hs h
  rcases step_next_cases h with rfl | ⟨i, rest, hexec⟩
  · exact hs
  · exact inv_of_exec (inv_with_inputs hs rest) hexec

/-- Settles O59: the reset state is a closed term, and each condition evaluates on it. -/
theorem invariantHoldsAtReset : Obligations.InvariantHoldsAtReset :=
  ⟨rfl, FrameFsm.ok_reset, BitEncoder.ok_reset false, RttyFsm.ok_reset, rfl, rfl⟩

/-- R228 under the invariant: Stop2 ends the message only on its last character. -/
theorem State.last_character_of_inv {s : State} (hs : s.Inv) (hst : s.rtty.state = .stop2)
    (hle : s.rtty.len ≤ s.rtty.cidx + 1) : s.rtty.cidx.toNat + 1 = s.rtty.len.toNat := by
  obtain ⟨-, -, -, hok, -, -⟩ := hs
  cases hf : s.rtty.fin with
  | true => simp [RttyFsm.ok, hf, hst] at hok
  | false =>
    obtain ⟨h256, hlt, -⟩ := (RttyFsm.ok_iff_of_running hf).1 hok
    bv_omega

/-- Settles O34: a change of R_STATE is a start, a reset, or an arm of the producer, whose moves are
`RttyArm.state_cases`; within Character every call counts. -/
theorem rttyStateMovesAlongItsCycle : Obligations.RttyStateMovesAlongItsCycle := by
  intro i s t h
  have he := exec_effect h
  refine ⟨fun hne => ?_, fun hs ht => ?_⟩
  · rcases he.rtty_cases with hk | ⟨hi, -⟩ | ⟨hi, -⟩ | ⟨hc, b, ha⟩
    · exact absurd (by rw [hk]) hne
    · simp only [List.mem_cons, List.not_mem_nil, or_false] at hi ⊢
      tauto
    · simp [hi]
    · refine .inr ⟨by rcases hc with ⟨hi, -⟩ | ⟨hi, -⟩ <;> simp [hi], ?_⟩
      refine (ha.state_cases hne).imp_right <| .imp_right <| .imp_right <| .imp_right <| .imp_right <| .imp_right ?_
      exact fun ⟨hst, hle, hidle, hfin⟩ =>
        ⟨hst, hle, hidle, hfin, fun hinv => State.last_character_of_inv hinv hst hle⟩
  · by_cases hc : RttyCall s i.canon
    · obtain ⟨b, ha⟩ := he.rttyArm_of_call hc
      rw [if_pos hc, ha.eq_of_character hs ht]
    · rw [if_neg hc]
      rcases he.rtty_cases with hk | ⟨-, -, hr⟩ | ⟨-, hr⟩ | ⟨hc', -⟩
      · exact hk
      · rw [hr] at ht
        cases ht
      · rw [hr] at ht
        cases ht
      · exact absurd hc' hc

end Sys2Proof.Machine
end

section
/-! PROOFS. The algebra of the CRC and the base-91 codec (40_crc16.md R130, R131; 41_base91.md R143-R146). -/

open Sys2Proof.Spec

namespace Sys2Proof.Machine

/-! ### The CRC is linear -/

/-- What one step feeds back (R121). -/
def crcFeedback (b : Bool) : BitVec 16 := if b then Config.crcPoly else 0

theorem crcBit_eq_xor (s : BitVec 16) (b : Bool) : crcBit s b = s >>> 1 ^^^ crcFeedback (s.getLsbD 0 ^^ b) := by
  rw [crcBit, crcFeedback, Bool.bne_eq_xor]
  cases s.getLsbD 0 ^^ b <;> simp

theorem crcFeedback_xor (b d : Bool) : crcFeedback (b ^^ d) = crcFeedback b ^^^ crcFeedback d := by
  cases b <;> cases d <;> simp [crcFeedback]

/-- One step of the CRC is linear in the register and the data bit together. -/
theorem crcBit_xor (s t : BitVec 16) (b d : Bool) : crcBit (s ^^^ t) (b ^^ d) = crcBit s b ^^^ crcBit t d := by
  simp only [crcBit_eq_xor, BitVec.ushiftRight_xor_distrib, BitVec.getLsbD_xor, crcFeedback_xor]
  ac_rfl

theorem crcByte_xor (s t : BitVec 16) (x y : Byte) : crcByte (s ^^^ t) (x ^^^ y) = crcByte s x ^^^ crcByte t y := by
  simp only [crcByte, List.foldl_cons, List.foldl_nil, BitVec.getLsbD_xor, crcBit_xor]

/-- A register fed its own low bit shifts out with no feedback. -/
theorem crcBit_self (s : BitVec 16) : crcBit s (s.getLsbD 0) = s >>> 1 := by
  simp [crcBit]

/-- A register fed its own low byte shifts it out. -/
theorem crcByte_self (s : BitVec 16) : crcByte s (s.extractLsb' 0 8) = s >>> 8 := by
  have hbit : ∀ k, crcBit (s >>> k) (s.getLsbD k) = s >>> (k + 1) := by
    intro k
    have h0 : (s >>> k).getLsbD 0 = s.getLsbD k := by simp
    rw [← h0, crcBit_self, BitVec.shiftRight_add]
  have hbyte : ∀ i, i < 8 → (s.extractLsb' 0 8).getLsbD i = s.getLsbD i := fun i hi => by simp [hi]
  simp only [crcByte, List.foldl_cons, List.foldl_nil, hbyte, Nat.reduceLT]
  have h0 := hbit 0
  rw [BitVec.ushiftRight_zero] at h0
  rw [h0, hbit, hbit, hbit, hbit, hbit, hbit, hbit]

/-! ### Folding -/

theorem crcFold_append (c : BitVec 16) (xs ys : List Byte) : crcFold (crcFold c xs) ys = crcFold c (xs ++ ys) :=
  List.foldl_append.symm

/-- Two bytes, low byte first, that clear a register fed them: the register's own. -/
theorem crcFold_self (c : BitVec 16) : crcFold c [c.extractLsb' 0 8, c.extractLsb' 8 8] = 0#16 := by
  have hhigh : c.extractLsb' 8 8 = (c >>> 8).extractLsb' 0 8 := by
    apply BitVec.eq_of_getLsbD_eq
    intro i hi
    simp [hi]
  rw [crcFold, List.foldl_cons, List.foldl_cons, List.foldl_nil, crcByte_self, hhigh, crcByte_self]
  rw [← BitVec.shiftRight_add]
  exact BitVec.ushiftRight_eq_zero (Nat.le_refl 16)

/-- R131: the complement of the register, low byte first, leaves the residue of two bytes of 1s, whatever the register. -/
theorem crcFold_complement (c : BitVec 16) :
    crcFold c [(~~~c).extractLsb' 0 8, (~~~c).extractLsb' 8 8] = 0xF0B8 := by
  have hbyte : ∀ k, k + 8 ≤ 16 → (~~~c).extractLsb' k 8 = c.extractLsb' k 8 ^^^ BitVec.allOnes 8 := by
    intro k hk
    apply BitVec.eq_of_getLsbD_eq
    intro i hi
    have hki : k + i < 16 := by omega
    simp only [BitVec.getLsbD_xor, BitVec.getLsbD_allOnes, BitVec.getLsbD_extractLsb', BitVec.getLsbD_not, hi, hki,
      decide_true, Bool.true_and, Bool.xor_true]
  have hones : crcFold 0#16 [BitVec.allOnes 8, BitVec.allOnes 8] = 0xF0B8 := by decide +kernel
  have hself := crcFold_self c
  simp only [crcFold, List.foldl_cons, List.foldl_nil] at hones hself ⊢
  rw [hbyte 0 (by omega), hbyte 8 (by omega)]
  calc crcByte (crcByte c (c.extractLsb' 0 8 ^^^ BitVec.allOnes 8)) (c.extractLsb' 8 8 ^^^ BitVec.allOnes 8)
    _ = crcByte (crcByte (c ^^^ 0#16) (c.extractLsb' 0 8 ^^^ BitVec.allOnes 8))
          (c.extractLsb' 8 8 ^^^ BitVec.allOnes 8) := by rw [BitVec.xor_zero]
    _ = 0#16 ^^^ 0xF0B8 := by rw [crcByte_xor, crcByte_xor, hself, hones]
    _ = 0xF0B8 := BitVec.zero_xor

/-! ### Base-91 digits -/

/-- R140: a digit's character stands 33 above it, within one byte. -/
theorem b91Char_toNat {d : Nat} (h : d < 91) : (b91Char d).toNat = 33 + d := by
  rw [b91Char, Config.b91Offset, BitVec.toNat_ofNat]
  omega

theorem exec_b91Tlm (s : State) :
    exec .b91Tlm s = .next { s with
      result := packTwo (b91Char (s.arg16.toNat % 8281 / 91)) (b91Char (s.arg16.toNat % 8281 % 91)) } := rfl

theorem arg16_toNat (s : State) : s.arg16.toNat = s.arg.toNat % 65536 := by
  simp [State.arg16]

/-- R142, R144: a value below 91⁴ is encoded. -/
theorem exec_b91Latlon_of_lt_limit {s : State} (h : s.arg.toNat < 68574961) :
    exec .b91Latlon s = .next { s with
      result := packFour (b91Char (s.arg.toNat / 753571)) (b91Char (s.arg.toNat / 8281 % 91))
        (b91Char (s.arg.toNat / 91 % 91)) (b91Char (s.arg.toNat % 91)) } :=
  if_neg (Nat.not_le.2 h)

/-! ### The obligations -/

/-- Settles O15: folding is `List.foldl`, and CRC_HDR leaves the buffers as CRC_INFO reads them. -/
theorem crcChainsHeaderThenInfo : Obligations.CrcChainsHeaderThenInfo := by
  refine ⟨crcFold_append, fun s hs xs hhl hxl hh hx => ?_⟩
  have hinfo : State.Holds { s with crc := crcFold s.crc hs } .info xs := hx
  rw [execList_cons_next (exec_crcHdr s ▸ crcOverBuf_of_bytes (needBuf_of_holds hhl hh)),
    execList_cons_next (exec_crcInfo _ ▸ crcOverBuf_of_bytes (needBuf_of_holds hxl hinfo)), execList_nil, crcFold_append]

/-- Settles O16: by linearity the fold over a register's complement is a constant. -/
theorem receiverFindsConstantResidue : Obligations.ReceiverFindsConstantResidue := by
  intro s t hs xs hm hhl hxl hh hx hswap h
  rw [exec_fcsCompute_idle hm, computeFcs_of_bytes (needBuf_of_holds hhl hh) (needBuf_of_holds hxl hx)] at h
  obtain rfl := next_inj h
  simp only [State.fcsFirst, State.fcsSecond, State.fcsSwap, hswap, Bool.false_eq_true, if_false]
  rw [← crcFold_append, ← crcFold_append, Config.crcInit]
  exact crcFold_complement _

/-- Settles O17: the digits of ARG[15:0] % 8281 in base 91. -/
theorem telemetryFieldDecodesToItsValue : Obligations.TelemetryFieldDecodesToItsValue := by
  refine ⟨encodes_of_mem_commands (r := (0x10, .b91Tlm, true)) (by decide), fun s => ⟨_, _, exec_b91Tlm s, ?_⟩⟩
  rw [b91Char_toNat (by omega), b91Char_toNat (by omega), arg16_toNat]
  omega

/-- Settles O18: the digits of ARG in base 91, and the range test before them. -/
theorem latlonFieldDecodesToItsValue : Obligations.LatlonFieldDecodesToItsValue := by
  refine ⟨encodes_of_mem_commands (r := (0x11, .b91Latlon, true)) (by decide),
    fun s => exec_b91Latlon_of_limit_le, fun s h => ⟨_, _, _, _, exec_b91Latlon_of_lt_limit h, ?_, ?_⟩⟩
  · simp only [List.forall_mem_cons, List.not_mem_nil, false_implies, implies_true, and_true]
    rw [b91Char_toNat (by omega), b91Char_toNat (by omega), b91Char_toNat (by omega), b91Char_toNat (by omega)]
    omega
  · rw [b91Char_toNat (by omega), b91Char_toNat (by omega), b91Char_toNat (by omega), b91Char_toNat (by omega)]
    omega

end Sys2Proof.Machine
end

section
/-! PROOFS. Reads on the host bus, reads after writes, and the busy rule as a whole (46_host_bus.md R288-R292;
20_memory.md R62-R73; 60_exceptions.md R304). -/

open Sys2Proof.Spec

namespace Sys2Proof.Machine

/-! ### The protected addresses -/

/-- The addresses of the buffers select their bytes (R62, R63). -/
theorem exists_location_buf {a : Addr} (h : BusyProtected a) (h100 : 0x100 ≤ a.toNat) :
    ∃ b k, k < Buf.size b ∧ location a = .buf b k := by
  have hb : ∃ b : Buf, b.base ≤ a.toNat ∧ a.toNat < b.base + 4 * b.size := by
    rcases h with h | h | h | h
    · omega
    · exact ⟨.hdr, h⟩
    · exact ⟨.info, h⟩
    · exact ⟨.msg, h⟩
  obtain ⟨b, hlo, hhi⟩ := hb
  have hbase : b.base % 4 = 0 := by cases b <;> rfl
  have hk : (a.toNat - b.base) / 4 < b.size := by omega
  exact ⟨b, _, hk, location_buf hk (by rw [Buf.addr]; omega)⟩

/-- A location that is no buffer byte and not unmapped stands in the register map. -/
theorem mem_registerMap_of_location {a : Addr} {l : Location} (h : location a = l) (hb : ∀ b k, l ≠ .buf b k)
    (hu : l ≠ .unmapped) : (a.toNat / 4 * 4, l) ∈ registerMap := by
  subst h
  rcases location_cases a with hr | ⟨b, k, he⟩ | he
  · exact hr
  · exact absurd he (hb b k)
  · exact absurd he hu

/-- R304: the locations that the busy rule protects, as ranges of addresses. -/
theorem busyProtected_iff {a : Addr} : (location a).busyProtected = true ↔ BusyProtected a := by
  constructor
  · intro h
    cases hl : location a with
    | config | startFlags | endFlags | rttyIdle | rttyLen =>
      have ho := mem_registerMap_of_location hl (by simp) (by simp)
      simp [registerMap] at ho
      omega
    | buf b k =>
      obtain ⟨hk, ha⟩ := location_eq_buf hl
      cases b <;> simp only [Buf.size, Buf.addr, Buf.base, Config.hdrLen, Config.infoLen, Config.msgLen] at hk ha <;> omega
    | cmd | arg | result | status | crc | fcs | dbgAx25 | dbgBitenc | dbgRtty | dbgSched | unmapped =>
      rw [hl] at h
      cases h
  · intro h
    by_cases h100 : 0x100 ≤ a.toNat
    · obtain ⟨b, k, -, hl⟩ := exists_location_buf h h100
      rw [hl]
      rfl
    · exact busyProtected_of_config_range (by omega) (by omega)

/-! ### What a read answers -/

theorem exec_busRead_of_value {a : Addr} {s : State} {v : Word} (h : s.readLocation (location a) = .ok v) :
    exec (.busRead a) s = .next { s with readData := v } := by
  rw [exec, execBusRead, h]
  rfl

theorem exec_busRead_register {a : Addr} {o : Nat} {l : Location} {s : State} {v : Word} (ha : Reaches a o)
    (hl : registerMap.lookup o = some l) (hv : s.readLocation l = .ok v) :
    exec (.busRead a) s = .next { s with readData := v } :=
  exec_busRead_of_value (by rw [location_reg ha hl, hv])

theorem exec_busRead_next {a : Addr} {s t : State} (h : exec (.busRead a) s = .next t) :
    ∃ v, s.readLocation (location a) = .ok v ∧ t = { s with readData := v } :=
  orFault_map_next h

theorem readLocation_buf_of_some {s : State} {b : Buf} {k : Nat} {v : Byte} (h : s.readBuf b k = some v) :
    s.readLocation (.buf b k) = .ok (v.setWidth 32) := by
  rw [State.readLocation, needByte_of_some h]
  rfl

theorem readLocation_buf_of_none {s : State} {b : Buf} {k : Nat} (h : s.readBuf b k = none) :
    s.readLocation (.buf b k) = .error (.uninit b k) := by
  rw [State.readLocation, needByte_of_none h]
  rfl

theorem exec_busRead_of_error {a : Addr} {s : State} {x : Fault} (h : s.readLocation (location a) = .error x) :
    exec (.busRead a) s = .fault x := by
  rw [exec, execBusRead, h]
  rfl

/-- R291, R312: only an unwritten buffer byte has no value. -/
theorem readLocation_cases (s : State) (l : Location) :
    (∃ v, s.readLocation l = .ok v) ∨ ∃ b k, s.readBuf b k = none ∧ s.readLocation l = .error (.uninit b k) := by
  cases l with
  | buf b k =>
    cases hb : s.readBuf b k with
    | some v => exact .inl ⟨_, readLocation_buf_of_some hb⟩
    | none => exact .inr ⟨b, k, hb, readLocation_buf_of_none hb⟩
  | _ => exact .inl ⟨_, rfl⟩

/-- The data read last is no part of what a location reads as (log entry 2). -/
theorem readLocation_with_readData (s : State) (v : Word) (l : Location) :
    State.readLocation { s with readData := v } l = s.readLocation l := by
  cases l <;> rfl

/-- Outside STATUS no location shows the error record. -/
theorem readLocation_recordError {s : State} {l : Location} (h : l.busyProtected = true) (c : ErrCause) :
    (s.recordError c).readLocation l = s.readLocation l := by
  cases l with
  | config | startFlags | endFlags | rttyIdle | rttyLen | buf => rfl
  | cmd | arg | result | status | crc | fcs | dbgAx25 | dbgBitenc | dbgRtty | dbgSched | unmapped => cases h

/-! ### The packed registers -/

theorem toNat_append_eq_add {n m : Nat} (x : BitVec n) (y : BitVec m) :
    (x ++ y).toNat = x.toNat * 2 ^ m + y.toNat := by
  rw [BitVec.toNat_append, ← Nat.shiftLeft_add_eq_or_of_lt y.isLt, Nat.shiftLeft_eq]

theorem eq_ofNat_of_toNat_eq {x : Word} {n : Nat} (h : x.toNat = n) : x = BitVec.ofNat 32 n := by
  rw [← h, BitVec.ofNat_toNat, BitVec.setWidth_eq]

theorem Mode.code_toNat (m : Mode) : m.code.toNat = modeNumber m := by cases m <;> rfl

theorem AxState.code_toNat (x : AxState) : x.code.toNat = axNumber x := by cases x <;> rfl

theorem RttyState.code_toNat (r : RttyState) : r.code.toNat = rttyNumber r := by cases r <;> rfl

theorem ErrCause.code_toNat (c : ErrCause) : c.code.toNat = causeNumber c := by cases c <;> rfl

/-- R24: STATUS by the weights of its fields. -/
theorem statusWord_toNat (s : State) :
    s.statusWord.toNat = (decide (s.mode ≠ .idle)).toNat + 2 * modeNumber s.mode + 8 * s.done.toNat +
      16 * s.ax.finished.toNat + 32 * s.rtty.fin.toNat + 64 * s.fcsStale.toNat + 128 * s.err.toNat +
      256 * causeNumber s.errCause := by
  simp only [State.statusWord, State.txActive, toNat_append_eq_add, BitVec.toNat_ofBool, Mode.code_toNat,
    ErrCause.code_toNat, BitVec.toNat_ofNat]
  omega

/-- R42: DBG_AX25 by the weights of its fields. -/
theorem dbgAx25_toNat (s : State) :
    s.dbgAx25.toNat = axNumber s.ax.state + 2 ^ 8 * s.ax.idx.toNat + 2 ^ 16 * s.ax.finished.toNat := by
  simp only [State.dbgAx25, toNat_append_eq_add, BitVec.toNat_ofBool, AxState.code_toNat, BitVec.toNat_ofNat]
  omega

/-- R43: DBG_BITENC by the weights of its fields. -/
theorem dbgBitenc_toNat (s : State) :
    s.dbgBitenc.toNat = s.enc.sr.toNat + 2 ^ 8 * s.enc.bl.toNat + 2 ^ 12 * s.enc.ones.toNat +
      2 ^ 16 * s.enc.stuff.toNat + 2 ^ 17 * s.enc.level.toNat := by
  simp only [State.dbgBitenc, toNat_append_eq_add, BitVec.toNat_ofBool, BitVec.toNat_ofNat]
  omega

/-- R44: DBG_RTTY by the weights of its fields. -/
theorem dbgRtty_toNat (s : State) :
    s.dbgRtty.toNat = rttyNumber s.rtty.state + 2 ^ 3 * s.rtty.bidx.toNat + 2 ^ 6 * s.rtty.cidx.toNat +
      2 ^ 15 * s.rtty.fin.toNat + 2 ^ 16 * s.rtty.idleLeft.toNat := by
  simp only [State.dbgRtty, toNat_append_eq_add, BitVec.toNat_ofBool, RttyState.code_toNat]
  omega

/-- R45: DBG_SCHED by the weights of its fields. -/
theorem dbgSched_toNat (s : State) :
    s.dbgSched.toNat = modeNumber s.mode + 2 ^ 8 * s.div.toNat + 2 ^ 16 * s.aux.toNat + 2 ^ 17 * s.sym.toNat := by
  simp only [State.dbgSched, toNat_append_eq_add, BitVec.toNat_ofBool, Mode.code_toNat, BitVec.toNat_ofNat]
  omega

/-! ### Writing twice -/

theorem Memory.write_write_same (m : Memory) (a : Nat) (v : Byte) : (m.write a v).write a v = m.write a v := by
  induction m with
  | nil => simp [Memory.write]
  | cons c m ih =>
    obtain ⟨b, w⟩ := c
    by_cases hlt : a < b
    · simp [Memory.write, hlt]
    · by_cases heq : a = b
      · simp [Memory.write, heq]
      · simp [Memory.write, hlt, heq, ih]

theorem hostWriteBuf_hostWriteBuf_same (s : State) (b : Buf) (k : Nat) (v : Byte) :
    (s.hostWriteBuf b k v).hostWriteBuf b k v = s.hostWriteBuf b k v := by
  simp only [State.hostWriteBuf, State.writeBuf, Memory.write_write_same]
  cases b <;> rfl

theorem clearStatus_clearStatus_same (s : State) (d : Word) : (s.clearStatus d).clearStatus d = s.clearStatus d := by
  rw [clearStatus_eq, clearStatus_eq]
  cases d.getLsbD 3 <;> cases d.getLsbD 7 <;> simp

/-- R73: a register write that stores something stores the same again. -/
theorem storeReg_same {s t : State} {d : Word} {l : Location} (h : s.storeReg d l = some t) : t.storeReg d l = some t := by
  cases l with
  | arg => cases h; rfl
  | status => cases h; exact congrArg some (clearStatus_clearStatus_same s d)
  | config | startFlags | endFlags | rttyIdle | rttyLen =>
    obtain ⟨hm, ht⟩ := Option.ite_none_right_eq_some.1 h
    cases ht
    exact if_pos hm
  | cmd | result | crc | fcs | dbgAx25 | dbgBitenc | dbgRtty | dbgSched | buf | unmapped => cases h

/-! ### A read after a write -/

theorem execList_write_read {a : Addr} {d v : Word} {s t : State} (hw : exec (.busWrite a d) s = .next t)
    (hr : t.readLocation (location a) = .ok v) :
    execList [.busWrite a d, .busRead a] s = .next { t with readData := v } := by
  rw [execList_cons_next hw, execList_cons_next (exec_busRead_of_value hr), execList_nil]

/-- A register written in IDLE or freely reads back what was stored. -/
theorem execList_store_read {a : Addr} {o : Nat} {l : Location} {d v : Word} {s t : State} (ha : Reaches a o)
    (hl : registerMap.lookup o = some l) (ht : s.storeReg d l = some t) (hr : t.readLocation l = .ok v) :
    ∃ u, execList [.busWrite a d, .busRead a] s = .next u ∧ u.readData = v :=
  ⟨_, execList_write_read (exec_busWrite_register ha hl ht) (by rw [location_reg ha hl, hr]), rfl⟩

/-- A field of the low bits of a word is the word masked. -/
theorem setWidth_extractLsb' (d : Word) (n : Nat) (hn : n ≤ 32) :
    (d.extractLsb' 0 n).setWidth 32 = d &&& BitVec.ofNat 32 (2 ^ n - 1) := by
  have hpow : 2 ^ n ≤ 2 ^ 32 := Nat.pow_le_pow_right (by omega) hn
  have hpos : 0 < 2 ^ n := Nat.two_pow_pos n
  have hmod : d.toNat % 2 ^ n < 2 ^ n := Nat.mod_lt _ hpos
  apply BitVec.eq_of_toNat_eq
  rw [BitVec.toNat_setWidth, BitVec.extractLsb'_toNat, Nat.shiftRight_zero, BitVec.toNat_and, BitVec.toNat_ofNat,
    Nat.mod_eq_of_lt (show 2 ^ n - 1 < 2 ^ 32 by omega), Nat.and_two_pow_sub_one_eq_mod, Nat.mod_eq_of_lt (by omega)]

/-- R285, R292: a flag count reads back as the low byte, or as 1. -/
theorem legalFlags_setWidth (d : Word) :
    (legalFlags d).setWidth 32 = if d &&& 0xFF#32 = 0 then 1 else d &&& 0xFF#32 := by
  have hbyte : (d.extractLsb' 0 8).setWidth 32 = d &&& 0xFF#32 := setWidth_extractLsb' d 8 (by omega)
  have h0 : d &&& 0xFF#32 = 0 ↔ d.extractLsb' 0 8 = 0#8 := by
    rw [← hbyte]
    refine ⟨fun h => ?_, fun h => by rw [h]; rfl⟩
    bv_omega
  rw [legalFlags]
  by_cases h : d.extractLsb' 0 8 = 0#8
  · rw [if_pos h, if_pos (h0.2 h)]
    rfl
  · rw [if_neg h, if_neg (mt h0.1 h), hbyte]

/-! ### Operations that MODE does not change -/

theorem needBytes_congr {s t : State} (h : t.mem = s.mem) (b : Buf) (i n : Nat) :
    t.needBytes b i n = s.needBytes b i n := by
  induction n generalizing i with
  | zero => rfl
  | succ n ih => simp only [State.needBytes, State.needByte, readBuf_congr h, ih]

theorem needBuf_congr {s t : State} (h : t.mem = s.mem) (b : Buf) : t.needBuf b = s.needBuf b :=
  needBytes_congr h b 0 b.size

/-- The answer of an operation in IDLE, with the mode put back (R304). -/
abbrev asInIdle (i : Instr) (s : State) : Result :=
  mapNext (fun t => { t with mode := s.mode }) (exec i { s with mode := .idle })

theorem crcOverBuf_asInIdle (b : Buf) (s : State) :
    crcOverBuf b s = mapNext (fun t => { t with mode := s.mode }) (crcOverBuf b { s with mode := .idle }) := by
  have hneed : State.needBuf { s with mode := .idle } b = s.needBuf b :=
    needBuf_congr (s := s) (t := { s with mode := .idle }) rfl b
  rw [crcOverBuf, crcOverBuf, hneed]
  cases s.needBuf b <;> rfl

theorem exec_b91Latlon_asInIdle (s : State) : exec .b91Latlon s = asInIdle .b91Latlon s := by
  by_cases h : s.arg.toNat < 68574961
  · rw [exec_b91Latlon_of_lt_limit h, asInIdle, exec_b91Latlon_of_lt_limit (s := { s with mode := .idle }) h]
    rfl
  · rw [asInIdle, exec_b91Latlon_of_limit_le (Nat.not_lt.1 h),
      exec_b91Latlon_of_limit_le (s := { s with mode := .idle }) (Nat.not_lt.1 h)]
    rfl

/-- R304: a busy-allowed command does in every mode what it does in IDLE. -/
theorem exec_busyAllowed_asInIdle (s : State) : ∀ r ∈ commands, r.2.2 = true → exec r.2.1 s = asInIdle r.2.1 s := by
  intro r hr hallowed
  have hi : r.2.1 ∈ crcCommands ++ [.b91Tlm, .b91Latlon] :=
    (by decide : ∀ r ∈ commands, r.2.2 = true → r.2.1 ∈ crcCommands ++ [.b91Tlm, .b91Latlon]) r hr hallowed
  generalize r.2.1 = i at hi
  simp only [crcCommands, List.cons_append, List.nil_append, List.mem_cons, List.not_mem_nil, or_false] at hi
  rcases hi with rfl | rfl | rfl | rfl | rfl | rfl
  · rfl
  · rfl
  · exact crcOverBuf_asInIdle .hdr s
  · exact crcOverBuf_asInIdle .info s
  · rfl
  · exact exec_b91Latlon_asInIdle s

/-- R304: the writes to ARG and STATUS are accepted in every mode. -/
theorem exec_freeWrite_asInIdle {a : Addr} (h : Reaches a 0x004 ∨ Reaches a 0x00C) (d : Word) (s : State) :
    exec (.busWrite a d) s = asInIdle (.busWrite a d) s := by
  rcases h with h | h
  · rw [asInIdle, exec_busWrite_register h rfl (s := { s with mode := .idle }) rfl,
      exec_busWrite_register h rfl (s := s) rfl]
    rfl
  · rw [asInIdle, exec_busWrite_register h rfl (s := { s with mode := .idle }) rfl,
      exec_busWrite_register h rfl (s := s) rfl, mapNext, clearStatus_eq, clearStatus_eq]

/-! ### The obligations -/

/-- Settles O9: the busy rule for commands and for writes, the errors that record BUSY, and the operations that MODE does
not change. -/
theorem busyRuleRefusesExactlyTheListedOperations : Obligations.BusyRuleRefusesExactlyTheListedOperations := by
  refine ⟨fun s hm => ⟨fun r hr hb => ?_, fun a d hp => ?_⟩, fun i s t h h0 h1 hcause => ?_, fun i s hi => ?_,
    fun a s => ?_⟩
  · exact exec_idleCommand_busy (mem_idleCommands_of_mem_commands r hr hb) hm
  · exact exec_busWrite_busy (busyProtected_iff.2 hp) hm d
  · obtain ⟨c, hc, rfl⟩ := raisesError_of_err h h0 h1
    obtain rfl : c = .busy := by simpa [h0] using hcause
    generalize hj : i.canon = j at hc
    cases hc with
    | busyCommand _ hmem hm =>
      have hcmd : ∀ j ∈ idleCommands, ∃ r ∈ commands, r.2.2 = false ∧ j = r.2.1 := by decide
      exact ⟨hm, .inl (hcmd j hmem)⟩
    | busyWrite a d hp hm => exact ⟨hm, .inr ⟨a, d, eq_of_canon hj (by simp), busyProtected_iff.1 hp⟩⟩
  · rcases hi with ⟨r, hr, hb, rfl⟩ | ⟨a, d, rfl, ha⟩
    · exact exec_busyAllowed_asInIdle s r hr hb
    · exact exec_freeWrite_asInIdle ha d s
  · rcases readLocation_cases s (location a) with ⟨v, hv⟩ | ⟨b, k, hn, hx⟩
    · exact .inl ⟨v, exec_busRead_of_value hv⟩
    · exact .inr ⟨b, k, hn, exec_busRead_of_error hx⟩

/-- Settles O47: each register by its location, the packed ones by the weights of their fields. -/
theorem registerReadsReturnTheirFields : Obligations.RegisterReadsReturnTheirFields := by
  intro s a p hp
  refine ⟨fun ha => ?_, fun hu => exec_busRead_of_value (by rw [location_unmapped hu]; rfl)⟩
  suffices h : ∃ l v, registerMap.lookup p.1 = some l ∧ s.readLocation l = .ok v ∧ v.toNat = p.2 by
    obtain ⟨l, v, hl, hv, hn⟩ := h
    rw [exec_busRead_register ha hl hv, eq_ofNat_of_toNat_eq hn]
  have hwide : ∀ {n : Nat} (x : BitVec n), n ≤ 32 → (x.setWidth 32).toNat = x.toNat := fun x hn =>
    BitVec.toNat_setWidth_of_le hn
  simp only [List.mem_cons, List.not_mem_nil, or_false] at hp
  rcases hp with rfl | rfl | rfl | rfl | rfl | rfl | rfl | rfl | rfl | rfl | rfl | rfl | rfl | rfl | rfl
  · exact ⟨.cmd, _, rfl, rfl, rfl⟩
  · exact ⟨.arg, _, rfl, rfl, rfl⟩
  · exact ⟨.result, _, rfl, rfl, rfl⟩
  · exact ⟨.status, _, rfl, rfl, statusWord_toNat s⟩
  · exact ⟨.crc, _, rfl, rfl, hwide s.crc (by omega)⟩
  · exact ⟨.fcs, _, rfl, rfl, hwide s.fcs (by omega)⟩
  · exact ⟨.config, _, rfl, rfl, hwide s.config (by omega)⟩
  · exact ⟨.startFlags, _, rfl, rfl, hwide s.startFlags (by omega)⟩
  · exact ⟨.endFlags, _, rfl, rfl, hwide s.endFlags (by omega)⟩
  · exact ⟨.rttyIdle, _, rfl, rfl, hwide s.rttyIdle (by omega)⟩
  · exact ⟨.rttyLen, _, rfl, rfl, hwide s.rttyLen (by omega)⟩
  · exact ⟨.dbgAx25, _, rfl, rfl, dbgAx25_toNat s⟩
  · exact ⟨.dbgBitenc, _, rfl, rfl, dbgBitenc_toNat s⟩
  · exact ⟨.dbgRtty, _, rfl, rfl, dbgRtty_toNat s⟩
  · exact ⟨.dbgSched, _, rfl, rfl, dbgSched_toNat s⟩

/-- Settles O48: the address selects byte k of the buffer, which reads as its byte or faults. -/
theorem bufferReadsZeroExtendOrFault : Obligations.BufferReadsZeroExtendOrFault := by
  intro s a b k hk ha
  have hl : location a = .buf b k := location_buf hk (ha.trans (by cases b <;> rfl))
  refine ⟨fun v hv => ?_, fun hn => ?_⟩
  · rw [BitVec.ofNat_toNat]
    exact exec_busRead_of_value (by rw [hl, readLocation_buf_of_some hv])
  · exact exec_busRead_of_error (by rw [hl, readLocation_buf_of_none hn])

/-- Settles O50: a read writes the read data alone, which it does not read; a write outside CMD stores the same again, or
records an error that is already recorded. -/
theorem accessesOutsideCmdAreIdempotent : Obligations.AccessesOutsideCmdAreIdempotent := by
  refine fun s t a d => ⟨fun h => ?_, fun ha h => ?_⟩
  · obtain ⟨v, hv, rfl⟩ := exec_busRead_next h
    exact ⟨rfl, exec_busRead_of_value (by rw [readLocation_with_readData, hv])⟩
  · have hcmd : location a ≠ .cmd := fun hl => ha (by have := location_eq_cmd hl; omega)
    cases effect_busWrite hcmd h with
    | illegalCmd _ _ hl => exact absurd hl hcmd
    | busyCommand _ hi => simp at hi
    | rttyLen _ hi => simp at hi
    | crc _ hi => simp at hi
    | base91 _ hi => simp at hi
    | busyWrite _ _ hp hm => rw [exec_busWrite_busy hp (s := s.recordError .busy) hm d, recordError_of_err rfl]
    | storeReg _ _ _ hst => exact exec_busWrite_of_storeReg (storeReg_same hst)
    | storeBuf _ _ b k hl hm =>
      rw [exec_busWrite_buf hl (s := s.hostWriteBuf b k (d.extractLsb' 0 8)) hm d, hostWriteBuf_hostWriteBuf_same]
    | ignoredWrite _ _ hl => exact exec_busWrite_ignored hl d s

/-- Settles O53: each location's own store and its own read; outside IDLE the refused write leaves what the read answers. -/
theorem readAfterWriteReturnsMaskedData : Obligations.ReadAfterWriteReturnsMaskedData := by
  refine fun s a d => ⟨fun ha => ?_, fun hm p hp ha => ?_, fun hm ha => ?_, fun hm hp h100 => ?_, fun hm hp u hu => ?_⟩
  · exact execList_store_read ha rfl rfl rfl
  · simp only [List.mem_cons, List.not_mem_nil, or_false] at hp
    rcases hp with rfl | rfl | rfl
    · exact execList_store_read ha rfl (if_pos hm) (congrArg Except.ok (setWidth_extractLsb' d 3 (by omega)))
    · exact execList_store_read ha rfl (if_pos hm) (congrArg Except.ok (setWidth_extractLsb' d 16 (by omega)))
    · exact execList_store_read ha rfl (if_pos hm) (congrArg Except.ok (setWidth_extractLsb' d 9 (by omega)))
  · rcases ha with ha | ha <;>
      exact execList_store_read ha rfl (if_pos hm) (congrArg Except.ok (legalFlags_setWidth d))
  · obtain ⟨b, k, hk, hl⟩ := exists_location_buf hp h100
    have hr := readLocation_buf_of_some (readBuf_hostWriteBuf_same s (d.extractLsb' 0 8) hk)
    exact ⟨_, execList_write_read (exec_busWrite_buf hl hm d) (by rw [hl]; exact hr), setWidth_extractLsb' d 8 (by omega)⟩
  · obtain ⟨v, hv, rfl⟩ := exec_busRead_next hu
    have hprot := busyProtected_iff.2 hp
    have hr := (readLocation_recordError hprot .busy).trans hv
    exact ⟨_, execList_write_read (exec_busWrite_busy hprot hm d) hr, rfl, rfl, rfl⟩

end Sys2Proof.Machine
end

section
/-! PROOFS. The two paths are independent, and the ticks below a baud event (44_rtty.md R233; 45_scheduler.md R253). -/

open Sys2Proof.Spec

namespace Sys2Proof.Machine

/-! ### The RTTY path -/

/-- What an RTTY arm reads of memory is MSG alone. -/
theorem RttyArm.congr_msg {s t : State} {b : Bool} {r : RttyFsm} (h : RttyArm s b r) (hr : t.rtty = s.rtty)
    (hc : t.config = s.config) (hmsg : ∀ k, t.readBuf .msg k = s.readBuf .msg k) : RttyArm t b r := by
  have hidle : t.rttyIdleBit = s.rttyIdleBit := by rw [State.rttyIdleBit, hc, State.rttyIdleBit]
  cases h with
  | idleBit h hi => rw [← hr, ← hidle]; exact .idleBit (hr ▸ h) (hr ▸ hi)
  | startBit v h hv => rw [← hr]; exact .startBit v (hr ▸ h) (by rw [hr, hmsg]; exact hv)
  | dataBit h => rw [← hr]; exact .dataBit (hr ▸ h)
  | firstStop h => rw [← hr]; exact .firstStop (hr ▸ h)
  | secondStop h => rw [← hr]; exact .secondStop (hr ▸ h)

/-- The state with the APRS path's registers and the memory replaced. -/
def State.withAprs (ax : FrameFsm) (enc : BitEncoder) (crc fcs : BitVec 16) (mem : Memory) (s : State) : State :=
  { s with ax := ax, enc := enc, crc := crc, fcs := fcs, mem := mem }

/-- The RTTY producer gives the same bit, or the same fault, whatever the APRS path holds. -/
theorem rttyNextBit_withAprs (ax : FrameFsm) (enc : BitEncoder) (crc fcs : BitVec 16) {mem : Memory} {s : State}
    (hmsg : ∀ k, State.readBuf { s with mem := mem } .msg k = s.readBuf .msg k) :
    rttyNextBit (s.withAprs ax enc crc fcs mem) =
      (rttyNextBit s).map fun p => (p.1, p.2.withAprs ax enc crc fcs mem) := by
  have hread : ∀ k, (s.withAprs ax enc crc fcs mem).readBuf .msg k = s.readBuf .msg k := fun k => hmsg k
  rcases rttyNextBit_cases s with ⟨b, r, ha⟩ | ⟨hs, hn⟩
  · rw [rttyNextBit_of_arm ha, rttyNextBit_of_arm (ha.congr_msg (t := s.withAprs ax enc crc fcs mem) rfl rfl hread)]
    rfl
  · rw [rttyNextBit_of_start_none hs hn, rttyNextBit_of_start_none (s := s.withAprs ax enc crc fcs mem) hs
      ((hread _).trans hn)]
    rfl

/-! ### The APRS path -/

/-- The state with the RTTY FSM replaced. -/
def State.withRtty (r : RttyFsm) (s : State) : State := { s with rtty := r }

theorem nextByte_withRtty (r : RttyFsm) (s : State) :
    nextByte (s.withRtty r) = (nextByte s).map fun p => (p.1, p.2.withRtty r) := by
  cases hn : nextByte s with
  | ok p =>
    obtain ⟨f, ha, hp⟩ := nextByte_ok (o := p.1) (t := p.2) hn
    rw [nextByte_of_arm (ha.congr (t := s.withRtty r) rfl rfl rfl rfl rfl rfl), Except.map, hp]
    rfl
  | error x => exact nextByte_error_congr hn rfl rfl

theorem nextBit_withRtty (r : RttyFsm) (s : State) :
    nextBit (s.withRtty r) = (nextBit s).map fun p => (p.1, p.2.withRtty r) := by
  cases hn : nextBit s with
  | ok p =>
    obtain ⟨f, e, ha, hp⟩ := nextBit_ok (o := p.1) (t := p.2) hn
    rw [nextBit_of_arm (ha.congr (t := s.withRtty r) rfl rfl rfl rfl rfl rfl rfl), Except.map, hp]
    rfl
  | error x => exact nextBit_error_congr hn rfl rfl rfl

/-! ### An update that an operation does not meet -/

theorem mapNext_orFault_map {α : Type} (f : State → State) (g : α → State) (r : Except Fault α) :
    mapNext f (orFault (r.map g)) = orFault (r.map fun p => f (g p)) := by
  cases r <;> rfl

theorem orFault_map_map {α β : Type} (h : α → β) (g : β → State) (r : Except Fault α) :
    orFault ((r.map h).map g) = orFault (r.map fun p => g (h p)) := by
  cases r <;> rfl

/-- An update that keeps MODE and the error record passes through the busy rule. -/
theorem whenIdle_update {f : State → State} {s : State} {act : State → Result} (hmode : (f s).mode = s.mode)
    (herr : (f s).recordError .busy = f (s.recordError .busy)) (hact : act (f s) = mapNext f (act s)) :
    whenIdle (f s) act = mapNext f (whenIdle s act) := by
  by_cases hm : s.mode = .idle
  · rw [whenIdle_idle _ hm, whenIdle_idle _ (hmode.trans hm), hact]
  · rw [whenIdle_busy _ hm, whenIdle_busy _ (by rwa [hmode]), herr]
    rfl

section RttyPath

variable (ax : FrameFsm) (enc : BitEncoder) (crc fcs : BitVec 16) (mem : Memory) (s : State)

theorem rttyInitThen_withAprs {act : State → State}
    (hact : act (s.startMessage.withAprs ax enc crc fcs mem) = (act s.startMessage).withAprs ax enc crc fcs mem) :
    rttyInitThen act (s.withAprs ax enc crc fcs mem) =
      mapNext (State.withAprs ax enc crc fcs mem) (rttyInitThen act s) := by
  have hlen : (s.withAprs ax enc crc fcs mem).rttyLenOk = s.rttyLenOk := rfl
  rw [rttyInitThen, rttyInitThen, hlen]
  split
  · exact congrArg Host.Outcome.next hact
  · rfl

theorem exec_rttyInit_withAprs :
    exec .rttyInit (s.withAprs ax enc crc fcs mem) =
      mapNext (State.withAprs ax enc crc fcs mem) (exec .rttyInit s) := by
  simp only [exec, execRttyInit]
  exact whenIdle_update (f := State.withAprs ax enc crc fcs mem) (s := s) rfl rfl
    (rttyInitThen_withAprs ax enc crc fcs mem s rfl)

theorem exec_txStartRtty_withAprs :
    exec .txStartRtty (s.withAprs ax enc crc fcs mem) =
      mapNext (State.withAprs ax enc crc fcs mem) (exec .txStartRtty s) := by
  simp only [exec, execTxStartRtty]
  exact whenIdle_update (f := State.withAprs ax enc crc fcs mem) (s := s) rfl rfl
    (rttyInitThen_withAprs ax enc crc fcs mem s rfl)

variable {mem s}

theorem exec_rttyNextBit_withAprs (hmsg : ∀ k, State.readBuf { s with mem := mem } .msg k = s.readBuf .msg k) :
    exec .rttyNextBit (s.withAprs ax enc crc fcs mem) =
      mapNext (State.withAprs ax enc crc fcs mem) (exec .rttyNextBit s) := by
  simp only [exec, execRttyNextBit]
  refine whenIdle_update (f := State.withAprs ax enc crc fcs mem) (s := s) rfl rfl ?_
  have hfin : (s.withAprs ax enc crc fcs mem).rtty.fin = s.rtty.fin := rfl
  simp only [hfin, rttyNextBit_withAprs ax enc crc fcs hmsg, orFault_map_map]
  split
  · rfl
  · rw [mapNext_orFault_map]
    rfl

theorem exec_tickBaud_withAprs (hmsg : ∀ k, State.readBuf { s with mem := mem } .msg k = s.readBuf .msg k) :
    exec .tickBaud (s.withAprs ax enc crc fcs mem) =
      mapNext (State.withAprs ax enc crc fcs mem) (exec .tickBaud s) := by
  have hmode : (s.withAprs ax enc crc fcs mem).mode = s.mode := rfl
  simp only [exec, execTickBaud, hmode, rttyNextBit_withAprs ax enc crc fcs hmsg, orFault_map_map]
  split
  · rw [mapNext_orFault_map]
    congr 2
    funext p
    simp only [endTransmission_if]
    rfl
  · rfl

end RttyPath

section AprsPath

variable (r : RttyFsm) (s : State)

theorem exec_ax25Reset_withRtty : exec .ax25Reset (s.withRtty r) = mapNext (State.withRtty r) (exec .ax25Reset s) := by
  simp only [exec, execAx25Reset]
  exact whenIdle_update (f := State.withRtty r) (s := s) rfl rfl rfl

theorem exec_txStartAprs_withRtty :
    exec .txStartAprs (s.withRtty r) = mapNext (State.withRtty r) (exec .txStartAprs s) := by
  simp only [exec, execTxStartAprs]
  exact whenIdle_update (f := State.withRtty r) (s := s) rfl rfl rfl

theorem exec_ax25NextByte_withRtty :
    exec .ax25NextByte (s.withRtty r) = mapNext (State.withRtty r) (exec .ax25NextByte s) := by
  simp only [exec, execAx25NextByte]
  refine whenIdle_update (f := State.withRtty r) (s := s) rfl rfl ?_
  rw [nextByte_withRtty, orFault_map_map, mapNext_orFault_map]
  rfl

theorem exec_nrziNextBit_withRtty :
    exec .nrziNextBit (s.withRtty r) = mapNext (State.withRtty r) (exec .nrziNextBit s) := by
  simp only [exec, execNrziNextBit]
  refine whenIdle_update (f := State.withRtty r) (s := s) rfl rfl ?_
  rw [nextBit_withRtty, orFault_map_map, mapNext_orFault_map]
  rfl

theorem aprsBaudEvent_withRtty : aprsBaudEvent (s.withRtty r) = mapNext (State.withRtty r) (aprsBaudEvent s) := by
  rw [aprsBaudEvent, aprsBaudEvent, nextBit_withRtty, orFault_map_map, mapNext_orFault_map]
  congr 2
  funext p
  simp only [endTransmission_if]
  rfl

theorem exec_tickSample_withRtty :
    exec .tickSample (s.withRtty r) = mapNext (State.withRtty r) (exec .tickSample s) := by
  have hmode : (s.withRtty r).mode = s.mode := rfl
  have hdiv : (s.withRtty r).div = s.div := rfl
  simp only [exec, execTickSample, hmode, hdiv]
  split
  · split
    · exact aprsBaudEvent_withRtty r { s with aux := !s.aux, div := 0#5 }
    · rfl
  · rfl

end AprsPath

/-! ### A sample tick below the baud event -/

/-- R253: a tick that does not make DIV reach 22 counts and toggles AUX. -/
theorem exec_tickSample_counted {s : State} (hm : s.mode = .aprs) (hd : s.div.toNat < 21) :
    exec .tickSample s = .next { s with aux := !s.aux, div := s.div + 1 } := by
  have hne : ¬ s.div + 1#5 = BitVec.ofNat 5 Config.samplesPerBaud := by
    rw [Config.samplesPerBaud]
    bv_omega
  rw [exec, execTickSample, if_pos hm, if_neg hne]
  rfl

/-! ### The obligations -/

/-- Settles O35: each producer reads its own path's state, and the busy rule and the error record read neither. -/
theorem aprsAndRttyPathsAreIndependent : Obligations.AprsAndRttyPathsAreIndependent := by
  refine ⟨fun i hi s ax enc crc fcs mem hmsg => ?_, fun i hi s r => ?_⟩
  · simp only [List.mem_cons, List.not_mem_nil, or_false] at hi
    rcases hi with rfl | rfl | rfl | rfl
    · exact exec_rttyInit_withAprs ax enc crc fcs mem s
    · exact exec_rttyNextBit_withAprs ax enc crc fcs hmsg
    · exact exec_txStartRtty_withAprs ax enc crc fcs mem s
    · exact exec_tickBaud_withAprs ax enc crc fcs hmsg
  · simp only [List.mem_cons, List.not_mem_nil, or_false] at hi
    rcases hi with rfl | rfl | rfl | rfl | rfl
    · exact exec_ax25Reset_withRtty r s
    · exact exec_ax25NextByte_withRtty r s
    · exact exec_nrziNextBit_withRtty r s
    · exact exec_txStartAprs_withRtty r s
    · exact exec_tickSample_withRtty r s

/-- Settles O39: below 21 the tick counts, and at 21 every next state comes from an arm of the bit producer. -/
theorem sampleTickTogglesAuxAndCounts : Obligations.SampleTickTogglesAuxAndCounts := by
  refine fun s hm => ⟨exec_tickSample_counted hm, fun t hd h => ?_⟩
  have hd21 : s.div = 21 := BitVec.eq_of_toNat_eq hd
  rcases nextBit_cases s with ⟨o, f, e, ha⟩ | ⟨-, -, x, -, hx⟩
  · rw [next_inj ((exec_tickSample_baud_of_arm hm hd21 ha).symm.trans h)]
    exact ⟨rfl, rfl⟩
  · rw [exec_tickSample_baud_of_error hm hd21 hx] at h
    cases h

end Sys2Proof.Machine
end

section
/-! PROOFS. The byte sequence of a frame (42_ax25_frame.md R172; 43_bitstuff_nrzi.md R192). -/

open Sys2Proof.Spec

namespace Sys2Proof.Machine

/-! ### Repeating one operation -/

/-- A run of one operation, one call longer. -/
theorem execList_replicate_succ {i : Instr} {n : Nat} {s t u : State} (h : execList (List.replicate n i) s = .next t)
    (hi : exec i t = .next u) : execList (List.replicate (n + 1) i) s = .next u := by
  rw [List.replicate_succ', execList_append_next h, execList_cons_next hi, execList_nil]

/-! ### A loaded frame -/

/-- What the laws about a frame ask of the state: legal flag counts, and both buffers loaded (R172, R200, R261). -/
structure FrameLoaded (s : State) (hs xs : List Byte) : Prop where
  startFlags : s.startFlags ≠ 0
  endFlags : s.endFlags ≠ 0
  headerLength : hs.length = 23
  fieldLength : xs.length = 32
  header : s.Holds .hdr hs
  field : s.Holds .info xs

/-- Byte `n` of the frame, and flags after the frame (R169, R172). -/
def frameByte (s : State) (hs xs : List Byte) (n : Nat) : ByteOut := ((frameBytes s hs xs)[n]?).getD ⟨0x7E, false⟩

section FrameBytes

variable {s : State} {hs xs : List Byte}

theorem FrameLoaded.body_length (h : FrameLoaded s hs xs) : (frameBody s hs xs).length = 57 := by
  simp [frameBody, h.headerLength, h.fieldLength]

theorem FrameLoaded.frameBytes_length (h : FrameLoaded s hs xs) :
    (frameBytes s hs xs).length = s.startFlags.toNat + 57 + s.endFlags.toNat := by
  simp [frameBytes, h.body_length, Nat.add_assoc]

theorem frameByte_open {n : Nat} (h : n < s.startFlags.toNat) : frameByte s hs xs n = ⟨0x7E, false⟩ := by
  rw [frameByte, frameBytes, List.append_assoc, List.getElem?_append_left (by simpa using h), List.getElem?_replicate,
    if_pos h]
  rfl

theorem frameByte_body {k : Nat} {v : Byte} (h : (frameBody s hs xs)[k]? = some v) :
    frameByte s hs xs (s.startFlags.toNat + k) = ⟨v, true⟩ := by
  have hk : k < (frameBody s hs xs).length := (List.getElem?_eq_some_iff.1 h).1
  rw [frameByte, frameBytes, List.getElem?_append_left (by simpa using hk), List.getElem?_append_right (by simp),
    List.length_replicate, Nat.add_sub_cancel_left, List.getElem?_map, h]
  rfl

theorem FrameLoaded.frameByte_close (h : FrameLoaded s hs xs) {n : Nat} (hn : s.startFlags.toNat + 57 ≤ n) :
    frameByte s hs xs n = ⟨0x7E, false⟩ := by
  rw [frameByte, frameBytes, List.getElem?_append_right (by simpa [h.body_length] using hn), List.getElem?_replicate]
  split <;> rfl

theorem frameBody_header {k : Nat} (h : k < hs.length) : (frameBody s hs xs)[k]? = hs[k]? := by
  rw [frameBody, List.append_assoc, List.getElem?_append_left h]

theorem frameBody_field {k : Nat} (h : k < xs.length) : (frameBody s hs xs)[hs.length + k]? = xs[k]? := by
  rw [frameBody, List.append_assoc, List.getElem?_append_right (by omega), Nat.add_sub_cancel_left,
    List.getElem?_append_left h]

theorem frameBody_fcs (k : Nat) :
    (frameBody s hs xs)[hs.length + xs.length + k]? = [s.fcsFirst, s.fcsSecond][k]? := by
  rw [frameBody, List.getElem?_append_right (by simp), List.length_append, Nat.add_sub_cancel_left]

end FrameBytes

/-! ### Where the frame FSM stands -/

/-- The frame FSM when `n` bytes of a frame of `s` have been emitted (R162-R168). -/
def FrameFsm.AtByte (s : State) (n : Nat) (f : FrameFsm) : Prop :=
  match f.state with
  | .init => f.finished = false ∧ n = 0
  | .startFlags => f.finished = false ∧ n = f.idx.toNat ∧ n < s.startFlags.toNat
  | .header => f.finished = false ∧ n = s.startFlags.toNat + f.idx.toNat ∧ f.idx.toNat < 23
  | .data => f.finished = false ∧ n = s.startFlags.toNat + (23 + f.idx.toNat) ∧ f.idx.toNat < 32
  | .fcs1 => f.finished = false ∧ n = s.startFlags.toNat + 55
  | .fcs2 => f.finished = false ∧ n = s.startFlags.toNat + 56
  | .endFlags => (f.finished = true ∧ s.startFlags.toNat + 57 + s.endFlags.toNat ≤ n) ∨
      (f.finished = false ∧ n = s.startFlags.toNat + 57 + f.idx.toNat ∧ f.idx.toNat < s.endFlags.toNat)

section AtByte

variable {s : State} {hs xs : List Byte} {n : Nat} {f : FrameFsm}

/-- R172: FINISHED is 1 exactly from the last byte of the frame on. -/
theorem FrameFsm.AtByte.finished_iff (h : f.AtByte s n) :
    f.finished = true ↔ s.startFlags.toNat + 57 + s.endFlags.toNat ≤ n := by
  cases hst : f.state with
  | endFlags =>
    simp only [FrameFsm.AtByte, hst] at h
    rcases h with ⟨hf, hn⟩ | ⟨hf, hn, hlt⟩ <;> simp only [hf, Bool.false_eq_true, false_iff, true_iff] <;> omega
  | init | startFlags | header | data | fcs1 | fcs2 =>
    simp only [FrameFsm.AtByte, hst] at h
    obtain ⟨hf, hn⟩ := h
    simp only [hf, Bool.false_eq_true, false_iff]
    omega

/-- The frame FSM emits byte `n` of the frame and moves to its next place. -/
def FrameFsm.Emits (s : State) (hs xs : List Byte) (n : Nat) (f : FrameFsm) : Prop :=
  ∃ f', ByteArm { s with ax := f } (frameByte s hs xs n) f' ∧ f'.AtByte s (n + 1)

/-- R162: Init emits the first opening flag. -/
theorem FrameFsm.AtByte.emits_of_init (hload : FrameLoaded s hs xs) (h : f.AtByte s n)
    (hst : f.state = .init) : f.Emits s hs xs n := by
  have hsf : s.startFlags.toNat ≠ 0 := fun h0 => hload.startFlags (BitVec.eq_of_toNat_eq h0)
  simp only [FrameFsm.AtByte, hst] at h
  obtain ⟨hf, rfl⟩ := h
  have harm : ByteArm { s with ax := f } ⟨0x7E, false⟩ (f.enter.count s.startFlags .header) := .openFlag (.inl hst)
  rw [← frameByte_open (hs := hs) (xs := xs) (Nat.pos_of_ne_zero hsf)] at harm
  refine ⟨_, harm, ?_⟩
  rw [FrameFsm.enter_count_of_init hst, hf]
  split
  · next h1 => exact ⟨rfl, by rw [← h1]; rfl, by simp⟩
  · next h1 => exact ⟨rfl, rfl, by bv_omega⟩

/-- R163: StartFlags emits an opening flag and counts it. -/
theorem FrameFsm.AtByte.emits_of_startFlags (h : f.AtByte s n)
    (hst : f.state = .startFlags) : f.Emits s hs xs n := by
  simp only [FrameFsm.AtByte, hst] at h
  obtain ⟨hf, hn, hlt⟩ := h
  have harm : ByteArm { s with ax := f } ⟨0x7E, false⟩ (f.enter.count s.startFlags .header) := .openFlag (.inr hst)
  rw [← frameByte_open (hs := hs) (xs := xs) hlt] at harm
  refine ⟨_, harm, ?_⟩
  rw [FrameFsm.enter_of_ne_init (by simp [hst]), FrameFsm.count_of_state hst, hf]
  split
  · next h1 => exact ⟨rfl, by bv_omega, by simp⟩
  · next h1 => exact ⟨rfl, by bv_omega, by bv_omega⟩

/-- R164: Header emits a header byte. -/
theorem FrameFsm.AtByte.emits_of_header (hload : FrameLoaded s hs xs) (h : f.AtByte s n)
    (hst : f.state = .header) : f.Emits s hs xs n := by
  simp only [FrameFsm.AtByte, hst] at h
  obtain ⟨hf, rfl, hlt⟩ := h
  have hk : f.idx.toNat < hs.length := hload.headerLength ▸ hlt
  have hv : s.readBuf .hdr f.idx.toNat = some hs[f.idx.toNat] := (hload.header.2 _ hk).trans (List.getElem?_eq_getElem hk)
  have hbyte := frameByte_body (s := s) (xs := xs) ((frameBody_header hk).trans (List.getElem?_eq_getElem hk))
  have harm : ByteArm { s with ax := f } ⟨_, true⟩ (f.count 23 .data) := .header _ hst hv
  rw [← hbyte] at harm
  refine ⟨_, harm, ?_⟩
  rw [FrameFsm.count_of_state hst, hf]
  split
  · next h1 => exact ⟨rfl, by bv_omega, by simp⟩
  · next h1 => exact ⟨rfl, by bv_omega, by bv_omega⟩

/-- R165: Data emits a byte of the field. -/
theorem FrameFsm.AtByte.emits_of_data (hload : FrameLoaded s hs xs) (h : f.AtByte s n)
    (hst : f.state = .data) : f.Emits s hs xs n := by
  simp only [FrameFsm.AtByte, hst] at h
  obtain ⟨hf, rfl, hlt⟩ := h
  have hk : f.idx.toNat < xs.length := hload.fieldLength ▸ hlt
  have hv : s.readBuf .info f.idx.toNat = some xs[f.idx.toNat] := (hload.field.2 _ hk).trans (List.getElem?_eq_getElem hk)
  have hbyte := frameByte_body (s := s) (hs := hs) ((frameBody_field hk).trans (List.getElem?_eq_getElem hk))
  rw [hload.headerLength] at hbyte
  have harm : ByteArm { s with ax := f } ⟨_, true⟩ (f.count 32 .fcs1) := .data _ hst hv
  rw [← hbyte] at harm
  refine ⟨_, harm, ?_⟩
  rw [FrameFsm.count_of_state hst, hf]
  split
  · next h1 => exact ⟨rfl, by bv_omega⟩
  · next h1 => exact ⟨rfl, by bv_omega, by bv_omega⟩

/-- R166: Fcs1 emits the first FCS byte. -/
theorem FrameFsm.AtByte.emits_of_fcs1 (hload : FrameLoaded s hs xs) (h : f.AtByte s n)
    (hst : f.state = .fcs1) : f.Emits s hs xs n := by
  simp only [FrameFsm.AtByte, hst] at h
  obtain ⟨hf, rfl⟩ := h
  have hbyte := frameByte_body (frameBody_fcs (s := s) (hs := hs) (xs := xs) 0)
  rw [hload.headerLength, hload.fieldLength] at hbyte
  have harm : ByteArm { s with ax := f } ⟨s.fcsFirst, true⟩ { f with state := .fcs2 } := .fcs1 hst
  rw [← hbyte] at harm
  exact ⟨_, harm, hf, rfl⟩

/-- R167: Fcs2 emits the second FCS byte. -/
theorem FrameFsm.AtByte.emits_of_fcs2 (hload : FrameLoaded s hs xs) (h : f.AtByte s n)
    (hst : f.state = .fcs2) : f.Emits s hs xs n := by
  have hef : s.endFlags.toNat ≠ 0 := fun h0 => hload.endFlags (BitVec.eq_of_toNat_eq h0)
  simp only [FrameFsm.AtByte, hst] at h
  obtain ⟨hf, rfl⟩ := h
  have hbyte := frameByte_body (frameBody_fcs (s := s) (hs := hs) (xs := xs) 1)
  rw [hload.headerLength, hload.fieldLength] at hbyte
  have harm : ByteArm { s with ax := f } ⟨s.fcsSecond, true⟩ { f with state := .endFlags, idx := 0#8 } := .fcs2 hst
  rw [← hbyte] at harm
  exact ⟨_, harm, Or.inr ⟨hf, rfl, Nat.pos_of_ne_zero hef⟩⟩

/-- R168: EndFlags emits a closing flag, and finishes on the last. -/
theorem FrameFsm.AtByte.emits_of_endFlags (hload : FrameLoaded s hs xs) (h : f.AtByte s n)
    (hst : f.state = .endFlags) : f.Emits s hs xs n := by
  have harm : ByteArm { s with ax := f } ⟨0x7E, false⟩ (f.countEnd s.endFlags) := .closeFlag hst
  simp only [FrameFsm.AtByte, hst] at h
  rcases h with ⟨hf, hn⟩ | ⟨hf, hn, hlt⟩
  · rw [← hload.frameByte_close (n := n) (by omega), FrameFsm.countEnd_of_finished hf] at harm
    refine ⟨f, harm, ?_⟩
    simp only [FrameFsm.AtByte, hst]
    exact .inl ⟨hf, by omega⟩
  · rw [← hload.frameByte_close (n := n) (by omega), FrameFsm.countEnd_of_unfinished hf] at harm
    refine ⟨_, harm, ?_⟩
    simp only [FrameFsm.AtByte, hst]
    by_cases hlast : f.idx + 1 = s.endFlags
    · exact .inl ⟨decide_eq_true hlast, by bv_omega⟩
    · exact .inr ⟨decide_eq_false hlast, by bv_omega, by bv_omega⟩

/-- R162-R168: from its place the frame FSM emits the frame's next byte and moves to the next place. -/
theorem FrameFsm.AtByte.emits (hload : FrameLoaded s hs xs) (h : f.AtByte s n) : f.Emits s hs xs n := by
  cases hst : f.state with
  | init => exact h.emits_of_init hload hst
  | startFlags => exact h.emits_of_startFlags hst
  | header => exact h.emits_of_header hload hst
  | data => exact h.emits_of_data hload hst
  | fcs1 => exact h.emits_of_fcs1 hload hst
  | fcs2 => exact h.emits_of_fcs2 hload hst
  | endFlags => exact h.emits_of_endFlags hload hst

/-- What a frame reads of the state beside the frame FSM (R77): it is the same in both states. -/
structure SameFrameInputs (s t : State) : Prop where
  startFlags : t.startFlags = s.startFlags
  endFlags : t.endFlags = s.endFlags
  fcs : t.fcs = s.fcs
  config : t.config = s.config
  mem : t.mem = s.mem

/-- The same in a later state of the run. -/
theorem FrameFsm.AtByte.exists_arm_later {t : State} (hload : FrameLoaded s hs xs) (hsame : SameFrameInputs s t)
    (h : t.ax.AtByte s n) : ∃ f, ByteArm t (frameByte s hs xs n) f ∧ f.AtByte s (n + 1) := by
  obtain ⟨f, harm, hf⟩ := h.emits hload
  exact ⟨f, harm.congr rfl hsame.startFlags hsame.endFlags hsame.fcs hsame.config hsame.mem, hf⟩

end AtByte

/-! ### The obligations -/

/-- R172: `n` calls of the byte producer complete, touch RESULT and the frame FSM alone, and leave the FSM in its place. -/
theorem execList_nextByte {s : State} {hs xs : List Byte} (hm : s.mode = .idle) (hload : FrameLoaded s hs xs)
    (h0 : s.ax.AtByte s 0) (n : Nat) :
    ∃ t, execList (List.replicate n .ax25NextByte) s = .next t ∧ t = { s with ax := t.ax, result := t.result } ∧
      t.ax.AtByte s n := by
  induction n with
  | zero => exact ⟨s, rfl, rfl, h0⟩
  | succ n ih =>
    obtain ⟨t, ht, hframe, hat⟩ := ih
    have hsame : SameFrameInputs s t := by rw [hframe]; constructor <;> rfl
    have hmt : t.mode = .idle := by rw [hframe, hm]
    obtain ⟨f, harm, hf⟩ := hat.exists_arm_later hload hsame
    exact ⟨_, execList_replicate_succ ht (exec_nextByte_of_arm hmt harm), by rw [hframe], hf⟩

/-- R171: RESULT of the call that emits byte `n`. -/
theorem packByte_frameByte (s : State) (hs xs : List Byte) (n : Nat) :
    packByte (frameByte s hs xs n).byte (frameByte s hs xs n).st =
      match (frameBytes s hs xs)[n]? with
      | some b => 0#23 ++ BitVec.ofBool b.st ++ b.byte
      | none => 0x7E#32 := by
  rw [frameByte]
  cases (frameBytes s hs xs)[n]? <;> rfl

/-- Settles O23: the calls before the last leave the frame FSM in its place, and the last emits the byte of that place. -/
theorem frameSequenceLaw : Obligations.FrameSequenceLaw := by
  intro s hs xs hm hst hf hsf hef hhl hxl hh hx n
  have hload : FrameLoaded s hs xs := ⟨hsf, hef, hhl, hxl, hh, hx⟩
  have h0 : s.ax.AtByte s 0 := by simp [FrameFsm.AtByte, hst, hf]
  obtain ⟨t, ht, hframe, hat⟩ := execList_nextByte hm hload h0 n
  have hsame : SameFrameInputs s t := by rw [hframe]; constructor <;> rfl
  have hmt : t.mode = .idle := by rw [hframe, hm]
  obtain ⟨f, harm, hnext⟩ := hat.exists_arm_later hload hsame
  exact ⟨_, execList_replicate_succ ht (exec_nextByte_of_arm hmt harm), by rw [hframe], packByte_frameByte s hs xs n,
    hnext.finished_iff⟩

theorem exec_nextByte_idle_fault {s : State} {x : Fault} (hm : s.mode = .idle) (h : exec .ax25NextByte s = .fault x) :
    nextByte s = .error x := by
  cases hn : nextByte s with
  | ok p =>
    obtain ⟨f, ha, -⟩ := nextByte_ok (o := p.1) (t := p.2) hn
    rw [exec_nextByte_of_arm hm ha] at h
    cases h
  | error y =>
    rw [exec_nextByte_of_error hm hn] at h
    cases h
    rfl

/-- R194 with both values of the source bit. -/
theorem onesAfter_eq (b : Bool) (ones : BitVec 3) :
    onesAfter b ones = if b then BitVec.ofNat 3 (min (ones.toNat + 1) 7) else 0 := by
  cases b with
  | true => exact onesAfter_true ones
  | false => rfl

/-- Settles O26: the arm that loads a byte runs the byte producer's arm, and faults with it. -/
theorem nextBitPullsTheNextByte : Obligations.NextBitPullsTheNextByte := by
  refine fun s hm hp hb => ⟨fun hready => ?_, fun x hx => ?_⟩
  · cases hn : nextByte s with
    | error x => exact absurd hn (nextByte_ne_error_of_readable hready x)
    | ok p =>
      obtain ⟨f, ha, -⟩ := nextByte_ok (o := p.1) (t := p.2) hn
      have hbit : BitArm s _ f _ := .loaded (stuffPending_eq_false hp) hb p.1 f ha
      refine ⟨_, p.1.byte, p.1.st, exec_nextByte_of_arm hm ha, rfl, ?_⟩
      rw [exec_nextBit_of_arm hm hbit, BitEncoder.load_sendBit, nrzi_eq_xor, onesAfter_eq]
      rfl
  · have hbit : nextBit s = .error x :=
      nextBit_eq_error_iff.2 ⟨stuffPending_eq_false hp, hb, exec_nextByte_idle_fault hm hx⟩
    exact exec_nextBit_of_error hm hbit

end Sys2Proof.Machine
end

section
/-! PROOFS. Bit stuffing as a law about lists of bits (43_bitstuff_nrzi.md R200, R201). -/

open Sys2Proof.Spec

namespace Sys2Proof.Machine

/-! ### The 1s at the end of a stream -/

/-- The number of 1s at the end of a stream that follows `n` 1s. -/
def trailingOnes (n : Nat) (bs : List Bool) : Nat := bs.foldl (fun n b => if b then n + 1 else 0) n

theorem trailingOnes_append (n : Nat) (as bs : List Bool) :
    trailingOnes n (as ++ bs) = trailingOnes (trailingOnes n as) bs :=
  List.foldl_append

theorem trailingOnes_replicate_true (n k : Nat) : trailingOnes n (List.replicate k true) = n + k := by
  induction k generalizing n with
  | zero => rfl
  | succ k ih =>
    rw [List.replicate_succ, trailingOnes, List.foldl_cons, if_pos rfl]
    exact (ih (n + 1)).trans (by omega)

/-- At least `m` 1s stand at the end of a stream exactly when its last `m` bits are 1s. -/
theorem le_trailingOnes_iff (bs : List Bool) (m : Nat) :
    m ≤ trailingOnes 0 bs ↔ m ≤ bs.length ∧ ∀ j, bs.length ≤ j + m → j < bs.length → bs[j]? = some true := by
  induction bs using List.reverseRecOn generalizing m with
  | nil => simp [trailingOnes]
  | append_singleton bs b ih =>
    rw [trailingOnes_append, List.length_append, List.length_singleton]
    have hlast : (bs ++ [b])[bs.length]? = some b := by simp
    cases m with
    | zero =>
      refine iff_of_true (Nat.zero_le _) ⟨Nat.zero_le _, fun j h1 h2 => ?_⟩
      omega
    | succ m =>
      cases b with
      | false =>
        refine iff_of_false (by simp [trailingOnes]) fun ⟨_, h⟩ => ?_
        have := hlast.symm.trans (h bs.length (by omega) (by omega))
        cases this
      | true =>
        have hstep : trailingOnes (trailingOnes 0 bs) [true] = trailingOnes 0 bs + 1 := rfl
        rw [hstep, Nat.add_le_add_iff_right, Nat.add_le_add_iff_right, ih m]
        refine and_congr_right fun _ => ⟨fun h j h1 h2 => ?_, fun h j h1 h2 => ?_⟩
        · by_cases hj : j < bs.length
          · rw [List.getElem?_append_left hj]
            exact h j (by omega) hj
          · rw [show j = bs.length by omega, hlast]
        · rw [← List.getElem?_append_left h2]
          exact h j (by omega) (by omega)

/-! ### Stuffing with the stuffed bits marked -/

/-- `stuffBits` with each bit marked by whether it is a stuffed one. -/
def stuffMarked : Nat → List Bool → List (Bool × Bool)
  | _, [] => []
  | n, true :: bs =>
    if n = 4 then (true, false) :: (false, true) :: stuffMarked 0 bs else (true, false) :: stuffMarked (n + 1) bs
  | _, false :: bs => (false, false) :: stuffMarked 0 bs

theorem stuffMarked_map_fst (n : Nat) (bs : List Bool) : (stuffMarked n bs).map Prod.fst = stuffBits n bs := by
  induction bs generalizing n with
  | nil => rfl
  | cons b bs ih =>
    cases b with
    | false => simp [stuffMarked, stuffBits, ih]
    | true => by_cases hn : n = 4 <;> simp [stuffMarked, stuffBits, hn, ih]

/-- R200: the bits that are not stuffed are the source bits. -/
theorem stuffMarked_filter (n : Nat) (bs : List Bool) :
    ((stuffMarked n bs).filter fun b => !b.2).map Prod.fst = bs := by
  induction bs generalizing n with
  | nil => rfl
  | cons b bs ih =>
    cases b with
    | false => simp [stuffMarked, ih]
    | true => by_cases hn : n = 4 <;> simp [stuffMarked, hn, ih]

/-- R200: a receiver that drops the bit after five 1s recovers the source bits. -/
theorem unstuffBits_stuffBits {n : Nat} (hn : n ≤ 4) (bs : List Bool) : unstuffBits n (stuffBits n bs) = bs := by
  induction bs generalizing n with
  | nil => simp [stuffBits, unstuffBits]
  | cons b bs ih =>
    have hne : n ≠ 5 := by omega
    cases b with
    | false => simp [stuffBits, unstuffBits, hne, ih]
    | true =>
      by_cases h4 : n = 4
      · simp [stuffBits, unstuffBits, h4, ih]
      · simp [stuffBits, unstuffBits, h4, hne, ih (n := n + 1) (by omega)]

/-- R200: the stuffed stream does not end with five 1s. -/
theorem trailingOnes_stuffBits {n : Nat} (hn : n ≤ 4) (bs : List Bool) : trailingOnes n (stuffBits n bs) ≤ 4 := by
  induction bs generalizing n with
  | nil => exact hn
  | cons b bs ih =>
    cases b with
    | false => exact ih (n := 0) (by omega)
    | true =>
      rw [stuffBits]
      split
      · exact ih (n := 0) (by omega)
      · exact ih (n := n + 1) (by omega)

/-- R200: a bit is stuffed exactly when five 1s stand before it, and it is a 0. -/
theorem stuffMarked_getElem {n : Nat} (hn : n ≤ 4) (bs : List Bool) (k : Nat) (b : Bool × Bool)
    (h : (stuffMarked n bs)[k]? = some b) :
    (b.2 = true ↔ 5 ≤ trailingOnes n ((stuffBits n bs).take k)) ∧ (b.2 = true → b.1 = false) := by
  induction bs generalizing n k with
  | nil => simp [stuffMarked] at h
  | cons x bs ih =>
    have hunmarked : ∀ y : Bool, (y, false) = b →
        (b.2 = true ↔ 5 ≤ trailingOnes n []) ∧ (b.2 = true → b.1 = false) := by
      rintro y rfl
      exact ⟨iff_of_false nofun (Nat.not_le.2 (Nat.lt_succ_of_le hn)), nofun⟩
    cases x with
    | false =>
      cases k with
      | zero => exact hunmarked false (Option.some.inj h)
      | succ k => exact ih (n := 0) (by omega) k h
    | true =>
      by_cases h4 : n = 4
      · subst h4
        match k with
        | 0 => exact hunmarked true (Option.some.inj h)
        | 1 =>
          obtain rfl := Option.some.inj h
          exact ⟨iff_of_true rfl (Nat.le_refl 5), fun _ => rfl⟩
        | k + 2 => exact ih (n := 0) (by omega) k h
      · rw [stuffMarked, if_neg h4] at h
        rw [stuffBits, if_neg h4]
        cases k with
        | zero => exact hunmarked true (Option.some.inj h)
        | succ k => exact ih (n := n + 1) (by omega) k h

/-- R200: no six 1s follow each other in the stuffed stream: the sixth would have five before it. -/
theorem not_six_ones_stuffBits (bs : List Bool) : ¬ List.replicate 6 true <:+: stuffBits 0 bs := by
  rintro ⟨p, q, h⟩
  have hsplit : stuffBits 0 bs = (p ++ List.replicate 5 true) ++ true :: q := by
    rw [← h]
    simp [List.replicate_succ]
  have hk : (stuffBits 0 bs)[(p ++ List.replicate 5 true).length]? = some true := by
    rw [hsplit, List.getElem?_append_right (Nat.le_refl _), Nat.sub_self]
    rfl
  rw [← stuffMarked_map_fst, List.getElem?_map, Option.map_eq_some_iff] at hk
  obtain ⟨b, hb, hb1⟩ := hk
  obtain ⟨hmark, hzero⟩ := stuffMarked_getElem (Nat.zero_le 4) bs _ b hb
  have hfive : 5 ≤ trailingOnes 0 ((stuffBits 0 bs).take (p ++ List.replicate 5 true).length) := by
    rw [hsplit, List.take_left, trailingOnes_append, trailingOnes_replicate_true]
    omega
  rw [hzero (hmark.2 hfive)] at hb1
  cases hb1

theorem not_five_ones_suffix_stuffBits (bs : List Bool) : ¬ List.replicate 5 true <:+ stuffBits 0 bs := by
  rintro ⟨p, h⟩
  have hle := trailingOnes_stuffBits (Nat.zero_le 4) bs
  rw [← h, trailingOnes_append, trailingOnes_replicate_true] at hle
  omega

/-- The five bits before place `k` of a stream are 1s, as R200 says it. -/
theorem five_le_trailingOnes_take_iff {bs : List Bool} {k : Nat} (hk : k ≤ bs.length) :
    5 ≤ trailingOnes 0 (bs.take k) ↔ 5 ≤ k ∧ ∀ j : Nat, k ≤ j + 5 → j < k → bs[j]? = some true := by
  rw [le_trailingOnes_iff, List.length_take, Nat.min_eq_left hk]
  refine and_congr_right fun _ => forall_congr' fun j => forall_congr' fun _ => forall_congr' fun hj => ?_
  rw [List.getElem?_take_of_lt hj]

/-! ### NRZI levels -/

/-- The level after a stream of line bits (R196, R201). -/
def levelAfter (level : Bool) (bs : List Bool) : Bool := bs.foldl (fun l b => nrzi b l) level

theorem levelAfter_cons (level b : Bool) (bs : List Bool) :
    levelAfter level (b :: bs) = levelAfter (nrzi b level) bs := rfl

/-- R201: the level before the stream and after each of its bits. -/
theorem getElem?_cons_nrziLevels (level : Bool) (bs : List Bool) {n : Nat} (hn : n ≤ bs.length) :
    (level :: nrziLevels level bs)[n]? = some (levelAfter level (bs.take n)) := by
  induction bs generalizing level n with
  | nil =>
    obtain rfl : n = 0 := Nat.le_zero.1 hn
    rfl
  | cons b bs ih =>
    cases n with
    | zero => rfl
    | succ n => exact ih (nrzi b level) (Nat.le_of_succ_le_succ hn)

end Sys2Proof.Machine
end

section
/-! PROOFS. The line bits of a frame: the bit producer sends the stuffed frame, alone and from the sample ticks
(43_bitstuff_nrzi.md R200-R205; 45_scheduler.md R261). -/

open Sys2Proof.Spec

namespace Sys2Proof.Machine

/-! ### The line bits still to come -/

/-- The line bits of a stream of source bits, each with its byte's stuffing bit, when `ones` counts the 1s before them; each
line bit is marked by whether it is a stuffed one (R193-R195). -/
def markedLine : BitVec 3 → List (Bool × Bool) → List (Bool × Bool)
  | _, [] => []
  | ones, (b, st) :: rest =>
    (b, false) ::
      if st && onesAfter b ones == 5#3 then (false, true) :: markedLine 0 rest else markedLine (onesAfter b ones) rest

/-- The source bits of a byte (R192, R193). -/
def ByteOut.bits (o : ByteOut) : List (Bool × Bool) := (lsbFirst o.byte).map (·, o.st)

/-- The source bits left in the encoder. -/
def BitEncoder.unsent (e : BitEncoder) : List (Bool × Bool) :=
  (List.range e.bl.toNat).map fun i => (e.sr.getLsbD i, e.stuff)

/-- The line bits to come from the encoder when the source bits `rest` follow those left in it. -/
def BitEncoder.lineAfter (e : BitEncoder) (rest : List (Bool × Bool)) : List (Bool × Bool) :=
  if e.stuffPending then (false, true) :: markedLine 0 (e.unsent ++ rest) else markedLine e.ones (e.unsent ++ rest)

section LineAfter

variable {e : BitEncoder}

theorem BitEncoder.unsent_of_empty (h : e.bl = 0#4) : e.unsent = [] := by
  simp [BitEncoder.unsent, h]

theorem BitEncoder.unsent_of_ne_zero (h : e.bl ≠ 0#4) : e.unsent = (e.sr.getLsbD 0, e.stuff) :: e.sendBit.unsent := by
  have hbl : e.bl.toNat = (e.bl - 1#4).toNat + 1 := by bv_omega
  rw [BitEncoder.unsent, hbl, List.range_succ_eq_map, List.map_cons, List.map_map, BitEncoder.unsent]
  congr 1
  refine List.map_congr_left fun i _ => ?_
  simp [BitEncoder.sendBit, Nat.add_comm]

theorem BitEncoder.unsent_load (e : BitEncoder) (o : ByteOut) : (e.load o).unsent = o.bits := rfl

/-- Sending a source bit, as the line sees it. -/
theorem markedLine_unsent (h : e.bl ≠ 0#4) (rest : List (Bool × Bool)) :
    markedLine e.ones (e.unsent ++ rest) = (e.sr.getLsbD 0, false) :: e.sendBit.lineAfter rest := by
  rw [BitEncoder.unsent_of_ne_zero h, List.cons_append, markedLine]
  rfl

theorem BitEncoder.lineAfter_of_pending (h : e.stuffPending = true) (rest : List (Bool × Bool)) :
    e.lineAfter rest = (false, true) :: e.insertStuffed.lineAfter rest := by
  have hnot : e.insertStuffed.stuffPending = false := by simp [BitEncoder.stuffPending, BitEncoder.insertStuffed]
  rw [BitEncoder.lineAfter, if_pos h, BitEncoder.lineAfter, if_neg (by simp [hnot])]
  rfl

theorem BitEncoder.lineAfter_of_unsent (h : e.stuffPending = false) (hb : e.bl ≠ 0#4) (rest : List (Bool × Bool)) :
    e.lineAfter rest = (e.sr.getLsbD 0, false) :: e.sendBit.lineAfter rest := by
  rw [BitEncoder.lineAfter, if_neg (by simp [h]), markedLine_unsent hb]

theorem BitEncoder.lineAfter_of_empty (h : e.stuffPending = false) (hb : e.bl = 0#4) (rest : List (Bool × Bool)) :
    e.lineAfter rest = markedLine e.ones rest := by
  rw [BitEncoder.lineAfter, if_neg (by simp [h]), BitEncoder.unsent_of_empty hb, List.nil_append]

theorem BitEncoder.lineAfter_of_load (h : e.stuffPending = false) (hb : e.bl = 0#4) (o : ByteOut)
    (rest : List (Bool × Bool)) :
    e.lineAfter (o.bits ++ rest) = (o.byte.getLsbD 0, false) :: (e.load o).sendBit.lineAfter rest := by
  have hload : (e.load o).bl ≠ 0#4 := by simp [BitEncoder.load]
  rw [BitEncoder.lineAfter_of_empty h hb, ← BitEncoder.unsent_load e o]
  exact markedLine_unsent hload rest

/-- No line bit is left exactly when no stuffed bit is pending and no source bit is left. -/
theorem BitEncoder.lineAfter_eq_nil_iff {rest : List (Bool × Bool)} :
    e.lineAfter rest = [] ↔ e.stuffPending = false ∧ e.bl = 0#4 ∧ rest = [] := by
  cases hp : e.stuffPending with
  | true => simp [BitEncoder.lineAfter_of_pending hp]
  | false =>
    by_cases hb : e.bl = 0#4
    · rw [BitEncoder.lineAfter_of_empty hp hb]
      cases rest <;> simp [markedLine, hb]
    · simp [BitEncoder.lineAfter_of_unsent hp hb, hb]

end LineAfter

/-! ### The line of a whole frame -/

/-- R200: a source bit of a byte without stuffing. -/
theorem markedLine_plain (ones : BitVec 3) (b : Bool) (rest : List (Bool × Bool)) :
    markedLine ones ((b, false) :: rest) = (b, false) :: markedLine (onesAfter b ones) rest := rfl

theorem markedLine_flag (ones : BitVec 3) (rest : List (Bool × Bool)) :
    markedLine ones (ByteOut.bits ⟨0x7E#8, false⟩ ++ rest) =
      (lsbFirst 0x7E).map (·, false) ++ markedLine 0 rest := by
  have hbits : ByteOut.bits ⟨0x7E#8, false⟩ = [false, true, true, true, true, true, true, false].map (·, false) := rfl
  rw [hbits]
  simp only [List.map_cons, List.map_nil, List.cons_append, List.nil_append, markedLine_plain]
  rfl

theorem flagBits_succ (n : Nat) : flagBits (n + 1) = lsbFirst 0x7E ++ flagBits n := by
  rw [flagBits, List.replicate_succ, List.flatten_cons]
  rfl

theorem flagBits_add (m n : Nat) : flagBits (m + n) = flagBits m ++ flagBits n := by
  rw [flagBits, flagBits, flagBits, List.replicate_add, List.flatten_append]

theorem flagBits_length (n : Nat) : (flagBits n).length = 8 * n := by
  induction n with
  | zero => rfl
  | succ n ih =>
    rw [flagBits_succ, List.length_append, ih]
    simp [lsbFirst]
    omega

/-- The source bits of `n` flags. -/
abbrev flagSource (n : Nat) : List (Bool × Bool) := (List.replicate n (⟨0x7E#8, false⟩ : ByteOut)).flatMap ByteOut.bits

theorem markedLine_flags_append (n : Nat) (rest : List (Bool × Bool)) :
    markedLine 0 (flagSource n ++ rest) = (flagBits n).map (·, false) ++ markedLine 0 rest := by
  induction n with
  | zero => rfl
  | succ n ih =>
    rw [flagSource, List.replicate_succ, List.flatMap_cons, List.append_assoc, markedLine_flag, ih, flagBits_succ,
      List.map_append, List.append_assoc]

theorem markedLine_flags (ones : BitVec 3) (n : Nat) : markedLine ones (flagSource n) = (flagBits n).map (·, false) := by
  cases n with
  | zero => rfl
  | succ n =>
    have hrest := markedLine_flags_append n []
    rw [List.append_nil, markedLine, List.append_nil] at hrest
    rw [flagSource, List.replicate_succ, List.flatMap_cons, markedLine_flag, hrest, flagBits_succ, List.map_append]

/-- R200: source bits with stuffing on, before flags. -/
theorem markedLine_stuffed {n : Nat} (hn : n ≤ 4) (bs : List Bool) (m : Nat) :
    markedLine (BitVec.ofNat 3 n) (bs.map (·, true) ++ flagSource m) =
      stuffMarked n bs ++ (flagBits m).map (·, false) := by
  induction bs generalizing n with
  | nil => exact markedLine_flags _ m
  | cons b bs ih =>
    rw [List.map_cons, List.cons_append, markedLine, Bool.true_and]
    cases b with
    | false => exact congrArg _ (ih (n := 0) (by omega))
    | true =>
      by_cases h4 : n = 4
      · subst h4
        exact congrArg (fun l => (true, false) :: (false, true) :: l) (ih (n := 0) (by omega))
      · have hcount : ∀ n < 4, onesAfter true (BitVec.ofNat 3 n) = BitVec.ofNat 3 (n + 1) ∧
            (BitVec.ofNat 3 (n + 1) == 5#3) = false := by decide
        obtain ⟨hones, hne⟩ := hcount n (by omega)
        rw [hones, hne, stuffMarked, if_neg h4, List.cons_append, ← ih (n := n + 1) (by omega)]
        rfl

/-- The marked line bits of a frame and `k` more flags. -/
def frameMarks (s : State) (hs xs : List Byte) (k : Nat) : List (Bool × Bool) :=
  (flagBits s.startFlags.toNat).map (·, false) ++ stuffMarked 0 ((frameBody s hs xs).flatMap lsbFirst) ++
    (flagBits (s.endFlags.toNat + k)).map (·, false)

/-- The bytes of a frame and `k` more flags, from byte `n` on. -/
def frameTail (s : State) (hs xs : List Byte) (k n : Nat) : List ByteOut :=
  (frameBytes s hs xs ++ List.replicate k (⟨0x7E#8, false⟩ : ByteOut)).drop n

section FrameLine

variable {s : State} {hs xs : List Byte}

theorem frameMarks_map_fst (s : State) (hs xs : List Byte) (k : Nat) :
    (frameMarks s hs xs k).map Prod.fst = frameLine s hs xs ++ flagBits k := by
  have hfst : ∀ n, ((flagBits n).map (·, false)).map Prod.fst = flagBits n := fun n => by simp [Function.comp_def]
  rw [frameMarks, List.map_append, List.map_append, hfst, hfst, stuffMarked_map_fst, frameLine, flagBits_add,
    List.append_assoc, List.append_assoc, List.append_assoc]

/-- R200: the source bits of a whole frame give its marked line bits. -/
theorem markedLine_frame (s : State) (hs xs : List Byte) (k : Nat) :
    markedLine 0 ((frameTail s hs xs k 0).flatMap ByteOut.bits) = frameMarks s hs xs k := by
  have hbody : ((frameBody s hs xs).map fun b => (⟨b, true⟩ : ByteOut)).flatMap ByteOut.bits =
      ((frameBody s hs xs).flatMap lsbFirst).map (·, true) := by
    rw [List.flatMap_map, List.map_flatMap]
    rfl
  rw [frameTail, List.drop_zero, frameBytes, List.append_assoc, List.append_assoc, ← List.replicate_add,
    List.flatMap_append, List.flatMap_append, hbody, markedLine_flags_append, frameMarks, List.append_assoc]
  exact congrArg _ (markedLine_stuffed (Nat.zero_le 4) _ _)

/-- The next byte of a frame that is not over, and the bytes after it. -/
theorem frameTail_of_ne_nil {k n : Nat} (h : frameTail s hs xs k n ≠ []) :
    frameTail s hs xs k n = frameByte s hs xs n :: frameTail s hs xs k (n + 1) := by
  have hn : n < (frameBytes s hs xs ++ List.replicate k (⟨0x7E#8, false⟩ : ByteOut)).length := by
    by_contra hge
    exact h (List.drop_eq_nil_of_le (Nat.le_of_not_lt hge))
  rw [frameTail, List.drop_eq_getElem_cons hn, frameTail]
  congr 1
  rw [frameByte]
  by_cases hlt : n < (frameBytes s hs xs).length
  · rw [List.getElem_append_left hlt, List.getElem?_eq_getElem hlt, Option.getD_some]
  · rw [List.getElem_append_right (Nat.le_of_not_lt hlt), List.getElem_replicate,
      List.getElem?_eq_none (Nat.le_of_not_lt hlt), Option.getD_none]
    rfl

/-- After the last byte of a frame nothing is left of it. -/
theorem frameTail_eq_nil_iff (hload : FrameLoaded s hs xs) {n : Nat} :
    frameTail s hs xs 0 n = [] ↔ s.startFlags.toNat + 57 + s.endFlags.toNat ≤ n := by
  rw [frameTail, List.replicate_zero, List.append_nil, List.drop_eq_nil_iff, hload.frameBytes_length]

end FrameLine

/-! ### The bit producer sends the line -/

/-- The frame FSM and the bit encoder when the marked line bits `line` are still to come, of a frame and `k` more flags. -/
def LineLeft (s : State) (hs xs : List Byte) (k : Nat) (line : List (Bool × Bool)) (f : FrameFsm) (e : BitEncoder) : Prop :=
  ∃ n, f.AtByte s n ∧ e.lineAfter ((frameTail s hs xs k n).flatMap ByteOut.bits) = line

/-- R190-R198: while a line bit is still to come, an arm of the producer sends it. -/
theorem LineLeft.exists_arm {s t : State} {hs xs : List Byte} {k : Nat} {x : Bool × Bool} {line : List (Bool × Bool)}
    (h : LineLeft s hs xs k (x :: line) t.ax t.enc) (hload : FrameLoaded s hs xs) (hsame : SameFrameInputs s t) :
    ∃ level f e, BitArm t ⟨level, x.1, x.2⟩ f e ∧ LineLeft s hs xs k line f e := by
  obtain ⟨n, hat, hline⟩ := h
  cases hp : t.enc.stuffPending with
  | true =>
    rw [BitEncoder.lineAfter_of_pending hp, List.cons.injEq] at hline
    obtain ⟨rfl, hline⟩ := hline
    exact ⟨_, _, _, .stuffed hp, n, hat, hline⟩
  | false =>
    by_cases hb : t.enc.bl = 0#4
    · have hne : frameTail s hs xs k n ≠ [] := fun hnil => by
        rw [hnil, BitEncoder.lineAfter_of_empty hp hb] at hline
        cases hline
      obtain ⟨f, harm, hf⟩ := hat.exists_arm_later hload hsame
      rw [frameTail_of_ne_nil hne, List.flatMap_cons, BitEncoder.lineAfter_of_load hp hb, List.cons.injEq] at hline
      obtain ⟨rfl, hline⟩ := hline
      exact ⟨_, _, _, .loaded hp hb _ f harm, n + 1, hf, hline⟩
    · rw [BitEncoder.lineAfter_of_unsent hp hb, List.cons.injEq] at hline
      obtain ⟨rfl, hline⟩ := hline
      exact ⟨_, _, _, .unsent hp hb, n, hat, hline⟩

/-- R198: the pipeline is at its end exactly when no line bit of the frame is left. -/
theorem LineLeft.aprsEnd_iff {s : State} {hs xs : List Byte} {line : List (Bool × Bool)} {f : FrameFsm} {e : BitEncoder}
    (h : LineLeft s hs xs 0 line f e) (hload : FrameLoaded s hs xs) :
    (f.finished = true ∧ e.bl = 0 ∧ ¬ (e.stuff = true ∧ e.ones = 5)) ↔ line = [] := by
  obtain ⟨n, hat, rfl⟩ := h
  have hbits : (frameTail s hs xs 0 n).flatMap ByteOut.bits = [] ↔ frameTail s hs xs 0 n = [] := by
    cases frameTail s hs xs 0 n <;> simp [ByteOut.bits, lsbFirst]
  have hp : e.stuffPending = false ↔ ¬ (e.stuff = true ∧ e.ones = 5) := by
    rw [← Bool.not_eq_true, stuffPending_iff]
    rfl
  rw [BitEncoder.lineAfter_eq_nil_iff, hbits, frameTail_eq_nil_iff hload, hat.finished_iff, hp]
  tauto

/-- A frame just begun has all its line bits to come (R170). -/
theorem lineLeft_start (s : State) (hs xs : List Byte) (k : Nat) (level : Bool) :
    LineLeft s hs xs k (frameMarks s hs xs k) FrameFsm.reset (BitEncoder.reset level) := by
  refine ⟨0, ⟨rfl, rfl⟩, ?_⟩
  rw [BitEncoder.lineAfter_of_empty rfl rfl]
  exact markedLine_frame s hs xs k

/-- The state of a run of NRZI_NEXT_BIT: in IDLE, with the frame's inputs as they were and `line` still to come. -/
structure Sending (s : State) (hs xs : List Byte) (k : Nat) (line : List (Bool × Bool)) (t : State) : Prop where
  mode : t.mode = .idle
  inputs : SameFrameInputs s t
  left : LineLeft s hs xs k line t.ax t.enc

section Sending

variable {s t : State} {hs xs : List Byte} {k : Nat}

/-- One call of NRZI_NEXT_BIT sends the next line bit. -/
theorem Sending.step {x : Bool × Bool} {line : List (Bool × Bool)} (h : Sending s hs xs k (x :: line) t)
    (hload : FrameLoaded s hs xs) :
    ∃ u, exec .nrziNextBit t = .next u ∧ Sending s hs xs k line u ∧ u.result.getLsbD 1 = x.1 ∧
      u.result.getLsbD 2 = x.2 ∧ u.result.getLsbD 0 = u.enc.level ∧ u.enc.level = nrzi x.1 t.enc.level := by
  obtain ⟨level, f, e, harm, hleft⟩ := h.left.exists_arm hload h.inputs
  obtain ⟨helevel, holevel⟩ := harm.level_eq
  obtain ⟨hline, hstuffed⟩ := packLineBit_bits level x.1 x.2
  have hsame := h.inputs
  refine ⟨_, exec_nextBit_of_arm h.mode harm, ⟨h.mode, ?_, hleft⟩, hline, hstuffed, ?_, helevel.trans holevel⟩
  · exact ⟨hsame.startFlags, hsame.endFlags, hsame.fcs, hsame.config, hsame.mem⟩
  · rw [packLineBit_level, helevel]

/-- The calls of NRZI_NEXT_BIT return the line bits to come. -/
theorem Sending.sentBits_eq (hload : FrameLoaded s hs xs) {first rest : List (Bool × Bool)}
    (h : Sending s hs xs k (first ++ rest) t) : sentBits first.length t = first := by
  induction first generalizing t with
  | nil => rfl
  | cons x first ih =>
    obtain ⟨u, hu, hsend, h1, h2, -⟩ := h.step hload
    rw [List.length_cons, sentBits, hu]
    simp only [h1, h2, ih hsend]

/-- A run of NRZI_NEXT_BIT sends the first line bits to come and leaves the others. -/
theorem Sending.run (hload : FrameLoaded s hs xs) {first rest : List (Bool × Bool)}
    (h : Sending s hs xs k (first ++ rest) t) :
    ∃ u, execList (List.replicate first.length .nrziNextBit) t = .next u ∧ Sending s hs xs k rest u ∧
      u.enc.level = levelAfter t.enc.level (first.map Prod.fst) := by
  induction first generalizing t with
  | nil => exact ⟨t, rfl, h, rfl⟩
  | cons x first ih =>
    obtain ⟨u, hu, hsend, -, -, -, hlevel⟩ := h.step hload
    obtain ⟨v, hv, hrest, hlast⟩ := ih hsend
    refine ⟨v, by rw [List.length_cons, List.replicate_succ, execList_cons_next hu, hv], hrest, ?_⟩
    rw [hlast, hlevel, List.map_cons, levelAfter_cons]

end Sending

/-- After AX25_RESET the whole line is to come. -/
theorem sending_restartFrame {s : State} (hm : s.mode = .idle) (hs xs : List Byte) (k : Nat) :
    Sending s hs xs k (frameMarks s hs xs k) s.restartFrame :=
  ⟨hm, ⟨rfl, rfl, rfl, rfl, rfl⟩, lineLeft_start s hs xs k _⟩

/-! ### The obligations -/

/-- Settles O28: the body is the source stuffed with marks, and each property is one of the list `stuffMarked`. -/
theorem stuffedStreamHasNoSixOnes : Obligations.StuffedStreamHasNoSixOnes := by
  intro s t hs xs hm hsf hef hhl hxl hh hx h
  have hload : FrameLoaded s hs xs := ⟨hsf, hef, hhl, hxl, hh, hx⟩
  obtain rfl := next_inj ((exec_ax25Reset_idle hm).symm.trans h)
  refine ⟨stuffMarked 0 ((frameBody s hs xs).flatMap lsbFirst), fun n => ?stream, stuffMarked_filter 0 _, ?six, ?mark,
    ?five, ?recover⟩
  case stream =>
    have hsplit : frameMarks s hs xs n =
        ((flagBits s.startFlags.toNat).map (·, false) ++ stuffMarked 0 ((frameBody s hs xs).flatMap lsbFirst) ++
          (flagBits n).map (·, false)) ++ (flagBits s.endFlags.toNat).map (·, false) := by
      rw [frameMarks, Nat.add_comm, flagBits_add, List.map_append, ← List.append_assoc]
    have hsend := hsplit ▸ sending_restartFrame hm hs xs n
    have hsent := hsend.sentBits_eq hload
    simpa only [List.length_append, List.length_map, flagBits_length] using hsent
  case six => rw [stuffMarked_map_fst]; exact not_six_ones_stuffBits _
  case mark =>
    intro k b hb
    have hk : k ≤ (stuffBits 0 ((frameBody s hs xs).flatMap lsbFirst)).length := by
      rw [← stuffMarked_map_fst, List.length_map]
      exact Nat.le_of_lt (List.getElem?_eq_some_iff.1 hb).1
    rw [stuffMarked_map_fst, ← five_le_trailingOnes_take_iff hk]
    exact stuffMarked_getElem (Nat.zero_le 4) _ k b hb
  case five => rw [stuffMarked_map_fst]; exact not_five_ones_suffix_stuffBits _
  case recover => rw [stuffMarked_map_fst]; exact unstuffBits_stuffBits (Nat.zero_le 4) _

theorem frameMarks_zero_length (s : State) (hs xs : List Byte) :
    (frameMarks s hs xs 0).length = (frameLine s hs xs).length := by
  rw [← List.length_map (f := Prod.fst), frameMarks_map_fst]
  simp [flagBits]

/-- The level after one more bit of a stream. -/
theorem levelAfter_take_succ {level b : Bool} {bs : List Bool} {n : Nat} (h : bs[n]? = some b) :
    levelAfter level (bs.take (n + 1)) = nrzi b (levelAfter level (bs.take n)) := by
  rw [List.take_add_one, h, levelAfter, levelAfter, List.foldl_append]
  rfl

/-- The call of NRZI_NEXT_BIT that sends bit `n` of the line, after AX25_RESET and the calls before it. -/
theorem exists_call {s : State} {hs xs : List Byte} (hm : s.mode = .idle) (hload : FrameLoaded s hs xs) (k : Nat) {n : Nat}
    (hn : n < (frameMarks s hs xs k).length) :
    ∃ u, execList (.ax25Reset :: List.replicate (n + 1) .nrziNextBit) s = .next u ∧
      Sending s hs xs k ((frameMarks s hs xs k).drop (n + 1)) u ∧
      (frameLine s hs xs ++ flagBits k)[n]? = some (u.result.getLsbD 1) ∧
      u.result.getLsbD 0 = levelAfter s.nrziInit ((frameLine s hs xs ++ flagBits k).take (n + 1)) := by
  have hsplit : frameMarks s hs xs k =
      (frameMarks s hs xs k).take n ++ (frameMarks s hs xs k)[n] :: (frameMarks s hs xs k).drop (n + 1) := by
    rw [← List.drop_eq_getElem_cons hn, List.take_append_drop]
  have hbit : (frameLine s hs xs ++ flagBits k)[n]? = some (frameMarks s hs xs k)[n].1 := by
    rw [← frameMarks_map_fst, List.getElem?_map, List.getElem?_eq_getElem hn, Option.map_some]
  have hstart := sending_restartFrame hm hs xs k
  rw [hsplit] at hstart
  obtain ⟨t, ht, hsend, htlevel⟩ := hstart.run hload
  rw [List.length_take_of_le (Nat.le_of_lt hn)] at ht
  obtain ⟨u, hu, hleft, hline, -, hlevel, hnrzi⟩ := hsend.step hload
  refine ⟨u, ?_, hleft, hline ▸ hbit, ?_⟩
  · rw [execList_cons_next (exec_ax25Reset_idle hm), execList_replicate_succ ht hu]
  · rw [hlevel, hnrzi, htlevel, levelAfter_take_succ hbit, List.map_take, frameMarks_map_fst]
    rfl

/-- Settles O29: call `n` is one of a line with flags enough after it, and the end is read in the line of the frame alone. -/
theorem bitProducerSendsTheStuffedFrame : Obligations.BitProducerSendsTheStuffedFrame := by
  intro s hs xs hm hsf hef hhl hxl hh hx n
  have hload : FrameLoaded s hs xs := ⟨hsf, hef, hhl, hxl, hh, hx⟩
  have hlen : n < (frameLine s hs xs ++ flagBits (n + 1)).length := by
    rw [List.length_append, flagBits_length]
    omega
  obtain ⟨t, ht, -, hline, hlevel⟩ := exists_call hm hload (n + 1) (by
    rwa [← List.length_map (f := Prod.fst), frameMarks_map_fst])
  refine ⟨t, ht, hline, ?level, fun hn => ?last⟩
  case level => rw [hlevel]; exact getElem?_cons_nrziLevels s.nrziInit _ hlen
  case last =>
    obtain ⟨u, hu, hsend, -⟩ := exists_call hm hload 0 ((frameMarks_zero_length s hs xs).symm ▸ hn)
    obtain rfl := next_inj (ht.symm.trans hu)
    have hend := (aprsEnd_iff u).trans (hsend.left.aprsEnd_iff hload)
    rw [hend, List.drop_eq_nil_iff, frameMarks_zero_length]
    omega

/-! ### An APRS transmission -/

/-- The state after `n` sample ticks of an APRS transmission of the frame of `s`, `N` line bits long (R253-R255). -/
structure Transmitting (s : State) (hs xs : List Byte) (n : Nat) (t : State) : Prop where
  inputs : SameFrameInputs s t
  left : LineLeft s hs xs 0 ((frameMarks s hs xs 0).drop (n / 22)) t.ax t.enc
  level : t.enc.level = t.sym
  sym : t.sym = levelAfter s.nrziInit ((frameLine s hs xs).take (n / 22))
  mode : t.mode = if n = 22 * (frameLine s hs xs).length then .idle else .aprs
  done : t.done = decide (n = 22 * (frameLine s hs xs).length)
  aux : t.aux = decide (n % 2 = 1)
  div : t.div.toNat = n % 22

theorem frameLine_length_pos {s : State} {hs xs : List Byte} (hload : FrameLoaded s hs xs) :
    0 < (frameLine s hs xs).length := by
  have hflags : 0 < s.startFlags.toNat := Nat.pos_of_ne_zero fun h => hload.startFlags (BitVec.eq_of_toNat_eq h)
  rw [frameLine, List.length_append, List.length_append, flagBits_length]
  omega

/-- TX_START_APRS begins the transmission (R251). -/
theorem transmitting_start {s : State} {hs xs : List Byte} (hload : FrameLoaded s hs xs) :
    Transmitting s hs xs 0
      { s.restartFrame with div := 0#5, aux := false, sym := s.nrziInit, done := false, mode := .aprs } where
  inputs := ⟨rfl, rfl, rfl, rfl, rfl⟩
  left := lineLeft_start s hs xs 0 _
  level := rfl
  sym := rfl
  mode := by have := frameLine_length_pos hload; rw [if_neg (by omega)]
  done := by have := frameLine_length_pos hload; rw [decide_eq_false (by omega)]
  aux := rfl
  div := rfl

/-- Bit `n` of the line, from its marks. -/
theorem frameLine_getElem? {s : State} {hs xs : List Byte} {n : Nat} (h : n < (frameMarks s hs xs 0).length) :
    (frameLine s hs xs)[n]? = some (frameMarks s hs xs 0)[n].1 := by
  have hmap : (frameMarks s hs xs 0).map Prod.fst = frameLine s hs xs ++ [] := frameMarks_map_fst s hs xs 0
  rw [← List.append_nil (frameLine s hs xs), ← hmap, List.getElem?_map, List.getElem?_eq_getElem h, Option.map_some]

section Tick

variable {s t : State} {hs xs : List Byte} {n : Nat}

theorem Transmitting.running (h : Transmitting s hs xs n t) (hn : n < 22 * (frameLine s hs xs).length) :
    t.mode = .aprs ∧ t.done = false := by
  rw [h.mode, h.done, if_neg (by omega), decide_eq_false (by omega)]
  exact ⟨rfl, rfl⟩

theorem Transmitting.not_aux (h : Transmitting s hs xs n t) : (!t.aux) = decide ((n + 1) % 2 = 1) := by
  rw [h.aux, ← decide_not]
  exact decide_eq_decide.2 (by omega)

theorem SameFrameInputs.of_tick {aux sym done : Bool} {f : FrameFsm} {e : BitEncoder} {d : BitVec 5} {m : Mode}
    (h : SameFrameInputs s t) :
    SameFrameInputs s { t with ax := f, enc := e, aux := aux, div := d, sym := sym, mode := m, done := done } :=
  ⟨h.startFlags, h.endFlags, h.fcs, h.config, h.mem⟩

/-- R253: a tick between two baud events. -/
theorem Transmitting.count (h : Transmitting s hs xs n t) (hn : n < 22 * (frameLine s hs xs).length)
    (hdiv : n % 22 < 21) : ∃ u, exec .tickSample t = .next u ∧ Transmitting s hs xs (n + 1) u := by
  obtain ⟨hmode, hdone⟩ := h.running hn
  have hquot : (n + 1) / 22 = n / 22 := by omega
  have hcount : (t.div + 1#5).toNat = (n + 1) % 22 := by
    have := h.div
    rw [BitVec.toNat_add, BitVec.toNat_ofNat]
    omega
  refine ⟨_, exec_tickSample_counted hmode (h.div ▸ hdiv), h.inputs.of_tick, hquot ▸ h.left, h.level, hquot ▸ h.sym,
    ?_, ?_, h.not_aux, hcount⟩
  · rw [if_neg (by omega)]; exact hmode
  · rw [decide_eq_false (by omega)]; exact hdone

/-- R254, R255: the tick of a baud event sends the next line bit. -/
theorem Transmitting.baud (h : Transmitting s hs xs n t) (hload : FrameLoaded s hs xs)
    (hn : n < 22 * (frameLine s hs xs).length) (hdiv : n % 22 = 21) :
    ∃ u, exec .tickSample t = .next u ∧ Transmitting s hs xs (n + 1) u := by
  obtain ⟨hmode, hdone⟩ := h.running hn
  have hquot : (n + 1) / 22 = n / 22 + 1 := by omega
  have hlt : n / 22 < (frameMarks s hs xs 0).length := by rw [frameMarks_zero_length]; omega
  have hleft := h.left
  rw [List.drop_eq_getElem_cons hlt] at hleft
  obtain ⟨level, f, e, harm, hnext⟩ := hleft.exists_arm hload h.inputs
  obtain ⟨helevel, holevel⟩ := harm.level_eq
  have hend : (f.finished = true ∧ e.bl = 0 ∧ ¬ (e.stuff = true ∧ e.ones = 5)) ↔
      n + 1 = 22 * (frameLine s hs xs).length := by
    rw [hnext.aprsEnd_iff hload, List.drop_eq_nil_iff, frameMarks_zero_length]
    omega
  have hbit := frameLine_getElem? hlt
  refine ⟨_, exec_tickSample_baud_of_arm hmode (BitVec.eq_of_toNat_eq (h.div.trans hdiv)) harm, h.inputs.of_tick,
    hquot ▸ hnext, rfl, ?sym, by simp only [hend], ?done, h.not_aux, (by omega : 0 = (n + 1) % 22)⟩
  case sym => rw [hquot, levelAfter_take_succ hbit, ← h.sym, ← h.level, helevel, holevel]
  case done =>
    simp only [hend, hdone]
    by_cases hlast : n + 1 = 22 * (frameLine s hs xs).length <;> simp [hlast]

/-- A sample tick of a running transmission is the next one of the transmission. -/
theorem Transmitting.tick (h : Transmitting s hs xs n t) (hload : FrameLoaded s hs xs)
    (hn : n < 22 * (frameLine s hs xs).length) :
    ∃ u, exec .tickSample t = .next u ∧ Transmitting s hs xs (n + 1) u := by
  by_cases hdiv : n % 22 < 21
  · exact h.count hn hdiv
  · exact h.baud hload hn (by omega)

end Tick

/-- The ticks of a transmission, up to its end. -/
theorem exists_transmitting {s : State} {hs xs : List Byte} (hm : s.mode = .idle) (hload : FrameLoaded s hs xs) {n : Nat}
    (hn : n ≤ 22 * (frameLine s hs xs).length) :
    ∃ t, execList (.txStartAprs :: List.replicate n .tickSample) s = .next t ∧ Transmitting s hs xs n t := by
  have hstart := exec_txStartAprs_idle hm
  induction n with
  | zero => exact ⟨_, execList_cons_next hstart, transmitting_start hload⟩
  | succ n ih =>
    obtain ⟨t, ht, hsend⟩ := ih (by omega)
    obtain ⟨u, hu, hnext⟩ := hsend.tick hload (by omega)
    rw [execList_cons_next hstart] at ht
    exact ⟨u, by rw [execList_cons_next hstart, execList_replicate_succ ht hu], hnext⟩

/-- Settles O42: each clause is one of the state after the ticks. -/
theorem aprsTransmissionRunsItsExactLength : Obligations.AprsTransmissionRunsItsExactLength := by
  intro s hs xs hm hsf hef hhl hxl hh hx n hn
  obtain ⟨t, ht, hsend⟩ := exists_transmitting hm ⟨hsf, hef, hhl, hxl, hh, hx⟩ hn
  refine ⟨t, ht, ?_, hsend.mode, hsend.done, hsend.aux, hsend.div⟩
  rw [State.symbolPin_eq, hsend.sym]
  exact getElem?_cons_nrziLevels s.nrziInit _ (by omega)

end Sys2Proof.Machine
end

section
/-! PROOFS. The bits of an RTTY message: the idle run and the characters, alone and from the baud ticks (44_rtty.md R231;
45_scheduler.md R262). -/

open Sys2Proof.Spec

namespace Sys2Proof.Machine

/-! ### The bits still to come -/

/-- The bits of the characters of a message from character `n` on. -/
def rttyChars (cs : List Byte) (n : Nat) : List Bool := (cs.drop n).flatMap rttyCharBits

/-- The data bits of the character being sent that are still to come (R226). -/
def RttyFsm.dataLeft (r : RttyFsm) : List Bool := ((List.range 7).drop r.bidx.toNat).map fun i => r.ch.getLsbD i

/-- The bits still to come of the message `cs` (R224-R228). -/
def RttyFsm.bitsLeft (r : RttyFsm) (idleBit : Bool) (cs : List Byte) : List Bool :=
  if r.fin then [] else
    match r.state with
    | .idle => List.replicate r.idleLeft.toNat idleBit ++ rttyChars cs r.cidx.toNat
    | .start => rttyChars cs r.cidx.toNat
    | .character => r.dataLeft ++ true :: true :: rttyChars cs (r.cidx.toNat + 1)
    | .stop1 => true :: true :: rttyChars cs (r.cidx.toNat + 1)
    | .stop2 => true :: rttyChars cs (r.cidx.toNat + 1)

section BitsLeft

variable {r : RttyFsm} {idleBit : Bool} {cs : List Byte}

theorem RttyFsm.bitsLeft_of_fin (hf : r.fin = true) : r.bitsLeft idleBit cs = [] := if_pos hf

theorem RttyFsm.bitsLeft_of_idle (hf : r.fin = false) (hs : r.state = .idle) :
    r.bitsLeft idleBit cs = List.replicate r.idleLeft.toNat idleBit ++ rttyChars cs r.cidx.toNat := by
  simp [RttyFsm.bitsLeft, hf, hs]

theorem RttyFsm.bitsLeft_of_start (hf : r.fin = false) (hs : r.state = .start) :
    r.bitsLeft idleBit cs = rttyChars cs r.cidx.toNat := by
  simp [RttyFsm.bitsLeft, hf, hs]

theorem RttyFsm.bitsLeft_of_character (hf : r.fin = false) (hs : r.state = .character) :
    r.bitsLeft idleBit cs = r.dataLeft ++ true :: true :: rttyChars cs (r.cidx.toNat + 1) := by
  simp [RttyFsm.bitsLeft, hf, hs]

theorem RttyFsm.bitsLeft_of_stop1 (hf : r.fin = false) (hs : r.state = .stop1) :
    r.bitsLeft idleBit cs = true :: true :: rttyChars cs (r.cidx.toNat + 1) := by
  simp [RttyFsm.bitsLeft, hf, hs]

theorem RttyFsm.bitsLeft_of_stop2 (hf : r.fin = false) (hs : r.state = .stop2) :
    r.bitsLeft idleBit cs = true :: rttyChars cs (r.cidx.toNat + 1) := by
  simp [RttyFsm.bitsLeft, hf, hs]

/-- R225: the bits of the next character, its start bit first. -/
theorem rttyChars_of_getElem? {n : Nat} {v : Byte} (h : cs[n]? = some v) :
    rttyChars cs n =
      false :: (List.range 7).map (fun i => (v.extractLsb' 0 7).getLsbD i) ++ true :: true :: rttyChars cs (n + 1) := by
  obtain ⟨hn, hv⟩ := List.getElem?_eq_some_iff.1 h
  have hbits : (List.range 7).map (fun i => (v.extractLsb' 0 7).getLsbD i) = (List.range 7).map fun i => v.getLsbD i :=
    List.map_congr_left fun i hi => by simp [List.mem_range.1 hi]
  rw [hbits, rttyChars, List.drop_eq_getElem_cons hn, hv, List.flatMap_cons]
  rfl

theorem rttyChars_of_length_le {n : Nat} (h : cs.length ≤ n) : rttyChars cs n = [] := by
  rw [rttyChars, List.drop_eq_nil_of_le h, List.flatMap_nil]

/-- R226: the next data bit. -/
theorem RttyFsm.dataLeft_eq_cons (h : r.bidx.toNat ≤ 6) :
    r.dataLeft =
      r.ch.getLsbD r.bidx.toNat :: ((List.range 7).drop (r.bidx.toNat + 1)).map fun i => r.ch.getLsbD i := by
  rw [RttyFsm.dataLeft, List.drop_eq_getElem_cons (by simp; omega), List.map_cons, List.getElem_range]

/-- A running message has a bit to come. -/
theorem RttyFsm.bitsLeft_ne_nil (hf : r.fin = false) (hok : r.ok = true) (hlen : r.len.toNat = cs.length) :
    r.bitsLeft idleBit cs ≠ [] := by
  obtain ⟨-, hlt, -⟩ := (RttyFsm.ok_iff_of_running hf).1 hok
  have hchars : rttyChars cs r.cidx.toNat ≠ [] := by
    rw [rttyChars_of_getElem? (List.getElem?_eq_getElem (hlen ▸ hlt))]
    simp
  cases hs : r.state with
  | idle => simp [RttyFsm.bitsLeft_of_idle hf hs, hchars]
  | start => rwa [RttyFsm.bitsLeft_of_start hf hs]
  | character => simp [RttyFsm.bitsLeft_of_character hf hs]
  | stop1 => simp [RttyFsm.bitsLeft_of_stop1 hf hs]
  | stop2 => simp [RttyFsm.bitsLeft_of_stop2 hf hs]

end BitsLeft

/-! ### An arm sends the first of them -/

theorem RttyArm.len_eq {s : State} {b : Bool} {r : RttyFsm} (h : RttyArm s b r) : r.len = s.rtty.len := by
  cases h with
  | dataBit _ => rcases s.rtty.afterDataBit_cases with ⟨-, he⟩ | ⟨-, he⟩ <;> rw [he]
  | secondStop _ => rcases s.rtty.afterStop2_cases with ⟨-, he⟩ | ⟨-, he⟩ <;> rw [he]
  | idleBit | startBit | firstStop => rfl

/-- R224-R228: each arm sends the first of the bits to come and leaves the others. -/
theorem RttyArm.bitsLeft {s : State} {b : Bool} {r : RttyFsm} {cs : List Byte} (h : RttyArm s b r)
    (hf : s.rtty.fin = false) (hok : s.rtty.ok = true) (hlen : s.rtty.len.toNat = cs.length) (hmsg : s.Holds .msg cs) :
    s.rtty.bitsLeft s.rttyIdleBit cs = b :: r.bitsLeft s.rttyIdleBit cs := by
  obtain ⟨h256, hlt, hplace⟩ := (RttyFsm.ok_iff_of_running hf).1 hok
  cases h with
  | idleBit hs hi =>
    have hone : s.rtty.idleLeft.toNat = (s.rtty.idleLeft - 1#16).toNat + 1 := by bv_omega
    rw [RttyFsm.bitsLeft_of_idle hf hs, hone, List.replicate_succ, List.cons_append]
    congr 1
    by_cases hlast : s.rtty.idleLeft - 1#16 = 0#16
    · rw [if_pos hlast, RttyFsm.bitsLeft_of_start (by exact hf) rfl, hlast]
      rfl
    · rw [if_neg hlast, RttyFsm.bitsLeft_of_idle (by exact hf) rfl]
  | startBit v hs hv =>
    have hchar : cs[s.rtty.cidx.toNat]? = some v := (hmsg.2 _ (hlen ▸ hlt)).symm.trans hv
    have hleft : s.rtty.bitsLeft s.rttyIdleBit cs = rttyChars cs s.rtty.cidx.toNat := by
      rcases hs with hs | ⟨hs, hi⟩
      · exact RttyFsm.bitsLeft_of_start hf hs
      · rw [RttyFsm.bitsLeft_of_idle hf hs, hi]
        rfl
    rw [hleft, rttyChars_of_getElem? hchar, RttyFsm.bitsLeft_of_character (by exact hf) rfl]
    rfl
  | dataBit hs =>
    simp only [RttyFsm.placed, hs] at hplace
    obtain ⟨-, h6⟩ := hplace
    rw [RttyFsm.bitsLeft_of_character hf hs, RttyFsm.dataLeft_eq_cons h6, List.cons_append]
    congr 1
    rcases s.rtty.afterDataBit_cases with ⟨hlast, he⟩ | ⟨hne, he⟩ <;> rw [he]
    · rw [RttyFsm.bitsLeft_of_stop1 (by exact hf) rfl, hlast]
      rfl
    · have hnext : (s.rtty.bidx + 1).toNat = s.rtty.bidx.toNat + 1 := by bv_omega
      rw [RttyFsm.bitsLeft_of_character (r := { s.rtty with bidx := s.rtty.bidx + 1 }) hf hs, RttyFsm.dataLeft, hnext]
  | firstStop hs => rw [RttyFsm.bitsLeft_of_stop1 hf hs, RttyFsm.bitsLeft_of_stop2 (by exact hf) rfl]
  | secondStop hs =>
    rw [RttyFsm.bitsLeft_of_stop2 hf hs]
    congr 1
    have hnext : (s.rtty.cidx + 1).toNat = s.rtty.cidx.toNat + 1 := by bv_omega
    rcases s.rtty.afterStop2_cases with ⟨hmore, he⟩ | ⟨hlast, he⟩ <;> rw [he]
    · rw [RttyFsm.bitsLeft_of_start (by exact hf) rfl, hnext]
    · rw [RttyFsm.bitsLeft_of_fin rfl, rttyChars_of_length_le (by bv_omega)]

/-! ### The bits of a whole message -/

theorem rttyChars_zero_length (cs : List Byte) : (rttyChars cs 0).length = 10 * cs.length := by
  rw [rttyChars, List.drop_zero, List.length_flatMap]
  simp [rttyCharBits, Nat.mul_comm]

/-- The bits of the message of `s` (R231). -/
abbrev State.rttyBits (s : State) (cs : List Byte) : List Bool := rttyLine s.rttyIdleBit s.rttyIdle.toNat cs

theorem rttyBits_length (s : State) (cs : List Byte) :
    (s.rttyBits cs).length = s.rttyIdle.toNat + 10 * cs.length := by
  rw [← rttyChars_zero_length, State.rttyBits, rttyLine, List.length_append, List.length_replicate]
  rfl

/-- What the laws about a message ask of the state: a legal length, and so many characters loaded (R231, R262). -/
structure MessageLoaded (s : State) (cs : List Byte) : Prop where
  length : cs.length = s.rttyLen.toNat
  ne_nil : cs ≠ []
  message : s.Holds .msg cs

theorem MessageLoaded.legal {s : State} {cs : List Byte} (h : MessageLoaded s cs) :
    1 ≤ s.rttyLen.toNat ∧ s.rttyLen.toNat ≤ 256 := by
  rw [← h.length]
  exact ⟨List.length_pos_iff.2 h.ne_nil, h.message.1⟩

/-- The RTTY FSM when `n` bits of the message of `s` have been sent. -/
structure RttyFsm.AtBit (s : State) (cs : List Byte) (n : Nat) (r : RttyFsm) : Prop where
  ok : r.ok = true
  len : r.len.toNat = cs.length
  left : r.bitsLeft s.rttyIdleBit cs = (s.rttyBits cs).drop n

section AtBit

variable {s t : State} {cs : List Byte} {n : Nat}

/-- R222: a message just begun. -/
theorem atBit_start (hload : MessageLoaded s cs) : s.startMessage.rtty.AtBit s cs 0 where
  ok := startMessage_ok ((rttyLenOk_iff s).2 hload.legal)
  len := hload.length.symm
  left := rfl

/-- R229: the message is finished exactly when every bit of it has been sent. -/
theorem RttyFsm.AtBit.fin_iff {r : RttyFsm} (h : r.AtBit s cs n) :
    r.fin = true ↔ s.rttyIdle.toNat + 10 * cs.length ≤ n := by
  rw [← rttyBits_length, ← List.drop_eq_nil_iff, ← h.left]
  cases hf : r.fin with
  | true => simp [RttyFsm.bitsLeft_of_fin hf]
  | false => simp [RttyFsm.bitsLeft_ne_nil hf h.ok h.len]

/-- While a bit is still to come, an arm of the producer sends it. -/
theorem RttyFsm.AtBit.exists_arm (h : t.rtty.AtBit s cs n) (hload : MessageLoaded s cs) (hc : t.config = s.config)
    (hmem : t.mem = s.mem) (hn : n < s.rttyIdle.toNat + 10 * cs.length) :
    ∃ b r, RttyArm t b r ∧ r.AtBit s cs (n + 1) ∧ (s.rttyBits cs)[n]? = some b := by
  have hf : t.rtty.fin = false := Bool.eq_false_iff.2 fun hfin => absurd (h.fin_iff.1 hfin) (Nat.not_le.2 hn)
  obtain ⟨-, hlt, -⟩ := (RttyFsm.ok_iff_of_running hf).1 h.ok
  have hmsg : t.Holds .msg cs := ⟨hload.message.1, fun i hi => (readBuf_congr hmem .msg i).trans (hload.message.2 i hi)⟩
  obtain ⟨b, r, harm⟩ : ∃ b r, RttyArm t b r := exists_rttyArm_of_ready fun _ => by
    have hcidx : t.rtty.cidx.toNat < cs.length := h.len ▸ hlt
    rw [hmsg.2 _ hcidx, List.getElem?_eq_getElem hcidx]
    exact Option.some_ne_none _
  have hidle : t.rttyIdleBit = s.rttyIdleBit := congrArg (·.getLsbD 1) hc
  have hlt' : n < (s.rttyBits cs).length := by rwa [rttyBits_length]
  have hleft := harm.bitsLeft hf h.ok h.len hmsg
  rw [hidle, h.left, List.drop_eq_getElem_cons hlt', List.cons.injEq] at hleft
  obtain ⟨hbit, hrest⟩ := hleft
  exact ⟨b, r, harm, ⟨harm.ok hf h.ok, harm.len_eq ▸ h.len, hrest.symm⟩, hbit ▸ List.getElem?_eq_getElem hlt'⟩

end AtBit

/-! ### The calls of the producer -/

/-- RESULT bit 1 is R_FIN (R230). -/
theorem packRttyBit_fin (b fin : Bool) : (packRttyBit b fin).getLsbD 1 = fin := by
  cases b <;> cases fin <;> decide

/-- The state of a run of RTTY_NEXT_BIT after `n` calls. -/
structure RttyCalled (s : State) (cs : List Byte) (n : Nat) (t : State) : Prop where
  frame : t = { s with rtty := t.rtty, result := t.result }
  at_bit : t.rtty.AtBit s cs n

section Called

variable {s t : State} {cs : List Byte} {n : Nat}

/-- One call of RTTY_NEXT_BIT sends the next bit. -/
theorem RttyCalled.step (h : RttyCalled s cs n t) (hm : s.mode = .idle) (hload : MessageLoaded s cs)
    (hn : n < s.rttyIdle.toNat + 10 * cs.length) :
    ∃ u, exec .rttyNextBit t = .next u ∧ RttyCalled s cs (n + 1) u ∧
      (s.rttyBits cs)[n]? = some (u.result.getLsbD 0) ∧ u.result.getLsbD 1 = u.rtty.fin := by
  obtain ⟨hframe, hat⟩ := h
  have hf : t.rtty.fin = false := Bool.eq_false_iff.2 fun hfin => absurd (hat.fin_iff.1 hfin) (Nat.not_le.2 hn)
  obtain ⟨b, r, harm, hnext, hbit⟩ := hat.exists_arm hload (by rw [hframe]) (by rw [hframe]) hn
  refine ⟨_, exec_rttyNextBit_of_arm (by rw [hframe]; exact hm) hf harm, ⟨?_, hnext⟩, ?_,
    packRttyBit_fin b r.fin⟩
  · rw [hframe]
  · rw [hbit, packRttyBit_lineBit]

/-- The calls of RTTY_NEXT_BIT after RTTY_INIT, up to the end of the message. -/
theorem exists_rttyCalled (hm : s.mode = .idle) (hload : MessageLoaded s cs) (hn : n ≤ s.rttyIdle.toNat + 10 * cs.length) :
    ∃ t, execList (List.replicate n .rttyNextBit) s.startMessage = .next t ∧ RttyCalled s cs n t := by
  induction n with
  | zero => exact ⟨_, rfl, rfl, atBit_start hload⟩
  | succ n ih =>
    obtain ⟨t, ht, hcalled⟩ := ih (by omega)
    obtain ⟨u, hu, hnext, -⟩ := hcalled.step hm hload (by omega)
    exact ⟨u, execList_replicate_succ ht hu, hnext⟩

end Called

/-- Settles O33: the run of the calls before, and then the call that sends the bit. -/
theorem rttyFramingLaw : Obligations.RttyFramingLaw := by
  intro s cs hm hlen hne hmsg n hn
  have hload : MessageLoaded s cs := ⟨hlen, hne, hmsg⟩
  have hinit : exec .rttyInit s = .next s.startMessage :=
    (exec_rttyInit_idle hm).trans (rttyInitThen_of_legal id hload.legal.1 hload.legal.2)
  obtain ⟨t, ht, hcalled⟩ := exists_rttyCalled hm hload (Nat.le_of_lt hn)
  obtain ⟨u, hu, hnext, hbit, hresult⟩ := hcalled.step hm hload hn
  refine ⟨u, ?_, hnext.frame, hbit, ?_, hresult⟩
  · rw [execList_cons_next hinit, execList_replicate_succ ht hu]
  · rw [hnext.at_bit.fin_iff]
    omega

/-! ### An RTTY transmission -/

/-- The state after `n` baud ticks of an RTTY transmission of the message of `s` (R255, R256). -/
structure RttyTransmitting (s : State) (cs : List Byte) (n : Nat) (t : State) : Prop where
  config : t.config = s.config
  mem : t.mem = s.mem
  at_bit : t.rtty.AtBit s cs n
  sym : (s.rttyIdleBit :: s.rttyBits cs)[n]? = some t.sym
  mode : t.mode = if n = s.rttyIdle.toNat + 10 * cs.length then .idle else .rtty
  done : t.done = decide (n = s.rttyIdle.toNat + 10 * cs.length)

section Transmission

variable {s t : State} {cs : List Byte} {n : Nat}

/-- TX_START_RTTY begins the transmission (R252). -/
theorem rttyTransmitting_start (hload : MessageLoaded s cs) :
    RttyTransmitting s cs 0 { s.startMessage with sym := s.rttyIdleBit, done := false, mode := .rtty } where
  config := rfl
  mem := rfl
  at_bit := atBit_start hload
  sym := rfl
  mode := by have := List.length_pos_iff.2 hload.ne_nil; rw [if_neg (by omega)]
  done := by have := List.length_pos_iff.2 hload.ne_nil; rw [decide_eq_false (by omega)]

/-- R255, R256: a baud tick of a running transmission sends the next bit. -/
theorem RttyTransmitting.tick (h : RttyTransmitting s cs n t) (hload : MessageLoaded s cs)
    (hn : n < s.rttyIdle.toNat + 10 * cs.length) :
    ∃ u, exec .tickBaud t = .next u ∧ RttyTransmitting s cs (n + 1) u := by
  have hmode : t.mode = .rtty := by rw [h.mode, if_neg (by omega)]
  have hdone : t.done = false := by rw [h.done, decide_eq_false (by omega)]
  obtain ⟨b, r, harm, hnext, hbit⟩ := h.at_bit.exists_arm hload h.config h.mem hn
  have hend : r.fin = true ↔ n + 1 = s.rttyIdle.toNat + 10 * cs.length := by
    rw [hnext.fin_iff]
    omega
  refine ⟨_, exec_tickBaud_rtty_of_arm hmode harm, h.config, h.mem, hnext, hbit, by simp only [hend], ?_⟩
  simp only [hend, hdone]
  by_cases hlast : n + 1 = s.rttyIdle.toNat + 10 * cs.length <;> simp [hlast]

/-- The ticks of a transmission, up to its end. -/
theorem exists_rttyTransmitting (hm : s.mode = .idle) (hload : MessageLoaded s cs)
    (hn : n ≤ s.rttyIdle.toNat + 10 * cs.length) :
    ∃ t, execList (.txStartRtty :: List.replicate n .tickBaud) s = .next t ∧ RttyTransmitting s cs n t := by
  have hstart := (exec_txStartRtty_idle hm).trans (rttyInitThen_of_legal _ hload.legal.1 hload.legal.2)
  induction n with
  | zero => exact ⟨_, execList_cons_next hstart, rttyTransmitting_start hload⟩
  | succ n ih =>
    obtain ⟨t, ht, hsend⟩ := ih (by omega)
    obtain ⟨u, hu, hnext⟩ := hsend.tick hload (by omega)
    rw [execList_cons_next hstart] at ht
    exact ⟨u, by rw [execList_cons_next hstart, execList_replicate_succ ht hu], hnext⟩

end Transmission

/-- Settles O43: each clause is one of the state after the ticks. -/
theorem rttyTransmissionRunsItsExactLength : Obligations.RttyTransmissionRunsItsExactLength := by
  intro s cs hm hlen hne hmsg n hn
  obtain ⟨t, ht, hsend⟩ := exists_rttyTransmitting hm ⟨hlen, hne, hmsg⟩ hn
  exact ⟨t, ht, hsend.sym, hsend.mode, hsend.done⟩

end Sys2Proof.Machine
end
